-- ==== Sys2Proof/Word.lean ====
section
/-! DEFINITION. The word types of the core: every value on a port or in a store is an unsigned word of a
stated width (20_memory.md R50, R52; 00_scope.md R6 rows FW, UW, CW). -/

namespace Sys2Proof

/-- One byte of a serialised image (R50). -/
abbrev Byte := BitVec 8

/-- A word of the host port, `FW` = 256 bits (R6, R52). -/
abbrev Word := BitVec 256

/-- A micro-operation word, `UW` = 288 bits (R6, R60). -/
abbrev UopWord := BitVec 288

/-- A command word, `CW` = 32 bits (R6, R60). -/
abbrev CmdWord := BitVec 32

end Sys2Proof
end

