-- ==== Sys2Proof/Config.lean ====
section
/-! DEFINITION. The implementation parameters of 00_scope.md R6 and the one free value of the model.
`P` and `ALPHA` have the value the spec shows. The parameters the spec leaves OPEN or calls an argument of the
model (`OOR_POLICY`, the three capacities) are the record `Params`, which a machine carries and no step changes, so
that a statement over every state quantifies over them. -/

namespace Sys2Proof

namespace Config

/-- The prime modulus `P` (R6; the spec gives the value and marks it as from general knowledge, log entry 1). -/
def P : Nat := 0x73eda753299d7d483339d80809a1d80553bda402fffe5bfeffffffff00000001

theorem P_pos : 0 < P := by decide

/-- `ALPHA`, the S-box exponent, as CSR `ALPHA` shows it (R6, R25). -/
def alpha : BitVec 8 := 5

/-- The treatment of a host integer at or above `P` (R6 row `OOR_POLICY`, R141). -/
inductive OorPolicy
  | reduce
  | reject
  deriving DecidableEq, Repr

/-- The parameters that the spec calls OPEN or an argument of the model (R6). -/
structure Params where
  oorPolicy : OorPolicy
  /-- `RCCAP`, entries of each round-constant store. -/
  rcCap : Nat
  /-- `MDSCAP`, entries of each matrix store. -/
  mdsCap : Nat
  /-- `PMCAP`, words of each program store. -/
  pmCap : Nat
  deriving DecidableEq, Repr

/-- The bounds the spec puts on the capacities: at most 2^22 each (R49), `MDSCAP` at least 25 (R6). -/
abbrev Params.ok (p : Params) : Prop :=
  p.rcCap ≤ 2 ^ 22 ∧ 25 ≤ p.mdsCap ∧ p.mdsCap ≤ 2 ^ 22 ∧ p.pmCap ≤ 2 ^ 22

/-- The parameters of the machine that `State.reset` describes: the spec's default policy `REDUCE` (R6) and, DESIGN
CHOICE (log entry 2), the largest capacities the bus map leaves room for (R49). -/
def Params.standard : Params :=
  { oorPolicy := .reduce, rcCap := 2 ^ 22, mdsCap := 2 ^ 22, pmCap := 2 ^ 22 }

/-- FREE VALUE (log entry 3). What the 16 bits of `ROUND` show when the number of completed rounds does not fit in
them: R17 gives the register 16 bits, a run may have more rounds (R144), and no rule states what the register then
shows. Applied to the counter `State.free`. -/
opaque freeRound : Nat → BitVec 16

end Config

/-- A field element: an integer in `[0, P)` (R8). A register or a table entry of this type cannot hold a value at or
above `P` (R11, R41, R42). -/
abbrev Fe := Fin Config.P

end Sys2Proof
end

