-- ==== Sys2Proof/Syntax.lean ====
section
/-! DEFINITION. The instruction set, whole: one constructor for each row of the opcode table, the four micro-operations
of 30_encoding.md R63 and the seven commands of R67, with exactly the operands that the row leaves free. -/

namespace Sys2Proof

/-- A field register number, `f0` to `f15` (R11, R62). -/
abbrev Reg := Fin 16

/-- A bank number (R6 row NBANK, R8). -/
abbrev BankId := Fin 2

/-- The eleven rows of the opcode table. -/
inductive Instr
  /-- `FADD rd, rs1, rs2` (R84). -/
  | fadd (rd rs1 rs2 : Reg)
  /-- `FADDI rd, rs1, lit` (R85); the literal is the whole 256-bit field of the word. -/
  | faddi (rd rs1 : Reg) (lit : Word)
  /-- `FMUL rd, rs1, rs2` (R86). -/
  | fmul (rd rs1 rs2 : Reg)
  /-- `FMULI rd, rs1, lit` (R87). -/
  | fmuli (rd rs1 : Reg) (lit : Word)
  /-- `INIT k` (R143). -/
  | init (k : BankId)
  /-- `PERMUTE k, u, len` (R145); `u` is true for unrolled mode. -/
  | permute (k : BankId) (u : Bool) (len : BitVec 8)
  /-- `HASH2 u` (R147). -/
  | hash2 (u : Bool)
  /-- `HASH4 u` (R148). -/
  | hash4 (u : Bool)
  /-- `EXEC k` (R150). -/
  | execProg (k : BankId)
  /-- `GEN k` (R127). -/
  | gen (k : BankId)
  /-- `CLRERR` (R152). -/
  | clrerr
  deriving DecidableEq, Repr

end Sys2Proof
end

