-- ==== Sys2Proof/WellFormed.lean ====
section
/-! DEFINITION. Which terms of `Instr` some word encodes. Register numbers, bank numbers, the mode bit and the
declared length fit their fields by type; the one check left is the literal, which must be a field element
(30_encoding.md R62). -/

namespace Sys2Proof

/-- Some word decodes to the instruction: the literal of FADDI and FMULI is below `P` (R62, R63). -/
def Instr.wf : Instr → Bool
  | .fadd _ _ _ => true
  | .faddi _ _ lit => decide (lit.toNat < Config.P)
  | .fmul _ _ _ => true
  | .fmuli _ _ lit => decide (lit.toNat < Config.P)
  | .init _ => true
  | .permute _ _ _ => true
  | .hash2 _ => true
  | .hash4 _ => true
  | .execProg _ => true
  | .gen _ => true
  | .clrerr => true

end Sys2Proof
end

