-- ==== Sys2Proof/Decode.lean ====
section
/-! DEFINITION. The decoder, total on every word and every list of bytes, rejecting by name; after it the encoder,
written from the same tables (30_encoding.md R60 to R68; the byte order of a serialised image, 20_memory.md R50). -/

namespace Sys2Proof

/-- Why a word is no instruction. -/
inductive Reject
  /-- R65 tests 1 to 3: opcode, reserved bits, unused field; carries the control half. -/
  | illegalUop (ctl : BitVec 32)
  /-- R65 test 4: the literal is at or above `P`. -/
  | illegalLiteral (lit : Word)
  /-- R68: no row of R67 matches; carries the whole value. -/
  | illegalCommand (v : Word)
  deriving DecidableEq, Repr

/-- Why an image is no instruction. -/
inductive ImageReject
  /-- Neither the 36 bytes of a micro-op word nor the 4 bytes of a command word (R60). -/
  | badLength (n : Nat)
  | badWord (r : Reject)
  deriving DecidableEq, Repr

/-! ## Fields -/

/-- A 4-bit field as a register number (R62). -/
def regOf (b : BitVec 4) : Reg := ⟨b.toNat, b.isLt⟩

/-- A register number as a 4-bit field. -/
def regBits (r : Reg) : BitVec 4 := BitVec.ofNat 4 r.val

/-- The bank bit (R66, bit 8) as a bank number. -/
def bankOf (b : Bool) : BankId := if b then 1 else 0

/-- A bank number as its bit. -/
def bankBit (k : BankId) : Bool := decide (k = 1)

/-! ## Micro-operation words, format U (R61) -/

def uopOp (w : UopWord) : BitVec 8 := w.extractLsb' 280 8
def uopRd (w : UopWord) : Reg := regOf (w.extractLsb' 276 4)
def uopRs1 (w : UopWord) : Reg := regOf (w.extractLsb' 272 4)
def uopRs2Bits (w : UopWord) : BitVec 4 := w.extractLsb' 268 4
def uopRs2 (w : UopWord) : Reg := regOf (uopRs2Bits w)
def uopRes (w : UopWord) : BitVec 12 := w.extractLsb' 256 12
/-- The literal half. -/
def uopLit (w : UopWord) : Word := w.extractLsb' 0 256
/-- The control half. -/
def uopCtl (w : UopWord) : BitVec 32 := w.extractLsb' 256 32

/-- Tests 1 to 4 of the decode order R65, in that order; tests 5 and 6 (valid bits) belong to the operand reads of
the instruction's meaning. -/
def decodeUop (w : UopWord) : Except Reject Instr :=
  let op := uopOp w
  if op ≠ 0x01 ∧ op ≠ 0x02 ∧ op ≠ 0x03 ∧ op ≠ 0x04 then .error (.illegalUop (uopCtl w))
  else if uopRes w ≠ 0 then .error (.illegalUop (uopCtl w))
  else if (op = 0x01 ∨ op = 0x03) ∧ uopLit w ≠ 0 then .error (.illegalUop (uopCtl w))
  else if (op = 0x02 ∨ op = 0x04) ∧ uopRs2Bits w ≠ 0 then .error (.illegalUop (uopCtl w))
  else if (op = 0x02 ∨ op = 0x04) ∧ Config.P ≤ (uopLit w).toNat then .error (.illegalLiteral (uopLit w))
  else if op = 0x01 then .ok (.fadd (uopRd w) (uopRs1 w) (uopRs2 w))
  else if op = 0x02 then .ok (.faddi (uopRd w) (uopRs1 w) (uopLit w))
  else if op = 0x03 then .ok (.fmul (uopRd w) (uopRs1 w) (uopRs2 w))
  else .ok (.fmuli (uopRd w) (uopRs1 w) (uopLit w))

/-! ## Command words, format C (R66) -/

def cmdLen (w : CmdWord) : BitVec 8 := w.extractLsb' 16 8
def cmdU (w : CmdWord) : Bool := w.getLsbD 9
def cmdK (w : CmdWord) : BankId := bankOf (w.getLsbD 8)

/-- The rows of R67: `(word AND mask) = match`. -/
def decodeCmdWord (w : CmdWord) : Option Instr :=
  if w &&& 0xFFFFFEFF = 0x00000001 then some (.init (cmdK w))
  else if w &&& 0xFF00FCFF = 0x00000002 then some (.permute (cmdK w) (cmdU w) (cmdLen w))
  else if w &&& 0xFFFFFDFF = 0x00000003 then some (.hash2 (cmdU w))
  else if w &&& 0xFFFFFDFF = 0x00000104 then some (.hash4 (cmdU w))
  else if w &&& 0xFFFFFEFF = 0x00000005 then some (.execProg (cmdK w))
  else if w &&& 0xFFFFFEFF = 0x00000006 then some (.gen (cmdK w))
  else if w &&& 0xFFFFFFFF = 0x00000007 then some .clrerr
  else none

/-- The command that a value written to CSR `CMD` issues: its low 32 bits, a value of 2^32 or more being illegal
(R66, R68). -/
def decodeCommand (v : Word) : Except Reject Instr :=
  if 2 ^ 32 ≤ v.toNat then .error (.illegalCommand v)
  else match decodeCmdWord (v.setWidth 32) with
    | some i => .ok i
    | none => .error (.illegalCommand v)

/-! ## Serialised images (R50: big-endian) -/

/-- The `n` bytes of the number `w`, most significant byte first. -/
def bytesBE (n w : Nat) : List Byte :=
  (List.range n).map fun i => BitVec.ofNat 8 (w >>> (8 * (n - 1 - i)))

/-- The number that a list of bytes spells, most significant byte first. -/
def natOfBytesBE (bs : List Byte) : Nat := bs.foldl (fun acc b => 256 * acc + b.toNat) 0

/-- The instruction an image spells: 36 bytes are a micro-op word, 4 bytes a command word, and no other length exists
(R60). -/
def decodeBytes (bs : List Byte) : Except ImageReject Instr :=
  if bs.length = 36 then (decodeUop (BitVec.ofNat 288 (natOfBytesBE bs))).mapError .badWord
  else if bs.length = 4 then (decodeCommand (BitVec.ofNat 256 (natOfBytesBE bs))).mapError .badWord
  else .error (.badLength bs.length)

/-- The instruction that the decoder reads from the bits `w`, numbered as the opcode table numbers them: the word
is laid out as the hardware serialises it (R50), bits above `nbits` being 0 in `w`, and given to `decodeBytes`. A row of
the table has 32 bits (a command) or 288 (a micro-operation). -/
def decodeTableWord (nbits w : Nat) : Option Instr :=
  match decodeBytes (bytesBE (if nbits ≤ 32 then 4 else 36) w) with
  | .ok i => some i
  | .error _ => none

/-! ## The encoder -/

/-- Format U: `op ‖ rd ‖ rs1 ‖ rs2 ‖ res ‖ lit` with `res = 0` (R61). -/
def formatU (op : BitVec 8) (rd rs1 : Reg) (rs2 : BitVec 4) (lit : Word) : UopWord :=
  op ++ (regBits rd ++ (regBits rs1 ++ (rs2 ++ (0#12 ++ lit))))

/-- Format C: `res1 ‖ len ‖ res0 ‖ u ‖ k ‖ cop` with `res1 = res0 = 0` (R66). -/
def formatC (len : BitVec 8) (u : Bool) (k : BankId) (cop : BitVec 8) : CmdWord :=
  0#8 ++ (len ++ (0#6 ++ (BitVec.ofBool u ++ (BitVec.ofBool (bankBit k) ++ cop))))

/-- An encoded object: a micro-op word or a command word (R60). -/
inductive Encoded
  | uop (w : UopWord)
  | cmd (w : CmdWord)
  deriving DecidableEq, Repr

/-- The word of an instruction (R63, R67). -/
def encode : Instr → Encoded
  | .fadd rd rs1 rs2 => .uop (formatU 0x01 rd rs1 (regBits rs2) 0)
  | .faddi rd rs1 lit => .uop (formatU 0x02 rd rs1 0 lit)
  | .fmul rd rs1 rs2 => .uop (formatU 0x03 rd rs1 (regBits rs2) 0)
  | .fmuli rd rs1 lit => .uop (formatU 0x04 rd rs1 0 lit)
  | .init k => .cmd (formatC 0 false k 0x01)
  | .permute k u len => .cmd (formatC len u k 0x02)
  | .hash2 u => .cmd (formatC 0 u 0 0x03)
  | .hash4 u => .cmd (formatC 0 u 1 0x04)
  | .execProg k => .cmd (formatC 0 false k 0x05)
  | .gen k => .cmd (formatC 0 false k 0x06)
  | .clrerr => .cmd (formatC 0 false 0 0x07)

/-- The decoder on an encoded object. -/
def decodeEncoded : Encoded → Except Reject Instr
  | .uop w => decodeUop w
  | .cmd w => decodeCommand (w.setWidth 256)

/-- The bytes of an encoded object (R50): 36 for a micro-op word, opcode first; 4 for a command word. -/
def Encoded.image : Encoded → List Byte
  | .uop w => bytesBE 36 w.toNat
  | .cmd w => bytesBE 4 w.toNat

/-- The micro-op word of an instruction of a template (R70); no template holds a command. -/
def encodeUop (i : Instr) : Option UopWord :=
  match encode i with
  | .uop w => some w
  | .cmd _ => none

end Sys2Proof
end

