-- ==== Sys2Proof/Machine/State.lean ====
section
/-! DEFINITION. The state of one core: the list of 10_state.md R10, the parameters of R6, and the model's own fields
for the host (the transactions it has yet to perform, the word it last received). All of it is plain data. The
types of the recorded faults (60_exceptions.md R170, R172) and of the host transactions (20_memory.md R40) stand here
too. -/

namespace Sys2Proof

namespace Machine

/-! ## Stops of the model -/

/-- Why a step stops. No reachable state of the core stops: a fault of the spec is a recorded one and gives a next
state (`raiseFault`). -/
inductive Fault
  /-- Raised by the loop sequencer's step when the engine is busy in loop mode with `PHASE = IDLE`, which R110 says is
  not reachable, or with a configured width `T[k]` that is not the bank's (INIT refuses that, R144). The spec gives such
  a state no step. Safe: the machine stops and nothing can be proved of what follows. -/
  | sequencerNotReachable
  deriving DecidableEq, Repr

/-- Why a step refuses. -/
inductive Refusal
  /-- Raised by an arm of `exec` that has no meaning yet; no arm answers it. Safe. -/
  | notModelled (mnemonic : String)
  deriving DecidableEq, Repr

/-! ## Recorded faults -/

/-- The reasons of `ConfigError`, in the order of their numbers 1 to 8 (R172). -/
inductive Reason
  | badWidth
  | oddFullRounds
  | rcLength
  | mdsShape
  | entryRange
  | progLength
  | progCapacity
  | regRange
  deriving DecidableEq, Repr

/-- The nine faults of R170 with what each records. -/
inductive Cause
  /-- Code 1 (R171); the value written. -/
  | invalidFieldElement (v : Word)
  /-- Code 2 (R172); reason, bank, the matrix store (reason 5 only), index. -/
  | configError (r : Reason) (k : BankId) (mdsTable : Bool) (index : BitVec 32)
  /-- Code 3 (R173); the length field of the command. -/
  | invalidArity (len : BitVec 8)
  /-- Code 4 (R174); the value written to `CMD`. -/
  | illegalCommand (v : Word)
  /-- Code 5 (R175); the control half of the word. -/
  | illegalUop (ctl : BitVec 32)
  /-- Code 6 (R176); the literal half of the word. -/
  | illegalLiteral (lit : Word)
  /-- Code 7 (R177); 0 to 15 `F[i]`, 16 to 19 `IN[i-16]`, 20 `DIGEST`. -/
  | uninitRead (index : Nat)
  /-- Code 8 (R178); a CSR number or a bus address. -/
  | badIndex (address : Nat)
  /-- Code 9 (R179); the CSR number. -/
  | lockedWrite (csr : BitVec 8)
  deriving DecidableEq, Repr

/-- Which kind of step raises: R180 treats an engine step and any other step differently. -/
inductive Origin
  | engine
  | host
  deriving DecidableEq, Repr

/-! ## The host port -/

/-- The three stores of a bank, as `TabRead` names them (R48). -/
inductive Space
  | rcs
  | mdss
  | pms
  deriving DecidableEq, Repr

/-- The transactions of R40, and the two accesses of the bus form of the port (R49). -/
inductive HostTxn
  | reset
  | csrRead (n : BitVec 8)
  | csrWrite (n : BitVec 8) (v : Word)
  | fRead (i : Reg)
  | fWrite (i : Reg) (v : Word)
  | tabRead (sp : Space) (k : BankId) (idx : Nat)
  | busRead (a : BitVec 32)
  | busWrite (a : BitVec 32) (v : Word)
  deriving DecidableEq, Repr

/-- A transaction the host has yet to perform. While the engine is busy the host lets `delay` engine steps pass
before it presents the transaction, so that every order of host and engine steps that R54 allows is some
list of these (log entry 4). -/
structure Pending where
  delay : Nat
  txn : HostTxn
  deriving DecidableEq, Repr

/-- What a read transaction returns (R40, R48): a 256-bit word, or the 288-bit word of `TabRead(PMS)`. -/
inductive Reply
  | word (v : Word)
  | uop (w : UopWord)
  deriving DecidableEq, Repr

/-- A bank's writable configuration registers and the rest of its CSR block (R25), by offset from the bank's base. -/
inductive BankReg
  | t
  | rf
  | rp
  | alpha
  | rclen
  | mdsrows
  | mdscols
  | mdslen
  | plen
  | bstat
  | rcpush
  | mdspush
  | pmpush
  deriving DecidableEq, Repr

/-- The control and status registers of R25. -/
inductive Csr
  | prime
  | status
  | cmd
  | ecause
  | epc
  | einfo
  | oorpol
  | upc
  | rccnt
  | digest
  | seq
  | pmlit
  | inp (i : Fin 4)
  | bank (k : BankId) (r : BankReg)
  deriving DecidableEq, Repr

/-- What a bus address selects (R49). -/
inductive BusTarget
  | csr (n : BitVec 8)
  | freg (i : Reg)
  | rcs (k : BankId) (idx : Nat)
  | mdss (k : BankId) (idx : Nat)
  | pmsCtl (k : BankId) (idx : Nat)
  | pmsLit (k : BankId) (idx : Nat)
  | unmapped
  deriving DecidableEq, Repr

/-! ## The state -/

/-- The step the loop sequencer performs next (R17). -/
inductive Phase
  | idle
  | arc
  | sbox
  | mix
  deriving DecidableEq, Repr

/-- The three stores of a bank (R41 to R43). A store only grows, in index order, or is replaced whole, so the list of
its defined entries is its canonical form, and `RCLEN`, `MDSLEN`, `PLEN` are the three lengths. -/
structure Memory where
  rcs : List Fe
  mdss : List Fe
  pms : List UopWord
  deriving DecidableEq, Repr

/-- One bank: configuration registers (R23), lifecycle bits (R24), stores. -/
structure Bank where
  t : BitVec 16
  rf : BitVec 16
  rp : BitVec 16
  mdsRows : BitVec 16
  mdsCols : BitVec 16
  lock : Bool
  uvalid : Bool
  mem : Memory
  deriving DecidableEq, Repr

/-- The state of R10, then the parameters, then the model's own fields. -/
structure State where
  /-- `F[0..15]` (R11). -/
  f : Vector Fe 16
  /-- `VF[0..15]` (R13). -/
  vf : BitVec 16
  /-- `IN[0..3]` (R18). -/
  inp : Vector Fe 4
  /-- `VIN[0..3]` (R18). -/
  vin : BitVec 4
  /-- `DIGEST` (R19). -/
  digest : Fe
  /-- `VDIG` (R19). -/
  vdig : Bool
  /-- The micro-program counter (R14). -/
  upc : BitVec 32
  /-- `BUSY` (R15). -/
  busy : Bool
  /-- `DONE` (R15). -/
  done : Bool
  /-- `KSEL` (R16). -/
  ksel : BankId
  /-- `UMODE` (R16). -/
  umode : Bool
  /-- `HASHOP` (R16). -/
  hashop : Bool
  /-- The number of rounds the sequencer has completed, which R17 makes `ROUND` and R110 counts as an integer `r` up to
  `R` (R8). The 16 bits that the host reads of it are `roundRegister` (log entry 3). -/
  round : Nat
  /-- `PHASE` (R17). -/
  phase : Phase
  /-- `RCCNT` (R20). -/
  rccnt : BitVec 32
  /-- `ECAUSE` (R21). -/
  ecause : BitVec 8
  /-- `EPC` (R21). -/
  epc : BitVec 32
  /-- `EINFO` (R21). -/
  einfo : Word
  /-- `PMLIT` (R22). -/
  pmlit : Word
  /-- Bank 0 (R23, R24, R41 to R43). -/
  bank0 : Bank
  /-- Bank 1. -/
  bank1 : Bank
  /-- The parameters of R6 that the spec leaves open; no step changes them. -/
  params : Config.Params
  /-- MODEL'S OWN: what the host has yet to perform, in the order it means to. -/
  pending : List Pending
  /-- MODEL'S OWN: what the last read transaction returned. -/
  reply : Option Reply
  /-- MODEL'S OWN: how many free values have been drawn (log entry 3). -/
  free : Nat
  deriving DecidableEq, Repr

/-! ## Reset -/

/-- The field element 0. -/
def feZero : Fe := ⟨0, Config.P_pos⟩

/-- A bank after reset (R200): every register and length 0, unlocked. -/
def Bank.reset : Bank :=
  { t := 0, rf := 0, rp := 0, mdsRows := 0, mdsCols := 0, lock := false, uvalid := false,
    mem := { rcs := [], mdss := [], pms := [] } }

/-- The machine after power-up, which is the state after `Reset` (R29, R200). `F`, `IN` and `DIGEST` hold values the
spec leaves unspecified and lets nobody read, the valid bits being 0; the model names 0 (DESIGN CHOICE, log
entry 5). -/
def State.reset : State :=
  { f := Vector.replicate 16 feZero, vf := 0, inp := Vector.replicate 4 feZero, vin := 0,
    digest := feZero, vdig := false, upc := 0, busy := false, done := false, ksel := 0,
    umode := false, hashop := false, round := 0, phase := .idle, rccnt := 0,
    ecause := 0, epc := 0, einfo := 0, pmlit := 0, bank0 := Bank.reset, bank1 := Bank.reset,
    params := Config.Params.standard, pending := [], reply := none, free := 0 }

end Machine

end Sys2Proof
end

