-- ==== Sys2Proof/Machine/Ops.lean ====
section
/-! DEFINITION. The named operations over registers, stores and the fault record that every meaning goes through, and
taking a fault (60_exceptions.md R180) with its acknowledgement (43_host_commands.md R152) beside it. -/

namespace Sys2Proof

namespace Machine

/-! ## Field elements and words -/

/-- A field element on the 256-bit port, zero-extended (R11). -/
def feWord (x : Fe) : Word := BitVec.ofNat 256 x.val

/-! ## Field registers -/

/-- `VF[i]` (R13). -/
def validF (i : Nat) (s : State) : Bool := s.vf.getLsbD i

/-- `VIN[i]` (R18). -/
def validIn (i : Nat) (s : State) : Bool := s.vin.getLsbD i

/-- `F[i] <- v`: writes the value and sets `VF[i]` (R8, R13). -/
def writeF (i : Reg) (v : Fe) (s : State) : State :=
  { s with f := s.f.set i.val v, vf := s.vf ||| BitVec.twoPow 16 i.val }

/-- `IN[i] <- v`: writes the value and sets `VIN[i]` (R18, R142). -/
def writeIn (i : Fin 4) (v : Fe) (s : State) : State :=
  { s with inp := s.inp.set i.val v, vin := s.vin ||| BitVec.twoPow 4 i.val }

/-- `upc <- upc + 1` (R14). -/
def advance (s : State) : State := { s with upc := s.upc + 1 }

/-- `RCCNT <- RCCNT + 1`, modulo 2^32 (R20, R189). -/
def countConstant (s : State) : State := { s with rccnt := s.rccnt + 1 }

/-! ## Banks -/

/-- Bank `k`. -/
def bankAt (k : BankId) (s : State) : Bank := if k = 0 then s.bank0 else s.bank1

/-- Replaces bank `k`. -/
def setBank (k : BankId) (b : Bank) (s : State) : State :=
  if k = 0 then { s with bank0 := b } else { s with bank1 := b }

/-- The width that the bank number fixes: 3 for bank 0, 5 for bank 1 (R6, R144 reason 1). -/
def widthOf (k : BankId) : Nat := if k = 0 then 3 else 5

/-- `T[k]` as a number. -/
def Bank.width (b : Bank) : Nat := b.t.toNat

/-- `R = RF[k] + RP[k]` (R8). -/
def Bank.rounds (b : Bank) : Nat := b.rf.toNat + b.rp.toNat

/-- `NOPS(k) = 2*t*t*R + 3*(t*RF[k] + RP[k])` (R123). -/
def Bank.nops (b : Bank) : Nat :=
  2 * b.width * b.width * b.rounds + 3 * (b.width * b.rf.toNat + b.rp.toNat)

/-! ## The stores -/

/-- `RC[k][i]` (R41). Used under a check that `i` is below the length: `cfgCheck` for GEN, `outOfStore` for the
sequencer. -/
def Bank.rc (b : Bank) (i : Nat) : Fe := b.mem.rcs.getD i feZero

/-- `MDS[k][i][j]`, the entry at linear index `i*MDSCOLS[k] + j` (R8, R42). Used under the same checks. -/
def Bank.mdsIndex (b : Bank) (i j : Nat) : Nat := i * b.mdsCols.toNat + j
def Bank.mds (b : Bank) (i j : Nat) : Fe := b.mem.mdss.getD (b.mdsIndex i j) feZero

/-- Appends an entry to the round-constant store (R44). -/
def Memory.pushRc (v : Fe) (m : Memory) : Memory := { m with rcs := m.rcs ++ [v] }

/-- Appends an entry to the matrix store (R45). -/
def Memory.pushMds (v : Fe) (m : Memory) : Memory := { m with mdss := m.mdss ++ [v] }

/-- Appends a word to the program store (R46). -/
def Memory.pushProg (w : UopWord) (m : Memory) : Memory := { m with pms := m.pms ++ [w] }

/-- Replaces the whole program (R127). -/
def Memory.setProg (p : List UopWord) (m : Memory) : Memory := { m with pms := p }

/-- The stores keep within their capacities (R41 to R43). Entries are below `P` by their type. -/
abbrev Memory.wf (p : Config.Params) (m : Memory) : Prop :=
  m.rcs.length ≤ p.rcCap ∧ m.mdss.length ≤ p.mdsCap ∧ m.pms.length ≤ p.pmCap

/-- The bus address of a store's entry (R49): `B(k)` is `0x0100_0000 * (k + 1)`. -/
def busBase (k : BankId) : Nat := 0x01000000 * (k.val + 1)
def tabAddress : Space → BankId → Nat → Nat
  | .rcs, k, idx => busBase k + idx
  | .mdss, k, idx => busBase k + 0x400000 + idx
  | .pms, k, idx => busBase k + 0x800000 + 2 * idx

/-- The fault of the first of the indices that is at or beyond the store's length, if one is (`MemRead`, R8, R48). -/
def outOfStore (sp : Space) (k : BankId) (len : Nat) (idxs : List Nat) : Option Cause :=
  (idxs.find? fun i => decide (len ≤ i)).map fun i => .badIndex (tabAddress sp k i)

/-! ## The fault record -/

/-- The number of a `ConfigError` reason (R172). -/
def reasonCode : Reason → BitVec 8
  | .badWidth => 1
  | .oddFullRounds => 2
  | .rcLength => 3
  | .mdsShape => 4
  | .entryRange => 5
  | .progLength => 6
  | .progCapacity => 7
  | .regRange => 8

/-- `ECAUSE`'s code (R170). -/
def causeCode : Cause → BitVec 8
  | .invalidFieldElement _ => 1
  | .configError _ _ _ _ => 2
  | .invalidArity _ => 3
  | .illegalCommand _ => 4
  | .illegalUop _ => 5
  | .illegalLiteral _ => 6
  | .uninitRead _ => 7
  | .badIndex _ => 8
  | .lockedWrite _ => 9

/-- `EINFO`'s word (R170; the reason word of R172: reason 7:0, bank 8, table 9, index 47:16, the rest 0). -/
def causeInfo : Cause → Word
  | .invalidFieldElement v => v
  | .configError r k mdsTable index =>
      0#208 ++ (index ++ (0#6 ++ (BitVec.ofBool mdsTable ++ (BitVec.ofBool (bankBit k) ++ reasonCode r))))
  | .invalidArity len => len.setWidth 256
  | .illegalCommand v => v
  | .illegalUop ctl => ctl.setWidth 256
  | .illegalLiteral lit => lit
  | .uninitRead index => BitVec.ofNat 256 index
  | .badIndex address => BitVec.ofNat 256 address
  | .lockedWrite csr => csr.setWidth 256

/-- `FAULT`: a fault is recorded (R15). -/
def faulted (s : State) : Bool := decide (s.ecause ≠ 0)

/-- Writes the record, unless one is there: the record keeps the first fault (R21, R181, R185). -/
def recordFault (c : Cause) (pc : BitVec 32) (s : State) : State :=
  if faulted s then s else { s with ecause := causeCode c, epc := pc, einfo := causeInfo c }

/-- `raise X(info)` (R180). -/
def raiseFault (o : Origin) (c : Cause) (s : State) : State :=
  match o with
  | .engine => { recordFault c s.upc s with busy := false }
  | .host => recordFault c 0 s

/-- The acknowledgement: `ECAUSE <- 0; EPC <- 0; EINFO <- 0`, and nothing else (R152, R182). -/
def clearRecord (s : State) : State := { s with ecause := 0, epc := 0, einfo := 0 }

/-- What a step answers: its effect, or the fault it raises and no other effect (R180, R184). -/
def finish (o : Origin) (s : State) : Except Cause State → Host.Outcome State Fault Refusal
  | .ok s' => .next s'
  | .error c => .next (raiseFault o c s)

/-- The fault a rejected word raises (R65, R68). -/
def rejectCause : Reject → Cause
  | .illegalUop ctl => .illegalUop ctl
  | .illegalLiteral lit => .illegalLiteral lit
  | .illegalCommand v => .illegalCommand v

/-! ## Starting and completing a run -/

/-- `Start(k, u, hop)` (R146). -/
def startRun (k : BankId) (u hop : Bool) (s : State) : State :=
  { s with busy := true, done := false, vdig := false, ksel := k, umode := u, hashop := hop,
           upc := 0, rccnt := 0, round := 0, phase := if u then .idle else .arc }

/-- The completion step (R114). -/
def completeRun (s : State) : State :=
  { s with digest := if s.hashop then s.f[0] else s.digest, vdig := s.hashop || s.vdig,
           busy := false, done := true, phase := .idle }

/-- `ROUND <- r + 1` (R110): one more round is completed. Where the number leaves the 16 bits of the register, a free value
is drawn for what they show (log entry 3). -/
def nextRound (s : State) : State :=
  { s with round := s.round + 1, free := if s.round + 1 < 2 ^ 16 then s.free else s.free + 1 }

/-- The 16 bits of the register `ROUND` (R17): the number of completed rounds where they hold it, else the free value last
drawn (log entry 3). -/
def roundRegister (s : State) : BitVec 16 :=
  if s.round < 2 ^ 16 then BitVec.ofNat 16 s.round else Config.freeRound s.free

/-- The effect of the transaction `Reset` on the state of R10 (R200). `F`, `IN`, `DIGEST` are not written. The stores
become empty: what stands beyond a length can be read by nobody (R48). -/
def resetCore (s : State) : State :=
  { s with vf := 0, vin := 0, vdig := false, upc := 0, rccnt := 0, round := 0, phase := .idle,
           busy := false, done := false, ksel := 0, umode := false, hashop := false,
           ecause := 0, epc := 0, einfo := 0, pmlit := 0, bank0 := Bank.reset, bank1 := Bank.reset }

end Machine

end Sys2Proof
end

