-- ==== Sys2Proof/Machine/Operands.lean ====
section
/-! DEFINITION. Every operand form: a field register, an input register and the digest through their valid bits
(10_state.md R13), a literal through its range check (30_encoding.md R62), a host integer through the range policy
(43_host_commands.md R141), a table entry through the check of a push (20_memory.md R44). -/

namespace Sys2Proof

namespace Machine

/-- A read of `F[i]`, or `UninitRead(i)` (R8, R13). -/
def readF (i : Reg) (s : State) : Except Cause Fe :=
  if validF i.val s then .ok s.f[i.val] else .error (.uninitRead i.val)

/-- A read of `IN[i]`, or `UninitRead(16 + i)` (R18). -/
def readIn (i : Fin 4) (s : State) : Except Cause Fe :=
  if validIn i.val s then .ok s.inp[i.val] else .error (.uninitRead (16 + i.val))

/-- A read of `DIGEST`, or `UninitRead(20)` (R19). -/
def readDigest (s : State) : Except Cause Fe :=
  if s.vdig then .ok s.digest else .error (.uninitRead 20)

/-- The literal operand of a micro-operation: never reduced (R62, R64). -/
def literal (lit : Word) : Except Cause Fe :=
  if h : lit.toNat < Config.P then .ok ⟨lit.toNat, h⟩ else .error (.illegalLiteral lit)

/-- `v mod P`. -/
def reduceWord (v : Word) : Fe := ⟨v.toNat % Config.P, Nat.mod_lt _ Config.P_pos⟩

/-- `Canon(v)` (R141). -/
def canon (pol : Config.OorPolicy) (v : Word) : Except Cause Fe :=
  if h : v.toNat < Config.P then .ok ⟨v.toNat, h⟩
  else match pol with
    | .reduce => .ok (reduceWord v)
    | .reject => .error (.invalidFieldElement v)

/-- A value pushed to a table of bank `k`: never reduced (R44, R45); `index` is the store's length. -/
def tableEntry (k : BankId) (mdsTable : Bool) (index : Nat) (v : Word) : Except Cause Fe :=
  if h : v.toNat < Config.P then .ok ⟨v.toNat, h⟩
  else .error (.configError .entryRange k mdsTable (BitVec.ofNat 32 index))

/-- A value written to a 16-bit configuration register of bank `k` (R23). -/
def configValue (k : BankId) (n : BitVec 8) (v : Word) : Except Cause (BitVec 16) :=
  if v.toNat < 2 ^ 16 then .ok (v.setWidth 16)
  else .error (.configError .regRange k false (n.setWidth 32))

/-- The first `i` below `n` with `VF[i] = 0`, as PERMUTE's acceptance looks for it (R145). -/
def firstInvalidF (n : Nat) (s : State) : Option Nat :=
  (List.range n).find? fun i => !validF i s

/-- The first `i` below `n` with `VIN[i] = 0`, as the hash commands look for it (R147, R148). -/
def firstInvalidIn (n : Nat) (s : State) : Option Nat :=
  (List.range n).find? fun i => !validIn i s

end Machine

end Sys2Proof
end

