-- ==== Sys2Proof/Machine/Templates.lean ====
section
/-! DEFINITION. The round schedule and the templates of 41_permutation_engine.md section 2 as lists of micro-operations,
the list `Round(k, r)` (R108), the generator's list `Gen(k)` (42_unrolled_generator.md R121) and the
configuration check they are defined under (43_host_commands.md R144). -/

namespace Sys2Proof

namespace Machine

/-! ## Register roles (R12) -/

/-- `st_i = f(i)`, `w_i = f(5 + i)`, for `i < 5`. -/
def stReg (i : Nat) : Reg := Fin.ofNat 16 i
def wReg (i : Nat) : Reg := Fin.ofNat 16 (5 + i)
def x2Reg : Reg := 10
def x4Reg : Reg := 11
def prReg : Reg := 12

/-! ## Templates -/

/-- `ARC.t c_0 .. c_(t-1)` (R104). -/
def arcTemplate (t : Nat) (c : Nat → Fe) : List Instr :=
  (List.range t).map fun i => .faddi (wReg i) (stReg i) (feWord (c i))

/-- `SBOX w_i` (R105). -/
def sboxTemplate (i : Nat) : List Instr :=
  [.fmul x2Reg (wReg i) (wReg i), .fmul x4Reg x2Reg x2Reg, .fmul (wReg i) x4Reg (wReg i)]

/-- `SBOXF.t` (R106). -/
def sboxFullTemplate (t : Nat) : List Instr := (List.range t).flatMap sboxTemplate

/-- `SBOXP` (R106). -/
def sboxPartialTemplate : List Instr := sboxTemplate 0

/-- Row `i` of `MIX.t` (R107): the accumulator is `st_i` and starts from the first product. -/
def mixRow (t : Nat) (m : Nat → Nat → Fe) (i : Nat) : List Instr :=
  .fmuli (stReg i) (wReg 0) (feWord (m i 0)) ::
    (List.range (t - 1)).flatMap fun j =>
      [.fmuli prReg (wReg (j + 1)) (feWord (m i (j + 1))), .fadd (stReg i) (stReg i) prReg]

/-- `MIX.t m_00 .. m_(t-1)(t-1)` (R107). -/
def mixTemplate (t : Nat) (m : Nat → Nat → Fe) : List Instr := (List.range t).flatMap (mixRow t m)

/-! ## The schedule -/

/-- `isfull(k, r)` with `h = RF[k] div 2` (R101). -/
def isFull (b : Bank) (r : Nat) : Bool :=
  decide (r < b.rf.toNat / 2) || decide (b.rf.toNat / 2 + b.rp.toNat ≤ r)

/-- The S-box step of round `r` (R106, R110). -/
def sboxStep (b : Bank) (r : Nat) : List Instr :=
  if isFull b r then sboxFullTemplate b.width else sboxPartialTemplate

/-- The constants of round `r`, `RC[k][r*t + i]` (R57, R104). -/
def roundConstant (b : Bank) (r i : Nat) : Fe := b.rc (r * b.width + i)

/-- `Round(k, r)` (R108). -/
def roundList (b : Bank) (r : Nat) : List Instr :=
  arcTemplate b.width (roundConstant b r) ++ (sboxStep b r ++ mixTemplate b.width b.mds)

/-- `Gen(k)` as micro-operations (R121). -/
def genList (b : Bank) : List Instr := (List.range b.rounds).flatMap (roundList b)

/-- `Gen(k)` as words (R121, R63). -/
def genWords (b : Bank) : List UopWord := (genList b).filterMap encodeUop

/-- The image of a program: each word as its 36 bytes, in order (R50, R128). -/
def programImage (p : List UopWord) : List Byte := p.flatMap fun w => bytesBE 36 w.toNat

/-- The image of a table: each entry as 32 bytes, in index order (R50). -/
def tableImage (l : List Fe) : List Byte := l.flatMap fun x => bytesBE 32 x.val

/-! ## The configuration check -/

/-- `CfgCheck(k)`: the first test that fails, or none (R144). -/
def cfgCheck (k : BankId) (b : Bank) : Option Reason :=
  if b.width ≠ widthOf k then some .badWidth
  else if b.rf.toNat % 2 ≠ 0 then some .oddFullRounds
  else if b.mem.rcs.length ≠ b.width * b.rounds then some .rcLength
  else if b.mdsRows.toNat ≠ b.width ∨ b.mdsCols.toNat ≠ b.width ∨ b.mem.mdss.length ≠ b.width * b.width then
    some .mdsShape
  else none

end Machine

end Sys2Proof
end

