-- ==== Sys2Proof/Machine/Commands.lean ====
section
/-! DEFINITION. The host commands INIT, PERMUTE, HASH2, HASH4, EXEC and CLRERR (43_host_commands.md). Each is step 4 of
R140, the command's own rule: that a write of `CMD` is held while the engine is busy and dropped while a fault is
recorded is the port's business (`issueCommand`). Where a rule raises `IllegalCommand(v)`, `v` is the value written,
which for a command that decoded is its one word, zero-extended. -/

namespace Sys2Proof

namespace Machine

/-! ## INIT -/

/-- R143. -/
def initEffect (k : BankId) (s : State) : Except Cause State :=
  let b := bankAt k s
  if b.lock then .error (.illegalCommand ((formatC 0 false k 0x01).setWidth 256))
  else match cfgCheck k b with
    | some r => .error (.configError r k false 0)
    | none =>
      if b.mem.pms.length ≠ 0 ∧ b.mem.pms.length ≠ b.nops then
        .error (.configError .progLength k false 0)
      else .ok (setBank k { b with lock := true, uvalid := decide (b.mem.pms.length = b.nops) } s)

/-- INIT as a step of the host (R143, R140). -/
def execInit (k : BankId) (s : State) : Host.Outcome State Fault Refusal :=
  finish .host s (initEffect k s)

/-! ## PERMUTE -/

/-- R145: lock, program, declared length, valid bits, in that order, then `Start(k, u, 0)`. -/
def permuteEffect (k : BankId) (u : Bool) (len : BitVec 8) (s : State) : Except Cause State :=
  let b := bankAt k s
  if !b.lock then .error (.illegalCommand ((formatC len u k 0x02).setWidth 256))
  else if u && !b.uvalid then .error (.illegalCommand ((formatC len u k 0x02).setWidth 256))
  else if len.toNat ≠ b.width then .error (.invalidArity len)
  else match firstInvalidF b.width s with
    | some i => .error (.uninitRead i)
    | none => .ok (startRun k u false s)

/-- PERMUTE as a step of the host (R145, R140). -/
def execPermute (k : BankId) (u : Bool) (len : BitVec 8) (s : State) : Host.Outcome State Fault Refusal :=
  finish .host s (permuteEffect k u len s)

/-! ## HASH2, HASH4 -/

/-- R147. -/
def hash2Effect (u : Bool) (s : State) : Except Cause State :=
  if !s.bank0.lock then .error (.illegalCommand ((formatC 0 u 0 0x03).setWidth 256))
  else if u && !s.bank0.uvalid then .error (.illegalCommand ((formatC 0 u 0 0x03).setWidth 256))
  else match firstInvalidIn 2 s with
    | some i => .error (.uninitRead (16 + i))
    | none => .ok (startRun 0 u true (writeF 2 s.inp[1] (writeF 1 s.inp[0] (writeF 0 feZero s))))

/-- HASH2 as a step of the host (R147, R140). -/
def execHash2 (u : Bool) (s : State) : Host.Outcome State Fault Refusal :=
  finish .host s (hash2Effect u s)

/-- R148. -/
def hash4Effect (u : Bool) (s : State) : Except Cause State :=
  if !s.bank1.lock then .error (.illegalCommand ((formatC 0 u 1 0x04).setWidth 256))
  else if u && !s.bank1.uvalid then .error (.illegalCommand ((formatC 0 u 1 0x04).setWidth 256))
  else match firstInvalidIn 4 s with
    | some i => .error (.uninitRead (16 + i))
    | none => .ok (startRun 1 u true
        (writeF 4 s.inp[3] (writeF 3 s.inp[2] (writeF 2 s.inp[1] (writeF 1 s.inp[0] (writeF 0 feZero s))))))

/-- HASH4 as a step of the host (R148, R140). -/
def execHash4 (u : Bool) (s : State) : Host.Outcome State Fault Refusal :=
  finish .host s (hash4Effect u s)

/-! ## EXEC, CLRERR -/

/-- R150: `Start(k, 1, 0)`, no check. -/
def execProgEffect (k : BankId) (s : State) : Except Cause State := .ok (startRun k true false s)

/-- EXEC as a step of the host (R150, R140). -/
def execExecProg (k : BankId) (s : State) : Host.Outcome State Fault Refusal :=
  finish .host s (execProgEffect k s)

/-- R152. -/
def clrerrEffect (s : State) : Except Cause State := .ok (clearRecord s)

/-- CLRERR as a step of the host (R152, R140). -/
def execClrerr (s : State) : Host.Outcome State Fault Refusal :=
  finish .host s (clrerrEffect s)

end Machine

end Sys2Proof
end

