-- ==== Sys2Proof/Machine/FieldAlu.lean ====
section
/-! DEFINITION. The field ALU (40_field_alu.md): the two functions and the meanings of the four micro-operations. The
effect of each is a value in `Except Cause State`, so that a template of the loop sequencer is the same effects in
a row inside one step. -/

namespace Sys2Proof

namespace Machine

/-- `add(a, b) = (a + b) mod P` on unbounded integers (R80, R82). -/
def feAdd (a b : Fe) : Fe := ⟨(a.val + b.val) % Config.P, Nat.mod_lt _ Config.P_pos⟩

/-- `mul(a, b) = (a * b) mod P` on unbounded integers (R81, R82). -/
def feMul (a b : Fe) : Fe := ⟨(a.val * b.val) % Config.P, Nat.mod_lt _ Config.P_pos⟩

/-- R84. -/
def faddEffect (rd rs1 rs2 : Reg) (s : State) : Except Cause State :=
  match readF rs1 s with
  | .error c => .error c
  | .ok a => match readF rs2 s with
    | .error c => .error c
    | .ok b => .ok (advance (writeF rd (feAdd a b) s))

/-- R85; the literal is checked before the register (R65). -/
def faddiEffect (rd rs1 : Reg) (lit : Word) (s : State) : Except Cause State :=
  match literal lit with
  | .error c => .error c
  | .ok b => match readF rs1 s with
    | .error c => .error c
    | .ok a => .ok (advance (countConstant (writeF rd (feAdd a b) s)))

/-- R86. -/
def fmulEffect (rd rs1 rs2 : Reg) (s : State) : Except Cause State :=
  match readF rs1 s with
  | .error c => .error c
  | .ok a => match readF rs2 s with
    | .error c => .error c
    | .ok b => .ok (advance (writeF rd (feMul a b) s))

/-- R87; the literal is checked before the register (R65). -/
def fmuliEffect (rd rs1 : Reg) (lit : Word) (s : State) : Except Cause State :=
  match literal lit with
  | .error c => .error c
  | .ok b => match readF rs1 s with
    | .error c => .error c
    | .ok a => .ok (advance (writeF rd (feMul a b) s))

/-- FADD as a step of the engine (R84, R88). -/
def execFadd (rd rs1 rs2 : Reg) (s : State) : Host.Outcome State Fault Refusal :=
  finish .engine s (faddEffect rd rs1 rs2 s)

/-- FADDI as a step of the engine (R85, R88). -/
def execFaddi (rd rs1 : Reg) (lit : Word) (s : State) : Host.Outcome State Fault Refusal :=
  finish .engine s (faddiEffect rd rs1 lit s)

/-- FMUL as a step of the engine (R86, R88). -/
def execFmul (rd rs1 rs2 : Reg) (s : State) : Host.Outcome State Fault Refusal :=
  finish .engine s (fmulEffect rd rs1 rs2 s)

/-- FMULI as a step of the engine (R87, R88). -/
def execFmuli (rd rs1 : Reg) (lit : Word) (s : State) : Host.Outcome State Fault Refusal :=
  finish .engine s (fmuliEffect rd rs1 lit s)

end Machine

end Sys2Proof
end

