-- ==== Sys2Proof/Machine/Generator.lean ====
section
/-! DEFINITION. The command GEN (42_unrolled_generator.md R127). -/

namespace Sys2Proof

namespace Machine

/-- R127: one atomic step; replaces the program of an unlocked, well-configured bank by `Gen(k)`. -/
def genEffect (k : BankId) (s : State) : Except Cause State :=
  let b := bankAt k s
  if b.lock then .error (.illegalCommand ((formatC 0 false k 0x06).setWidth 256))
  else match cfgCheck k b with
    | some r => .error (.configError r k false 0)
    | none =>
      if s.params.pmCap < b.nops then .error (.configError .progCapacity k false 0)
      else .ok (setBank k { b with mem := b.mem.setProg (genWords b) } s)

/-- GEN as a step of the host (R127, R140). -/
def execGen (k : BankId) (s : State) : Host.Outcome State Fault Refusal :=
  finish .host s (genEffect k s)

end Machine

end Sys2Proof
end

