-- ==== Sys2Proof/Machine/Dispatch.lean ====
section
/-! DEFINITION. The dispatch: one arm for each row of the opcode table, one direct call of its meaning. -/

namespace Sys2Proof

namespace Machine

/-- The meaning of an instruction at a state: the step of the engine that performs a micro-operation (R88), the step
of the host that performs a command's own rule (R140 step 4). -/
def exec (i : Instr) (s : State) : Host.Outcome State Fault Refusal :=
  match i with
  -- micro-operations, 40_field_alu.md
  | .fadd rd rs1 rs2 => Sys2Proof.Machine.execFadd rd rs1 rs2 s
  | .faddi rd rs1 lit => Sys2Proof.Machine.execFaddi rd rs1 lit s
  | .fmul rd rs1 rs2 => Sys2Proof.Machine.execFmul rd rs1 rs2 s
  | .fmuli rd rs1 lit => Sys2Proof.Machine.execFmuli rd rs1 lit s
  -- commands, 43_host_commands.md and 42_unrolled_generator.md
  | .init k => Sys2Proof.Machine.execInit k s
  | .permute k u len => Sys2Proof.Machine.execPermute k u len s
  | .hash2 u => Sys2Proof.Machine.execHash2 u s
  | .hash4 u => Sys2Proof.Machine.execHash4 u s
  | .execProg k => Sys2Proof.Machine.execExecProg k s
  | .gen k => Sys2Proof.Machine.execGen k s
  | .clrerr => Sys2Proof.Machine.execClrerr s

end Machine

end Sys2Proof
end

