-- ==== Sys2Proof/Machine/Engine.lean ====
section
/-! DEFINITION. The engine (41_permutation_engine.md section 3): the loop-mode step, the unrolled-mode step, and which of
them a busy engine takes. -/

namespace Sys2Proof

namespace Machine

/-! ## Templates as steps -/

/-- An instruction's effect, or the fault it raises: what `exec` answers, before `finish`. -/
def effect (i : Instr) (s : State) : Except Cause State :=
  match i with
  | .fadd rd rs1 rs2 => faddEffect rd rs1 rs2 s
  | .faddi rd rs1 lit => faddiEffect rd rs1 lit s
  | .fmul rd rs1 rs2 => fmulEffect rd rs1 rs2 s
  | .fmuli rd rs1 lit => fmuliEffect rd rs1 lit s
  | .init k => initEffect k s
  | .permute k u len => permuteEffect k u len s
  | .hash2 u => hash2Effect u s
  | .hash4 u => hash4Effect u s
  | .execProg k => execProgEffect k s
  | .gen k => genEffect k s
  | .clrerr => clrerrEffect s

/-- Executing a template: its micro-operations in order, each by its own rule (41_permutation_engine.md section 2). -/
def runList : List Instr → State → Except Cause State
  | [], s => .ok s
  | i :: is, s => match effect i s with
    | .error c => .error c
    | .ok s' => runList is s'

/-! ## Loop mode -/

/-- The ARC branch of R110: reads `RC[k][r*t + i]`, `i < t` (R57, R111), and executes `ARC.t`. -/
def arcStep (s : State) : Except Cause State :=
  let b := bankAt s.ksel s
  let r := s.round
  match outOfStore .rcs s.ksel b.mem.rcs.length ((List.range b.width).map fun i => r * b.width + i) with
  | some c => .error c
  | none => match runList (arcTemplate b.width (roundConstant b r)) s with
    | .error c => .error c
    | .ok s' => .ok { s' with phase := .sbox }

/-- The SBOX branch of R110. -/
def sboxStepEffect (s : State) : Except Cause State :=
  match runList (sboxStep (bankAt s.ksel s) s.round) s with
  | .error c => .error c
  | .ok s' => .ok { s' with phase := .mix }

/-- The MIX branch of R110: reads `MDS[k][i][j]` (R57, R111) and executes `MIX.t`. -/
def mixStep (s : State) : Except Cause State :=
  let b := bankAt s.ksel s
  match outOfStore .mdss s.ksel b.mem.mdss.length
      ((List.range b.width).flatMap fun i => (List.range b.width).map fun j => b.mdsIndex i j) with
  | some c => .error c
  | none => match runList (mixTemplate b.width b.mds) s with
    | .error c => .error c
    | .ok s' => .ok { nextRound s' with phase := .arc }

/-- The loop-mode step (R110). -/
def loopStep (s : State) : Host.Outcome State Fault Refusal :=
  let b := bankAt s.ksel s
  if s.round = b.rounds then .next (completeRun s)
  else if b.width ≠ widthOf s.ksel then .fault .sequencerNotReachable
  else match s.phase with
    | .idle => .fault .sequencerNotReachable
    | .arc => finish .engine s (arcStep s)
    | .sbox => finish .engine s (sboxStepEffect s)
    | .mix => finish .engine s (mixStep s)

/-! ## Unrolled mode -/

/-- The fetch of `PM[KSEL][upc]` (R14, R113). A fetch beyond the program, which no run makes (R116), is the refused
`MemRead` of R8. -/
def fetchUop (s : State) : Except Cause UopWord :=
  match (bankAt s.ksel s).mem.pms[s.upc.toNat]? with
  | some w => .ok w
  | none => .error (.badIndex (tabAddress .pms s.ksel s.upc.toNat))

/-- The unrolled-mode step (R113): decode by R65, then the micro-operation's own rule. -/
def unrolledStep (s : State) : Host.Outcome State Fault Refusal :=
  if s.upc.toNat = (bankAt s.ksel s).mem.pms.length then .next (completeRun s)
  else match fetchUop s with
    | .error c => finish .engine s (.error c)
    | .ok w => match decodeUop w with
      | .error r => finish .engine s (.error (rejectCause r))
      | .ok i => exec i s

/-- The step a busy engine takes (R109, R110, R113). -/
def engineStep (s : State) : Host.Outcome State Fault Refusal :=
  if s.umode then unrolledStep s else loopStep s

/-! ## Placing a word where the engine fetches -/

/-- A program with word `w` at index `i`. -/
def placeWord (i : Nat) (w : UopWord) (p : List UopWord) : List UopWord :=
  if i < p.length then p.set i w else p ++ (List.replicate (i - p.length) 0 ++ [w])

/-- The engine busy in unrolled mode with `w` at `PM[KSEL][upc]`, and no transaction of the host due before its step. -/
def placeUop (w : UopWord) (s : State) : State :=
  let b := bankAt s.ksel s
  let s' := setBank s.ksel { b with mem := b.mem.setProg (placeWord s.upc.toNat w b.mem.pms) } s
  { s' with busy := true, umode := true, pending := s.pending.map fun p => { p with delay := p.delay + 1 } }

end Machine

end Sys2Proof
end

