-- ==== Sys2Proof/Machine/Flags.lean ====
section
/-! DEFINITION. The flag words. The core has no arithmetic flags (10_state.md R15): no micro-operation computes one.
What it has is the status words that the host reads, each a plain copy of named state (R25, R26). -/

namespace Sys2Proof

namespace Machine

/-- `PHASE` as its two bits (R17). -/
def phaseBits : Phase → BitVec 2
  | .idle => 0
  | .arc => 1
  | .sbox => 2
  | .mix => 3

/-- Bits 9 to 0 of `STATUS` (R26). -/
def statusFlags (s : State) : BitVec 10 :=
  BitVec.ofBool s.umode ++ (BitVec.ofBool (bankBit s.ksel) ++ (BitVec.ofBool s.vdig ++
    (BitVec.ofBool s.bank1.uvalid ++ (BitVec.ofBool s.bank0.uvalid ++ (BitVec.ofBool s.bank1.lock ++
      (BitVec.ofBool s.bank0.lock ++ (BitVec.ofBool (faulted s) ++ (BitVec.ofBool s.done ++
        BitVec.ofBool s.busy))))))))

/-- `STATUS` (R26): `VIN` 35:32, `VF` 31:16, 15:10 zero, the flags below. -/
def statusWord (s : State) : Word :=
  (s.vin ++ (s.vf ++ (0#6 ++ statusFlags s)) : BitVec 36).setWidth 256

/-- `SEQ` (R25): `PHASE` 17:16, `ROUND` 15:0. -/
def seqWord (s : State) : Word := (phaseBits s.phase ++ roundRegister s : BitVec 18).setWidth 256

/-- `BSTAT` (R25): bit 0 `LOCK[k]`, bit 1 `UVALID[k]`. -/
def bstatWord (b : Bank) : Word := (BitVec.ofBool b.uvalid ++ BitVec.ofBool b.lock : BitVec 2).setWidth 256

/-- A length register, 32 bits (R25). -/
def lengthWord (n : Nat) : Word := (BitVec.ofNat 32 n).setWidth 256

/-- `OORPOL` (R25): 0 for `REDUCE`, 1 for `REJECT`. -/
def oorpolWord : Config.OorPolicy → Word
  | .reduce => 0
  | .reject => 1

end Machine

end Sys2Proof
end

