-- ==== Sys2Proof/Machine/HostPort.lean ====
section
/-! DEFINITION. The host port (20_memory.md): the CSR map (10_state.md R25), the transactions of R40 with the hold while
`BUSY = 1` and the drop while a fault is recorded (60_exceptions.md R181), the issue of a command (43_host_commands.md
R140), and the bus form of the port (R49). -/

namespace Sys2Proof

namespace Machine

/-! ## The CSR map (R25) -/

/-- A bank register by its offset from the bank's base. -/
def bankRegOf (n : BitVec 4) : Option BankReg :=
  match n.toNat with
  | 0x0 => some .t
  | 0x1 => some .rf
  | 0x2 => some .rp
  | 0x3 => some .alpha
  | 0x4 => some .rclen
  | 0x5 => some .mdsrows
  | 0x6 => some .mdscols
  | 0x7 => some .mdslen
  | 0x8 => some .plen
  | 0x9 => some .bstat
  | 0xA => some .rcpush
  | 0xB => some .mdspush
  | 0xC => some .pmpush
  | _ => none

/-- The register a CSR number names, if it names one. -/
def csrOf (n : BitVec 8) : Option Csr :=
  let low := n.extractLsb' 0 4
  match (n.extractLsb' 4 4).toNat with
  | 0 => match low.toNat with
    | 0x0 => some .prime
    | 0x1 => some .status
    | 0x2 => some .cmd
    | 0x3 => some .ecause
    | 0x4 => some .epc
    | 0x5 => some .einfo
    | 0x6 => some .oorpol
    | 0x7 => some .upc
    | 0x8 => some .rccnt
    | 0x9 => some .digest
    | 0xA => some .seq
    | 0xB => some .pmlit
    | _ => none
  | 1 => if h : low.toNat < 4 then some (.inp ⟨low.toNat, h⟩) else none
  | 2 => (bankRegOf low).map (.bank 0)
  | 3 => (bankRegOf low).map (.bank 1)
  | _ => none

/-- The status group, readable while the engine is busy (R40). -/
def statusGroup (n : BitVec 8) : Bool :=
  match csrOf n with
  | some .prime | some .status | some .ecause | some .epc | some .einfo | some .oorpol | some .upc
  | some .rccnt | some .seq => true
  | _ => false

/-! ## Reads -/

/-- A bank register as the host reads it (R25); a write-only one reads 0. -/
def bankRegRead (r : BankReg) (b : Bank) : Word :=
  match r with
  | .t => b.t.setWidth 256
  | .rf => b.rf.setWidth 256
  | .rp => b.rp.setWidth 256
  | .alpha => Config.alpha.setWidth 256
  | .rclen => lengthWord b.mem.rcs.length
  | .mdsrows => b.mdsRows.setWidth 256
  | .mdscols => b.mdsCols.setWidth 256
  | .mdslen => lengthWord b.mem.mdss.length
  | .plen => lengthWord b.mem.pms.length
  | .bstat => bstatWord b
  | .rcpush => 0
  | .mdspush => 0
  | .pmpush => 0

/-- A register as the host reads it (R25, R142). -/
def csrValue (c : Csr) (s : State) : Except Cause Word :=
  match c with
  | .prime => .ok (BitVec.ofNat 256 Config.P)
  | .status => .ok (statusWord s)
  | .cmd => .ok 0
  | .ecause => .ok (s.ecause.setWidth 256)
  | .epc => .ok (s.epc.setWidth 256)
  | .einfo => .ok s.einfo
  | .oorpol => .ok (oorpolWord s.params.oorPolicy)
  | .upc => .ok (s.upc.setWidth 256)
  | .rccnt => .ok (s.rccnt.setWidth 256)
  | .digest => (readDigest s).map feWord
  | .seq => .ok (seqWord s)
  | .pmlit => .ok s.pmlit
  | .inp i => (readIn i s).map feWord
  | .bank k r => .ok (bankRegRead r (bankAt k s))

/-- `CsrRead(n)` (R25, R40). -/
def csrRead (n : BitVec 8) (s : State) : Except Cause Word :=
  match csrOf n with
  | some c => csrValue c s
  | none => .error (.badIndex n.toNat)

/-- `FRead(i)` (R47). -/
def fRead (i : Reg) (s : State) : Except Cause Word := (readF i s).map feWord

/-- An entry of a store, or `BadIndex` with its bus address (R48). -/
def storeRead {α : Type} (l : List α) (address idx : Nat) : Except Cause α :=
  match l[idx]? with
  | some x => .ok x
  | none => .error (.badIndex address)

/-- `TabRead(space, k, idx)` (R48). -/
def tabRead (sp : Space) (k : BankId) (idx : Nat) (s : State) : Except Cause Reply :=
  let m := (bankAt k s).mem
  let a := tabAddress sp k idx
  match sp with
  | .rcs => (storeRead m.rcs a idx).map fun x => .word (feWord x)
  | .mdss => (storeRead m.mdss a idx).map fun x => .word (feWord x)
  | .pms => (storeRead m.pms a idx).map .uop

/-- What `TabRead` returns when it raises. -/
def tabZero : Space → Reply
  | .rcs => .word 0
  | .mdss => .word 0
  | .pms => .uop 0

/-- A read transaction: its word is returned; a refused read returns 0 and records the fault in the same step
(R52, R180), unless the record is occupied (R181). -/
def answerRead (zero : Reply) (r : Except Cause Reply) (s : State) : State :=
  match r with
  | .ok v => { s with reply := some v }
  | .error c => { raiseFault .host c s with reply := some zero }

/-! ## Writes -/

/-- A write of a configuration register: the lock, then the range (R23, R183). -/
def configWrite (k : BankId) (n : BitVec 8) (v : Word) (put : BitVec 16 → Bank → Bank) (s : State) :
    Except Cause State :=
  let b := bankAt k s
  if b.lock then .error (.lockedWrite n)
  else match configValue k n v with
    | .error c => .error c
    | .ok x => .ok (setBank k (put x b) s)

/-- R44. -/
def rcPush (k : BankId) (n : BitVec 8) (v : Word) (s : State) : Except Cause State :=
  let b := bankAt k s
  if b.lock then .error (.lockedWrite n)
  else match tableEntry k false b.mem.rcs.length v with
    | .error c => .error c
    | .ok x =>
      if s.params.rcCap ≤ b.mem.rcs.length then .error (.badIndex n.toNat)
      else .ok (setBank k { b with mem := b.mem.pushRc x } s)

/-- R45. -/
def mdsPush (k : BankId) (n : BitVec 8) (v : Word) (s : State) : Except Cause State :=
  let b := bankAt k s
  if b.lock then .error (.lockedWrite n)
  else match tableEntry k true b.mem.mdss.length v with
    | .error c => .error c
    | .ok x =>
      if s.params.mdsCap ≤ b.mem.mdss.length then .error (.badIndex n.toNat)
      else .ok (setBank k { b with mem := b.mem.pushMds x } s)

/-- R46: the 32 bits written are the control half, `PMLIT` the literal half. -/
def pmPush (k : BankId) (n : BitVec 8) (v : Word) (s : State) : Except Cause State :=
  let b := bankAt k s
  if b.lock then .error (.lockedWrite n)
  else if 2 ^ 32 ≤ v.toNat then .error (.badIndex n.toNat)
  else if s.params.pmCap ≤ b.mem.pms.length then .error (.badIndex n.toNat)
  else .ok (setBank k { b with mem := b.mem.pushProg (v.setWidth 32 ++ s.pmlit) } s)

/-- A write of a bank's register (R23, R25, R44 to R46). -/
def bankRegWrite (k : BankId) (r : BankReg) (n : BitVec 8) (v : Word) (s : State) : Except Cause State :=
  match r with
  | .t => configWrite k n v (fun x b => { b with t := x }) s
  | .rf => configWrite k n v (fun x b => { b with rf := x }) s
  | .rp => configWrite k n v (fun x b => { b with rp := x }) s
  | .mdsrows => configWrite k n v (fun x b => { b with mdsRows := x }) s
  | .mdscols => configWrite k n v (fun x b => { b with mdsCols := x }) s
  | .rcpush => rcPush k n v s
  | .mdspush => mdsPush k n v s
  | .pmpush => pmPush k n v s
  | .alpha => .error (.badIndex n.toNat)
  | .rclen => .error (.badIndex n.toNat)
  | .mdslen => .error (.badIndex n.toNat)
  | .plen => .error (.badIndex n.toNat)
  | .bstat => .error (.badIndex n.toNat)

/-- `CsrWrite(INi, v)` (R142). -/
def inWrite (i : Fin 4) (v : Word) (s : State) : Except Cause State :=
  match canon s.params.oorPolicy v with
  | .error c => .error c
  | .ok x => .ok (writeIn i x s)

/-- `FWrite(i, v)` (R47). -/
def fWrite (i : Reg) (v : Word) (s : State) : Except Cause State :=
  match canon s.params.oorPolicy v with
  | .error c => .error c
  | .ok x => .ok (writeF i x s)

/-- A write of a register other than `CMD` (R25): of a read-only one, or of a number that names none, `BadIndex`. -/
def csrPut (n : BitVec 8) (v : Word) (s : State) : Except Cause State :=
  match csrOf n with
  | some .pmlit => .ok { s with pmlit := v }
  | some (.inp i) => inWrite i v s
  | some (.bank k r) => bankRegWrite k r n v s
  | _ => .error (.badIndex n.toNat)

/-- A write transaction: dropped while a fault is recorded (R181). -/
def hostWrite (w : State → Except Cause State) (s : State) : Host.Outcome State Fault Refusal :=
  if faulted s then .next s else finish .host s (w s)

/-! ## Commands (R140) -/

/-- Whether the value written to `CMD` is the CLRERR word, the one write that is acted on while a fault is recorded. -/
def isClrerr (v : Word) : Bool :=
  match decodeCommand v with
  | .ok .clrerr => true
  | _ => false

/-- Steps 2 to 4 of R140. -/
def issueCommand (v : Word) (s : State) : Host.Outcome State Fault Refusal :=
  if faulted s && !isClrerr v then .next s
  else match decodeCommand v with
    | .ok i => exec i s
    | .error r => finish .host s (.error (rejectCause r))

/-- `CsrWrite(n, v)` (R25, R40). -/
def csrWrite (n : BitVec 8) (v : Word) (s : State) : Host.Outcome State Fault Refusal :=
  if csrOf n = some .cmd then issueCommand v s else hostWrite (csrPut n v) s

/-! ## The bus form of the port (R49) -/

/-- What a bus address selects in the windows of bank `k`, at offset `o` below 0x100_0000 from `B(k)`. -/
def bankWindow (k : BankId) (o : Nat) : BusTarget :=
  if o < 0x400000 then .rcs k o
  else if o < 0x800000 then .mdss k (o - 0x400000)
  else if (o - 0x800000) % 2 = 0 then .pmsCtl k ((o - 0x800000) / 2)
  else .pmsLit k ((o - 0x800000) / 2)

/-- The map of R49. -/
def busTarget (a : BitVec 32) : BusTarget :=
  if a.toNat < 0x100 then .csr (a.setWidth 8)
  else if a.toNat < 0x110 then .freg (regOf (a.setWidth 4))
  else if busBase 0 ≤ a.toNat ∧ a.toNat < busBase 1 then bankWindow 0 (a.toNat - busBase 0)
  else if busBase 1 ≤ a.toNat ∧ a.toNat < busBase 1 + 0x1000000 then bankWindow 1 (a.toNat - busBase 1)
  else .unmapped

/-- A read at a bus address (R49). -/
def busRead (a : BitVec 32) (s : State) : Except Cause Word :=
  match busTarget a with
  | .csr n => csrRead n s
  | .freg i => fRead i s
  | .rcs k idx => (storeRead (bankAt k s).mem.rcs a.toNat idx).map feWord
  | .mdss k idx => (storeRead (bankAt k s).mem.mdss a.toNat idx).map feWord
  | .pmsCtl k idx => (storeRead (bankAt k s).mem.pms a.toNat idx).map fun w => (uopCtl w).setWidth 256
  | .pmsLit k idx => (storeRead (bankAt k s).mem.pms a.toNat idx).map uopLit
  | .unmapped => .error (.badIndex a.toNat)

/-- A write at a bus address (R49): anything but a CSR or an `F[i]` is `BadIndex`. -/
def busWrite (a : BitVec 32) (v : Word) (s : State) : Host.Outcome State Fault Refusal :=
  match busTarget a with
  | .csr n => csrWrite n v s
  | .freg i => hostWrite (fWrite i v) s
  | _ => hostWrite (fun _ => .error (.badIndex a.toNat)) s

/-! ## Transactions (R40) -/

/-- The transactions that are enabled while `BUSY = 1`; every other one is held (R40). -/
def enabledWhileBusy : HostTxn → Bool
  | .reset => true
  | .csrRead n => statusGroup n
  | .busRead a => match busTarget a with
    | .csr n => statusGroup n
    | _ => false
  | .csrWrite _ _ => false
  | .fRead _ => false
  | .fWrite _ _ => false
  | .tabRead _ _ _ => false
  | .busWrite _ _ => false

/-- Performs a transaction, whole and in one step (R40, R52). -/
def perform (t : HostTxn) (s : State) : Host.Outcome State Fault Refusal :=
  match t with
  | .reset => .next (resetCore s)
  | .csrRead n => .next (answerRead (.word 0) ((csrRead n s).map .word) s)
  | .csrWrite n v => csrWrite n v s
  | .fRead i => .next (answerRead (.word 0) ((fRead i s).map .word) s)
  | .fWrite i v => hostWrite (fWrite i v) s
  | .tabRead sp k idx => .next (answerRead (tabZero sp) (tabRead sp k idx s) s)
  | .busRead a => .next (answerRead (.word 0) ((busRead a s).map .word) s)
  | .busWrite a v => busWrite a v s

/-- The first transaction that the host presents now and that a busy core performs, with the others, which keep their
order; a held one stays (R40; log entry 4). -/
def takeDue : List Pending → Option (HostTxn × List Pending)
  | [] => none
  | p :: rest =>
    if p.delay = 0 ∧ enabledWhileBusy p.txn = true then some (p.txn, rest)
    else match takeDue rest with
      | none => none
      | some (t, others) => some (t, p :: others)

/-- An engine step has passed: one less to wait for every transaction. -/
def tick (l : List Pending) : List Pending := l.map fun p => { p with delay := p.delay - 1 }

/-- A step while `BUSY = 1`: a transaction that is due and enabled, else the engine's next step (R54, R109). -/
def busyStep (s : State) : Host.Outcome State Fault Refusal :=
  match takeDue s.pending with
  | some (t, others) => perform t { s with pending := others }
  | none => engineStep { s with pending := tick s.pending }

/-- A step while `BUSY = 0`: the host's next transaction; without one the core takes no step (R193, R201), which is
a step that changes nothing. -/
def idleStep (s : State) : Host.Outcome State Fault Refusal :=
  match s.pending with
  | [] => .next s
  | p :: rest => perform p.txn { s with pending := rest }

/-- The next transaction of an idle, unfaulted core is the write of `v` to `CMD`. A recorded fault is acknowledged
first, but for the CLRERR word, which acts on it. -/
def placeCommand (v : Word) (s : State) : State :=
  let s' := if isClrerr v then s else clearRecord s
  { s' with busy := false, pending := { delay := 0, txn := .csrWrite 0x02 v } :: s.pending }

end Machine

end Sys2Proof
end

