-- ==== Sys2Proof/Machine/Step.lean ====
section
/-! DEFINITION. One step of the core: one engine step or one host transaction, in one total order (20_memory.md R54). -/

namespace Sys2Proof

namespace Machine

/-- One step (R54, R109). -/
def step (s : State) : Host.Outcome State Fault Refusal :=
  if s.busy then busyStep s else idleStep s

/-- `s` with an instruction placed where the next step fetches it. A row of 32 bits or fewer is a command: the host's
next transaction writes it to `CMD`. A longer one is a micro-operation word: the engine is busy in unrolled mode with
the word at `PM[KSEL][upc]` (log entry 6). -/
def State.withFetchWord (s : State) (nbits w : Nat) : State :=
  if nbits ≤ 32 then placeCommand (BitVec.ofNat 256 w) s
  else placeUop (BitVec.ofNat 288 w) s

end Machine

end Sys2Proof
end

