-- ==== Sys2Proof/Machine/Permutation.lean ====
section
/-! DEFINITION. The mathematics of the permutation (41_permutation_engine.md R100 to R103), on lists of field elements, apart from
any register or template. The engine does not use it: the statements say that the engine computes it. -/

namespace Sys2Proof

namespace Machine

/-- `sbox(x)`, three multiplications in the order of R100. -/
def sbox (x : Fe) : Fe :=
  let x2 := feMul x x
  let x4 := feMul x2 x2
  feMul x4 x

/-- The constant addition of R102, every slot in every round. -/
def addConstants (c : Nat → Fe) (s : List Fe) : List Fe := s.mapIdx fun i x => feAdd x (c i)

/-- The S-box layer of R102: every slot in a full round, slot 0 only in a partial one. -/
def sboxLayer (full : Bool) (w : List Fe) : List Fe := w.mapIdx fun i x => if full || i == 0 then sbox x else x

/-- One row of the matrix step of R102, accumulated from the first product. -/
def rowProduct (t : Nat) (row : Nat → Fe) (w : List Fe) : Fe :=
  (List.range (t - 1)).foldl (fun acc j => feAdd acc (feMul (w.getD (j + 1) feZero) (row (j + 1))))
    (feMul (w.getD 0 feZero) (row 0))

/-- The matrix step of R102. -/
def mixLayer (t : Nat) (m : Nat → Nat → Fe) (w : List Fe) : List Fe := (List.range t).map fun i => rowProduct t (m i) w

/-- Round `r` of `Perm_k`. -/
def permRound (b : Bank) (r : Nat) (s : List Fe) : List Fe :=
  mixLayer b.width b.mds (sboxLayer (isFull b r) (addConstants (roundConstant b r) s))

/-- The first `n` rounds of `Perm_k`. -/
def permRounds (b : Bank) : Nat → List Fe → List Fe
  | 0, s => s
  | n + 1, s => permRound b n (permRounds b n s)

/-- `Perm_k` (R102). -/
def perm (b : Bank) (s : List Fe) : List Fe := permRounds b b.rounds s

/-- The state vector `F[0..t-1]` (R12). -/
def stateVector (t : Nat) (s : State) : List Fe := s.f.toList.take t

end Machine

end Sys2Proof
end

