-- ==== Sys2Proof/Safety.lean ====
section
/-! DEFINITION. What holds of every state a run can reach, in the terms the statements use: the invariant of the core. The
spec gives its clauses one by one, as remarks on what a register can hold (10_state.md R14 to R24; 41_permutation_engine.md R110, R115,
R116; 60_exceptions.md R170, R181). -/

namespace Sys2Proof

namespace Machine

/-- A bank's part of the invariant. -/
structure Bank.Ok (p : Config.Params) (k : BankId) (b : Bank) : Prop where
  /-- The stores keep within their capacities (R41 to R43). -/
  memWf : b.mem.wf p
  /-- A locked bank passes `CfgCheck`, and its program is absent or of the right length (R24, R143, R58). -/
  locked : b.lock = true → cfgCheck k b = none ∧ (b.mem.pms.length = 0 ∨ b.mem.pms.length = b.nops)
  /-- `UVALID[k]` says that the bank is locked with a program of the right length (R24). -/
  uvalid : b.uvalid = (b.lock && decide (b.mem.pms.length = b.nops))

/-- While the loop sequencer runs (R110, R115, R116). -/
structure State.LoopRun (s : State) : Prop where
  locked : (bankAt s.ksel s).lock = true
  phase : s.phase ≠ .idle
  round : s.round ≤ (bankAt s.ksel s).rounds
  ended : s.round = (bankAt s.ksel s).rounds → s.phase = .arc
  stateValid : ∀ i < widthOf s.ksel, validF i s = true
  workValid : s.phase = .sbox ∨ s.phase = .mix → ∀ i < widthOf s.ksel, validF (5 + i) s = true

/-- The invariant of the core. -/
structure State.Inv (s : State) : Prop where
  params : s.params.ok
  bank0 : s.bank0.Ok s.params 0
  bank1 : s.bank1.Ok s.params 1
  /-- An empty record is all zero (R21, R152). -/
  recordEmpty : s.ecause = 0 → s.epc = 0 ∧ s.einfo = 0
  /-- Codes 10 to 255 are never written (R170). -/
  recordCode : s.ecause.toNat ≤ 9
  /-- A busy engine runs without a recorded fault (R181), with `DONE` and `VDIG` clear (R146). -/
  busyClean : s.busy = true → s.ecause = 0 ∧ s.done = false ∧ s.vdig = false
  /-- The sequencer is idle when the engine is (R17). -/
  idlePhase : s.busy = false → s.phase = .idle
  loopRun : s.busy = true → s.umode = false → s.LoopRun
  /-- The program counter stays within the program, and the sequencer is idle (R14, R17). -/
  unrolledRun : s.busy = true → s.umode = true →
    s.upc.toNat ≤ (bankAt s.ksel s).mem.pms.length ∧ s.phase = .idle
  /-- Under HASH2 and HASH4 `F[0]` is valid (R114). -/
  hashValid : s.busy = true → s.hashop = true → validF 0 s = true

/-- `n` steps. -/
def steps : Nat → State → Host.Outcome State Fault Refusal
  | 0, s => .next s
  | n + 1, s => match step s with
    | .next s' => steps n s'
    | .fault r => .fault r
    | .refused r => .refused r

end Machine

end Sys2Proof
end

