-- ==== Sys2Proof/Certificates/Slice0/Obligations.lean ====
section
/-! DEFINITION. The statements for the provers. They come from the numbered rules of the spec; each docstring names them.
The helpers that stand before them restate, in the spec's terms and without the machine's own operations, what a
statement says of a state. -/

open Sys2Proof Sys2Proof.Machine

namespace Sys2Proof

namespace Machine

/-! ## Terms of the statements -/

/-- `t` is `s` after a micro-operation that writes `value` to `F[rd]`: the other registers keep their value, `VF` gains
the bit of `rd`, `upc` is one more, `RCCNT` is `counted` more, and nothing else changes. -/
structure WritesField (s t : State) (rd : Reg) (value : Nat) (counted : BitVec 32) : Prop where
  result : (t.f[rd.val]).val = value
  others : ∀ j : Reg, j ≠ rd → t.f[j.val] = s.f[j.val]
  valid : ∀ j : Reg, validF j.val t = (validF j.val s || decide (j = rd))
  rest : t = { s with f := t.f, vf := t.vf, upc := s.upc + 1, rccnt := s.rccnt + counted }

/-- `s` with a fault recorded at the acceptance of a command or by a host access (R180): code, `EPC = 0`, information
word, nothing else. -/
def hostFault (s : State) (code : BitVec 8) (info : Word) : State :=
  { s with ecause := code, epc := 0, einfo := info }

/-- What a read that would raise leaves of `s`: `recorded`, the state with the fault recorded, or, the record being occupied, `s` as it
is (R181). -/
def ifUnfaulted (s recorded : State) : State := if s.ecause = 0 then recorded else s

/-- `s` with a fault recorded by an engine step (R180): code, `EPC = upc`, information word, engine stopped, nothing
else. -/
def engineFault (s : State) (code : BitVec 8) (info : Word) : State :=
  { s with ecause := code, epc := s.upc, einfo := info, busy := false }

/-- `s` with the engine started (R146). -/
def started (k : BankId) (u hop : Bool) (s : State) : State :=
  { s with busy := true, done := false, vdig := false, ksel := k, umode := u, hashop := hop,
           upc := 0, rccnt := 0, round := 0, phase := if u then .idle else .arc }

/-- The width of bank `k` (R6). -/
def bankWidth (k : BankId) : Nat := if k = 0 then 3 else 5

/-- The tests of `CfgCheck(k)` (R144), one by one. -/
def WidthOk (k : BankId) (b : Bank) : Prop := b.t.toNat = bankWidth k
def FullRoundsEven (b : Bank) : Prop := b.rf.toNat % 2 = 0
def RcLengthOk (b : Bank) : Prop := b.mem.rcs.length = b.t.toNat * (b.rf.toNat + b.rp.toNat)
def MdsShapeOk (b : Bank) : Prop :=
  b.mdsRows.toNat = b.t.toNat ∧ b.mdsCols.toNat = b.t.toNat ∧ b.mem.mdss.length = b.t.toNat * b.t.toNat

/-- All of them. -/
def WellConfigured (k : BankId) (b : Bank) : Prop :=
  WidthOk k b ∧ FullRoundsEven b ∧ RcLengthOk b ∧ MdsShapeOk b

/-- The number of the first test of R144 that fails is `n`. -/
def FirstFailure (k : BankId) (b : Bank) (n : Nat) : Prop :=
  (n = 1 ∧ ¬ WidthOk k b) ∨
  (n = 2 ∧ WidthOk k b ∧ ¬ FullRoundsEven b) ∨
  (n = 3 ∧ WidthOk k b ∧ FullRoundsEven b ∧ ¬ RcLengthOk b) ∨
  (n = 4 ∧ WidthOk k b ∧ FullRoundsEven b ∧ RcLengthOk b ∧ ¬ MdsShapeOk b)

/-- `NOPS(k)` (R123). -/
def programLength (b : Bank) : Nat :=
  2 * b.t.toNat * b.t.toNat * (b.rf.toNat + b.rp.toNat) + 3 * (b.t.toNat * b.rf.toNat + b.rp.toNat)

/-- The CSR number of a bank register at an offset (R25). -/
def bankCsr (k : BankId) (offset : Nat) : BitVec 8 := BitVec.ofNat 8 (0x20 + 0x10 * k.val + offset)

/-- The reason word of a `ConfigError` (R172). -/
def reasonWord (reason k table index : Nat) : Word :=
  BitVec.ofNat 256 (reason + 2 ^ 8 * k + 2 ^ 9 * table + 2 ^ 16 * index)

/-- An idle core whose host's next transaction is `t`. -/
def HostNext (s : State) (t : HostTxn) (rest : List Pending) : Prop :=
  s.busy = false ∧ ∃ d, s.pending = { delay := d, txn := t } :: rest

/-- `s` after a read transaction that returned `r` and changed nothing: the reply, and what the host has yet to perform. -/
def answered (rest : List Pending) (r : Reply) (s : State) : State := { s with pending := rest, reply := some r }

/-- The CSR numbers of the status group (R40). -/
def statusNumbers : List (BitVec 8) := [0x00, 0x01, 0x03, 0x04, 0x05, 0x06, 0x07, 0x08, 0x0A]

/-- `PHASE` as a number (R17). -/
def phaseNumber : Phase → Nat
  | .idle => 0
  | .arc => 1
  | .sbox => 2
  | .mix => 3

/-- `F[0], F[1], ...` before a hash of the inputs `l` (R149): the capacity element 0, then the inputs. -/
def spongeState (l : List Fe) : List Fe := ⟨0, Config.P_pos⟩ :: l

/-- The registers that a run on bank `k` names in no micro-operation (R117, R124): `f13` to `f15`, and for bank 0 also `f3`,
`f4`, `f8`, `f9`. -/
def Untouched (k : BankId) (i : Nat) : Prop := 13 ≤ i ∨ (k = 0 ∧ (i = 3 ∨ i = 4 ∨ i = 8 ∨ i = 9))

/-- The program of bank `k` is `Gen(k)`, as words (R121). -/
def ProgramIsGen (k : BankId) (s : State) : Prop := (bankAt k s).mem.pms = genWords (bankAt k s)

end Machine

end Sys2Proof

/-! ## The field ALU -/

/-- R80, R81: `add` is the exact sum modulo `P`, that is `a + b` below `P` and `a + b - P` otherwise, and the sum fits in 256 bits; `mul` is
the exact product modulo `P`, and the product before reduction is below 2^510. -/
def Obligations.AddAndMulAreExactModP : Prop :=
  ∀ a b : Fe,
    (feAdd a b).val = (a.val + b.val) % Config.P ∧
    (feAdd a b).val = (if a.val + b.val < Config.P then a.val + b.val else a.val + b.val - Config.P) ∧
    a.val + b.val < 2 ^ 256 ∧ (feAdd a b).val < Config.P ∧
    (feMul a b).val = (a.val * b.val) % Config.P ∧ a.val * b.val < 2 ^ 510 ∧ (feMul a b).val < Config.P

/-- R83, the laws that the spec derives from `P` being prime: `add` and `mul` commute and associate, `mul` distributes
over `add`, 0 and 1 are neutral, 0 absorbs, `P - a` is the opposite of `a`, and a product is 0 only when a factor is. -/
def Obligations.FieldLaws : Prop :=
  ∀ a b c zero one : Fe, zero.val = 0 → one.val = 1 →
    feAdd a b = feAdd b a ∧ feAdd (feAdd a b) c = feAdd a (feAdd b c) ∧ feAdd a zero = a ∧
    (∀ n : Fe, a.val ≠ 0 → n.val = Config.P - a.val → feAdd a n = zero) ∧
    feMul a b = feMul b a ∧ feMul (feMul a b) c = feMul a (feMul b c) ∧ feMul a one = a ∧
    feMul a zero = zero ∧ feMul a (feAdd b c) = feAdd (feMul a b) (feMul a c) ∧
    (feMul a b = zero → a = zero ∨ b = zero)

/-- R100: the S-box is the fifth power modulo `P`, reached by three multiplications `x2 = x*x`, `x4 = x2*x2`,
`x5 = x4*x`; 0, 1, 2 and `P - 1` go to 0, 1, 32 and `P - 1`. -/
def Obligations.SboxIsFifthPower : Prop :=
  ∀ x : Fe,
    (sbox x).val = x.val ^ 5 % Config.P ∧ sbox x = feMul (feMul (feMul x x) (feMul x x)) x ∧
    (x.val = 0 → (sbox x).val = 0) ∧ (x.val = 1 → (sbox x).val = 1) ∧ (x.val = 2 → (sbox x).val = 32) ∧
    (x.val = Config.P - 1 → (sbox x).val = Config.P - 1)

/-! ## The four micro-operations -/

/-- R84: FADD completes when its sources are valid, writes the sum, and changes nothing else but `VF[rd]` and `upc`. -/
def Obligations.FaddWritesSum : Prop :=
  ∀ (s : State) (rd rs1 rs2 : Reg), validF rs1.val s = true → validF rs2.val s = true →
    ∃ t, exec (.fadd rd rs1 rs2) s = .next t ∧
      WritesField s t rd (((s.f[rs1.val]).val + (s.f[rs2.val]).val) % Config.P) 0

/-- R85: FADDI completes when its source is valid and its literal below `P`, writes the sum with the literal, and
counts one in `RCCNT`. -/
def Obligations.FaddiAddsLiteralAndCounts : Prop :=
  ∀ (s : State) (rd rs1 : Reg) (lit : Word), validF rs1.val s = true → lit.toNat < Config.P →
    ∃ t, exec (.faddi rd rs1 lit) s = .next t ∧
      WritesField s t rd (((s.f[rs1.val]).val + lit.toNat) % Config.P) 1

/-- R86: FMUL completes when its sources are valid, writes the product, and changes nothing else but `VF[rd]` and
`upc`. -/
def Obligations.FmulWritesProduct : Prop :=
  ∀ (s : State) (rd rs1 rs2 : Reg), validF rs1.val s = true → validF rs2.val s = true →
    ∃ t, exec (.fmul rd rs1 rs2) s = .next t ∧
      WritesField s t rd (((s.f[rs1.val]).val * (s.f[rs2.val]).val) % Config.P) 0

/-- R87: FMULI completes when its source is valid and its literal below `P`, writes the product with the literal, and
does not count. -/
def Obligations.FmuliMultipliesByLiteral : Prop :=
  ∀ (s : State) (rd rs1 : Reg) (lit : Word), validF rs1.val s = true → lit.toNat < Config.P →
    ∃ t, exec (.fmuli rd rs1 lit) s = .next t ∧
      WritesField s t rd (((s.f[rs1.val]).val * lit.toNat) % Config.P) 0

/-- R84 to R87, the exceptions, with R170 and R180: an invalid source is `UninitRead` with its number, `rs1` before `rs2`;
a literal at or above `P` is `IllegalLiteral` with the literal, before any source; the engine stops and nothing but
the record changes. -/
def Obligations.MicroOpFaultsStopTheEngine : Prop :=
  ∀ (s : State) (rd rs1 rs2 : Reg) (lit : Word), s.ecause = 0 →
    (validF rs1.val s = false →
      exec (.fadd rd rs1 rs2) s = .next (engineFault s 7 (BitVec.ofNat 256 rs1.val)) ∧
      exec (.fmul rd rs1 rs2) s = .next (engineFault s 7 (BitVec.ofNat 256 rs1.val))) ∧
    (validF rs1.val s = true → validF rs2.val s = false →
      exec (.fadd rd rs1 rs2) s = .next (engineFault s 7 (BitVec.ofNat 256 rs2.val)) ∧
      exec (.fmul rd rs1 rs2) s = .next (engineFault s 7 (BitVec.ofNat 256 rs2.val))) ∧
    (Config.P ≤ lit.toNat →
      exec (.faddi rd rs1 lit) s = .next (engineFault s 6 lit) ∧
      exec (.fmuli rd rs1 lit) s = .next (engineFault s 6 lit)) ∧
    (lit.toNat < Config.P → validF rs1.val s = false →
      exec (.faddi rd rs1 lit) s = .next (engineFault s 7 (BitVec.ofNat 256 rs1.val)) ∧
      exec (.fmuli rd rs1 lit) s = .next (engineFault s 7 (BitVec.ofNat 256 rs1.val)))

/-! ## The commands -/

/-- R143: INIT of an unlocked, well-formed bank with no program or one of `NOPS(k)` words locks it, sets `UVALID` to
whether the program has `NOPS(k)` words, and changes nothing else. -/
def Obligations.InitLocksWellFormedBank : Prop :=
  ∀ (k : BankId) (s : State), (bankAt k s).lock = false → WellConfigured k (bankAt k s) →
    ((bankAt k s).mem.pms.length = 0 ∨ (bankAt k s).mem.pms.length = programLength (bankAt k s)) →
    ∃ t, exec (.init k) s = .next t ∧ t = { s with bank0 := t.bank0, bank1 := t.bank1 } ∧
      (∀ j, j ≠ k → bankAt j t = bankAt j s) ∧
      bankAt k t = { bankAt k s with
        lock := true, uvalid := decide ((bankAt k s).mem.pms.length = programLength (bankAt k s)) }

/-- R143, R144, the refusals of INIT in their order: a locked bank, then the first failing test of `CfgCheck` (reasons 1
to 4), then a program of another length (reason 6). The bank stays as it is. -/
def Obligations.InitRefusalsInOrder : Prop :=
  ∀ (k : BankId) (s : State), s.ecause = 0 →
    ((bankAt k s).lock = true →
      exec (.init k) s = .next (hostFault s 4 (BitVec.ofNat 256 (0x001 + 0x100 * k.val)))) ∧
    ((bankAt k s).lock = false →
      (∀ n, FirstFailure k (bankAt k s) n →
        exec (.init k) s = .next (hostFault s 2 (reasonWord n k.val 0 0))) ∧
      (WellConfigured k (bankAt k s) → (bankAt k s).mem.pms.length ≠ 0 →
        (bankAt k s).mem.pms.length ≠ programLength (bankAt k s) →
        exec (.init k) s = .next (hostFault s 2 (reasonWord 6 k.val 0 0))))

/-- R145, R146: PERMUTE on a locked bank, with a valid program where `u` asks for one, the declared length equal to
`T[k]` and every slot valid, starts the engine and changes nothing else. -/
def Obligations.PermuteStartsTheEngine : Prop :=
  ∀ (k : BankId) (u : Bool) (len : BitVec 8) (s : State), (bankAt k s).lock = true →
    (u = true → (bankAt k s).uvalid = true) → len.toNat = (bankAt k s).t.toNat →
    (∀ i < (bankAt k s).t.toNat, validF i s = true) →
    exec (.permute k u len) s = .next (started k u false s)

/-- R145, the refusals of PERMUTE in their order: lock, program, arity, the first invalid slot. -/
def Obligations.PermuteRefusalsInOrder : Prop :=
  ∀ (k : BankId) (u : Bool) (len : BitVec 8) (s : State), s.ecause = 0 →
    ((bankAt k s).lock = false ∨ (u = true ∧ (bankAt k s).uvalid = false) →
      exec (.permute k u len) s = .next (hostFault s 4
        (BitVec.ofNat 256 (0x002 + 0x100 * k.val + 0x200 * u.toNat + 0x10000 * len.toNat)))) ∧
    ((bankAt k s).lock = true → (u = true → (bankAt k s).uvalid = true) →
      (len.toNat ≠ (bankAt k s).t.toNat →
        exec (.permute k u len) s = .next (hostFault s 3 (BitVec.ofNat 256 len.toNat))) ∧
      (∀ i, len.toNat = (bankAt k s).t.toNat → i < (bankAt k s).t.toNat → (∀ j < i, validF j s = true) →
        validF i s = false → exec (.permute k u len) s = .next (hostFault s 7 (BitVec.ofNat 256 i))))

/-- R147, R146, R149: HASH2 on a locked bank 0, with a valid program where `u` asks for one and both inputs valid, writes
`[0, IN[0], IN[1]]` to `F[0..2]` and starts the engine on bank 0 with `HASHOP = 1`. -/
def Obligations.HashTwoStartsOnSpongeState : Prop :=
  ∀ (u : Bool) (s : State), s.bank0.lock = true → (u = true → s.bank0.uvalid = true) →
    (∀ i < 2, validIn i s = true) →
    ∃ t, exec (.hash2 u) s = .next t ∧ stateVector 3 t = spongeState [s.inp[0], s.inp[1]] ∧
      (∀ i : Reg, 3 ≤ i.val → t.f[i.val] = s.f[i.val]) ∧
      (∀ i : Reg, validF i.val t = (validF i.val s || decide (i.val < 3))) ∧
      t = { started 0 u true s with f := t.f, vf := t.vf }

/-- R148, R146, R149: HASH4 on a locked bank 1, with a valid program where `u` asks for one and the four inputs valid,
writes `[0, IN[0], IN[1], IN[2], IN[3]]` to `F[0..4]` and starts the engine on bank 1 with `HASHOP = 1`. -/
def Obligations.HashFourStartsOnSpongeState : Prop :=
  ∀ (u : Bool) (s : State), s.bank1.lock = true → (u = true → s.bank1.uvalid = true) →
    (∀ i < 4, validIn i s = true) →
    ∃ t, exec (.hash4 u) s = .next t ∧
      stateVector 5 t = spongeState [s.inp[0], s.inp[1], s.inp[2], s.inp[3]] ∧
      (∀ i : Reg, 5 ≤ i.val → t.f[i.val] = s.f[i.val]) ∧
      (∀ i : Reg, validF i.val t = (validF i.val s || decide (i.val < 5))) ∧
      t = { started 1 u true s with f := t.f, vf := t.vf }

/-- R147, R148, the refusals of the hash commands in their order: lock, program, the first invalid input; nothing is
written to `F`. -/
def Obligations.HashRefusalsInOrder : Prop :=
  ∀ (u : Bool) (s : State), s.ecause = 0 →
    (s.bank0.lock = false ∨ (u = true ∧ s.bank0.uvalid = false) →
      exec (.hash2 u) s = .next (hostFault s 4 (BitVec.ofNat 256 (0x003 + 0x200 * u.toNat)))) ∧
    (s.bank0.lock = true → (u = true → s.bank0.uvalid = true) →
      ∀ i < 2, (∀ j < i, validIn j s = true) → validIn i s = false →
        exec (.hash2 u) s = .next (hostFault s 7 (BitVec.ofNat 256 (16 + i)))) ∧
    (s.bank1.lock = false ∨ (u = true ∧ s.bank1.uvalid = false) →
      exec (.hash4 u) s = .next (hostFault s 4 (BitVec.ofNat 256 (0x104 + 0x200 * u.toNat)))) ∧
    (s.bank1.lock = true → (u = true → s.bank1.uvalid = true) →
      ∀ i < 4, (∀ j < i, validIn j s = true) → validIn i s = false →
        exec (.hash4 u) s = .next (hostFault s 7 (BitVec.ofNat 256 (16 + i))))

/-- R150, R146: EXEC starts the engine in unrolled mode on any bank, with no check and nothing else changed. -/
def Obligations.ExecStartsUnchecked : Prop :=
  ∀ (k : BankId) (s : State), exec (.execProg k) s = .next (started k true false s)

/-- R127: GEN of an unlocked, well-formed bank whose `NOPS(k)` words fit the store replaces its program by `Gen(k)`
and changes nothing else. -/
def Obligations.GenLoadsGeneratedProgram : Prop :=
  ∀ (k : BankId) (s : State), (bankAt k s).lock = false → WellConfigured k (bankAt k s) →
    programLength (bankAt k s) ≤ s.params.pmCap →
    ∃ t, exec (.gen k) s = .next t ∧ t = { s with bank0 := t.bank0, bank1 := t.bank1 } ∧
      (∀ j, j ≠ k → bankAt j t = bankAt j s) ∧
      bankAt k t = { bankAt k s with mem := { (bankAt k s).mem with pms := genWords (bankAt k s) } } ∧
      (bankAt k t).mem.pms.length = programLength (bankAt k s)

/-- R127, the refusals of GEN in their order: a locked bank, the first failing test of `CfgCheck`, a program that does
not fit the store (reason 7). -/
def Obligations.GenRefusalsInOrder : Prop :=
  ∀ (k : BankId) (s : State), s.ecause = 0 →
    ((bankAt k s).lock = true →
      exec (.gen k) s = .next (hostFault s 4 (BitVec.ofNat 256 (0x006 + 0x100 * k.val)))) ∧
    ((bankAt k s).lock = false →
      (∀ n, FirstFailure k (bankAt k s) n →
        exec (.gen k) s = .next (hostFault s 2 (reasonWord n k.val 0 0))) ∧
      (WellConfigured k (bankAt k s) → s.params.pmCap < programLength (bankAt k s) →
        exec (.gen k) s = .next (hostFault s 2 (reasonWord 7 k.val 0 0))))

/-- R152: CLRERR empties the record and changes nothing else; in a state of the invariant whose record is empty it does
nothing; its one word is `0x00000007`. -/
def Obligations.ClrerrClearsOnlyTheRecord : Prop :=
  (∀ s : State, exec .clrerr s = .next { s with ecause := 0, epc := 0, einfo := 0 }) ∧
  (∀ s : State, s.Inv → s.ecause = 0 → exec .clrerr s = .next s) ∧
  (∀ v : Word, decodeCommand v = .ok .clrerr ↔ v = 7)

/-- R170, R172, R180: `raise X(info)` writes the code, the information word and `EPC`, which is `upc` in an engine step and 0
otherwise; an engine step also stops the engine; nothing else changes. The code and the word of each of the nine faults. -/
def Obligations.RaiseRecordsCodeAndInformation : Prop :=
  (∀ (c : Cause) (s : State), s.ecause = 0 →
    raiseFault .host c s = hostFault s (causeCode c) (causeInfo c) ∧
    raiseFault .engine c s = engineFault s (causeCode c) (causeInfo c)) ∧
  ∀ (v : Word) (len n : BitVec 8) (ctl : BitVec 32) (k : BankId) (table : Bool) (index : BitVec 32) (i : Nat),
    (causeCode (.invalidFieldElement v) = 1 ∧ causeInfo (.invalidFieldElement v) = v) ∧
    (∀ r ∈ [(Reason.badWidth, 1), (.oddFullRounds, 2), (.rcLength, 3), (.mdsShape, 4), (.entryRange, 5),
        (.progLength, 6), (.progCapacity, 7), (.regRange, 8)],
      causeCode (.configError r.1 k table index) = 2 ∧
      causeInfo (.configError r.1 k table index) = reasonWord r.2 k.val table.toNat index.toNat) ∧
    (causeCode (.invalidArity len) = 3 ∧ causeInfo (.invalidArity len) = BitVec.ofNat 256 len.toNat) ∧
    (causeCode (.illegalCommand v) = 4 ∧ causeInfo (.illegalCommand v) = v) ∧
    (causeCode (.illegalUop ctl) = 5 ∧ causeInfo (.illegalUop ctl) = BitVec.ofNat 256 ctl.toNat) ∧
    (causeCode (.illegalLiteral v) = 6 ∧ causeInfo (.illegalLiteral v) = v) ∧
    (causeCode (.uninitRead i) = 7 ∧ causeInfo (.uninitRead i) = BitVec.ofNat 256 i) ∧
    (causeCode (.badIndex i) = 8 ∧ causeInfo (.badIndex i) = BitVec.ofNat 256 i) ∧
    (causeCode (.lockedWrite n) = 9 ∧ causeInfo (.lockedWrite n) = BitVec.ofNat 256 n.toNat)

/-! ## Encoding -/

/-- R61 to R67: words written out from the encodings decode to the instructions they stand for. -/
def Obligations.SampleWordsDecode : Prop :=
  decodeTableWord 288 (0x01312000 * 2 ^ 256) = some (.fadd 3 1 2) ∧
  decodeTableWord 288 (0x02500000 * 2 ^ 256 + 7) = some (.faddi 5 0 7) ∧
  decodeTableWord 288 (0x03A55000 * 2 ^ 256) = some (.fmul 10 5 5) ∧
  decodeTableWord 288 (0x04C60000 * 2 ^ 256 + 10) = some (.fmuli 12 6 10) ∧
  decodeTableWord 32 0x00000101 = some (.init 1) ∧
  decodeTableWord 32 0x00050302 = some (.permute 1 true 5) ∧
  decodeTableWord 32 0x00000203 = some (.hash2 true) ∧
  decodeTableWord 32 0x00000304 = some (.hash4 true) ∧
  decodeTableWord 32 0x00000105 = some (.execProg 1) ∧
  decodeTableWord 32 0x00000106 = some (.gen 1) ∧
  decodeTableWord 32 0x00000007 = some .clrerr

/-- R61, R63, R66, R67: decoding an encoded well-formed instruction gives it back, for every instruction and every value of
its operands. -/
def Obligations.DecodeInvertsEncode : Prop :=
  ∀ i : Instr, i.wf = true → decodeEncoded (encode i) = .ok i

/-- R63, R67, R68: each word has one meaning. A word that decodes is the encoding of what it decodes to, which is well
formed; so every other word is rejected. -/
def Obligations.EncodeInvertsDecode : Prop :=
  ∀ (e : Encoded) (i : Instr), decodeEncoded e = .ok i → i.wf = true ∧ encode i = e

/-- R50: the image of an encoded object, most significant byte first, is what the byte decoder reads; a micro-op word has
36 bytes and a command word 4. -/
def Obligations.ImageRoundTrip : Prop :=
  ∀ i : Instr, i.wf = true →
    decodeBytes (encode i).image = .ok i ∧
    (encode i).image.length = (match encode i with | .uop _ => 36 | .cmd _ => 4)

/-- R68, R140 step 3: on an idle core with no fault recorded, a value written to `CMD` that no command's word equals raises
`IllegalCommand` with the whole value and changes nothing else; among them every value of 2^32 or more. -/
def Obligations.IllegalCommandRaises : Prop :=
  ∀ (v : Word) (rest : List Pending) (s : State), HostNext s (.csrWrite 0x02 v) rest → s.ecause = 0 →
    (2 ^ 32 ≤ v.toNat ∨ ∀ i : Instr, encode i ≠ .cmd (v.setWidth 32)) →
    step s = .next (hostFault { s with pending := rest } 4 v)

/-- R65, R113: what the engine does with the word `w` at `PM[KSEL][upc]`: the seven tests in their order, the first that
fails deciding the fault, and the instruction's own rule when none does. -/
def Obligations.UnrolledStepFollowsDecodeOrder : Prop :=
  ∀ (w : UopWord) (s : State),
    let op := (w.extractLsb' 280 8).toNat
    let rd : Reg := ⟨(w.extractLsb' 276 4).toNat, (w.extractLsb' 276 4).isLt⟩
    let rs1 : Reg := ⟨(w.extractLsb' 272 4).toNat, (w.extractLsb' 272 4).isLt⟩
    let rs2 : Reg := ⟨(w.extractLsb' 268 4).toNat, (w.extractLsb' 268 4).isLt⟩
    let res := w.extractLsb' 256 12
    let lit := w.extractLsb' 0 256
    let illegal : Prop := op ∉ [1, 2, 3, 4] ∨ res ≠ 0 ∨ (op ∈ [1, 3] ∧ lit ≠ 0) ∨ (op ∈ [2, 4] ∧ rs2 ≠ 0)
    s.busy = true → s.umode = true → s.pending = [] → s.ecause = 0 →
    (bankAt s.ksel s).mem.pms[s.upc.toNat]? = some w →
    (illegal → step s = .next (engineFault s 5 (BitVec.ofNat 256 (w.toNat / 2 ^ 256)))) ∧
    (¬ illegal → op ∈ [2, 4] → Config.P ≤ lit.toNat → step s = .next (engineFault s 6 lit)) ∧
    (¬ illegal → (op ∈ [2, 4] → lit.toNat < Config.P) → validF rs1.val s = false →
      step s = .next (engineFault s 7 (BitVec.ofNat 256 rs1.val))) ∧
    (¬ illegal → op ∈ [1, 3] → validF rs1.val s = true → validF rs2.val s = false →
      step s = .next (engineFault s 7 (BitVec.ofNat 256 rs2.val))) ∧
    (¬ illegal → validF rs1.val s = true →
      (op = 1 → validF rs2.val s = true → step s = exec (.fadd rd rs1 rs2) s) ∧
      (op = 2 → lit.toNat < Config.P → step s = exec (.faddi rd rs1 lit) s) ∧
      (op = 3 → validF rs2.val s = true → step s = exec (.fmul rd rs1 rs2) s) ∧
      (op = 4 → lit.toNat < Config.P → step s = exec (.fmuli rd rs1 lit) s))

/-! ## The step -/

/-- R88, R113: a step of a core that is busy in unrolled mode, with no transaction due that a busy core performs, runs the
micro-operation that the word at `PM[KSEL][upc]` decodes to; what the step adds is one engine step less to wait for the
host's transactions. -/
def Obligations.StepRunsFetchedMicroOp : Prop :=
  ∀ (w : UopWord) (i : Instr) (s : State), s.busy = true → s.umode = true →
    (∀ p ∈ s.pending, p.delay = 0 → enabledWhileBusy p.txn = false) →
    (bankAt s.ksel s).mem.pms[s.upc.toNat]? = some w → decodeUop w = .ok i →
    step s = exec i { s with pending := s.pending.map fun p => { p with delay := p.delay - 1 } }

/-- R140: a step of an idle core whose host's next transaction writes to `CMD` a value that decodes to `i` runs `i`, when
no fault is recorded or `i` is CLRERR; the transaction is done. While a fault is recorded every other command is
dropped. -/
def Obligations.StepRunsIssuedCommand : Prop :=
  ∀ (v : Word) (i : Instr) (rest : List Pending) (s : State), HostNext s (.csrWrite 0x02 v) rest →
    decodeCommand v = .ok i →
    (s.ecause = 0 ∨ i = .clrerr → step s = exec i { s with pending := rest }) ∧
    (s.ecause ≠ 0 → i ≠ .clrerr → step s = .next { s with pending := rest })

/-- R114, R113, R110: a busy engine at the end of its run takes the completion step: under HASHOP `DIGEST` becomes `F[0]` and
`VDIG` 1; `BUSY` 0, `DONE` 1, `PHASE` IDLE; nothing else changes. The end is `upc = PLEN` in unrolled mode and
`ROUND = R` in loop mode. -/
def Obligations.CompletionStepEndsTheRun : Prop :=
  ∀ s : State, s.busy = true → s.pending = [] →
    (if s.umode = true then s.upc.toNat = (bankAt s.ksel s).mem.pms.length
      else s.round = (bankAt s.ksel s).rf.toNat + (bankAt s.ksel s).rp.toNat) →
    (s.hashop = true → step s =
      .next { s with digest := s.f[0], vdig := true, busy := false, done := true, phase := .idle }) ∧
    (s.hashop = false → step s = .next { s with busy := false, done := true, phase := .idle })

/-- R40, R210: while the engine is busy a transaction other than `Reset` and the reads of the status group is held: when the host has only
such transactions to perform, the step is the engine's, it is the step that would be taken without them, and every one of them is still to be
performed. A read of the status group that is due is performed at once and changes nothing but the reply and the list of what the host
has yet to do, so no result depends on how often the host reads. -/
def Obligations.BusyCoreHoldsTransactions : Prop :=
  (∀ s t : State, s.busy = true →
    (∀ p ∈ s.pending, p.txn ≠ .reset ∧
      ∀ n ∈ statusNumbers, p.txn ≠ .csrRead n ∧ p.txn ≠ .busRead (n.setWidth 32)) →
    step s = .next t →
    t.pending.map Pending.txn = s.pending.map Pending.txn ∧ t.reply = s.reply ∧
    step { s with pending := [] } = .next { t with pending := [] }) ∧
  (∀ (n : BitVec 8) (rest : List Pending) (s : State), s.busy = true → n ∈ statusNumbers →
    s.pending = { delay := 0, txn := .csrRead n } :: rest →
    ∃ v : Word, csrRead n s = .ok v ∧ step s = .next { s with pending := rest, reply := some (.word v) })

/-- R181: while a fault is recorded, on an idle core, every write but the CLRERR word to `CMD`, in either form of the port, is dropped;
every read works as usual: one that raises nothing returns its word, among them the reads of `STATUS` and of the record itself, and changes
only the reply; one that would raise returns 0 and leaves the record; `Reset` works. -/
def Obligations.RecordedFaultFreezesWrites : Prop :=
  ∀ (rest : List Pending) (s : State), s.busy = false → s.ecause ≠ 0 →
    (∀ n v, HostNext s (.csrWrite n v) rest → (n = 0x02 → v ≠ 7) → step s = .next { s with pending := rest }) ∧
    (∀ i v, HostNext s (.fWrite i v) rest → step s = .next { s with pending := rest }) ∧
    (∀ a v, HostNext s (.busWrite a v) rest → (a = 0x02 → v ≠ 7) → step s = .next { s with pending := rest }) ∧
    (HostNext s (.csrRead 0x01) rest → step s = .next (answered rest (.word (statusWord s)) s)) ∧
    (HostNext s (.csrRead 0x03) rest → step s = .next (answered rest (.word (BitVec.ofNat 256 s.ecause.toNat)) s)) ∧
    (HostNext s (.csrRead 0x04) rest → step s = .next (answered rest (.word (BitVec.ofNat 256 s.epc.toNat)) s)) ∧
    (HostNext s (.csrRead 0x05) rest → step s = .next (answered rest (.word s.einfo) s)) ∧
    (∀ n v, HostNext s (.csrRead n) rest → csrRead n s = .ok v → step s = .next (answered rest (.word v) s)) ∧
    (∀ i : Reg, HostNext s (.fRead i) rest → validF i.val s = true →
      step s = .next (answered rest (.word (BitVec.ofNat 256 (s.f[i.val]).val)) s)) ∧
    (∀ sp k idx r, HostNext s (.tabRead sp k idx) rest → tabRead sp k idx s = .ok r →
      step s = .next (answered rest r s)) ∧
    (∀ a v, HostNext s (.busRead a) rest → busRead a s = .ok v → step s = .next (answered rest (.word v) s)) ∧
    (∀ n c, HostNext s (.csrRead n) rest → csrRead n s = .error c → step s = .next (answered rest (.word 0) s)) ∧
    (∀ i, HostNext s (.fRead i) rest → validF i.val s = false → step s = .next (answered rest (.word 0) s)) ∧
    (∀ sp k idx c, HostNext s (.tabRead sp k idx) rest → tabRead sp k idx s = .error c →
      step s = .next (answered rest (if sp = .pms then .uop 0 else .word 0) s)) ∧
    (∀ a c, HostNext s (.busRead a) rest → busRead a s = .error c → step s = .next (answered rest (.word 0) s)) ∧
    (HostNext s .reset rest → ∃ t, step s = .next t ∧ t.ecause = 0)

/-- R21, R181, R182, R185: a step keeps a recorded fault as it is, unless it acknowledges it, which clears all three registers of the
record: the step performs a `Reset` that the host has pending, or, on an idle core, the host's next transaction, and that is the
write of the CLRERR word to `CMD`, in either form of the port. -/
def Obligations.RecordKeepsTheFirstFault : Prop :=
  ∀ s t : State, s.ecause ≠ 0 → step s = .next t →
    (t.ecause = s.ecause ∧ t.epc = s.epc ∧ t.einfo = s.einfo) ∨
    (t.ecause = 0 ∧ t.epc = 0 ∧ t.einfo = 0 ∧
      ((∃ p ∈ s.pending, p.txn = .reset) ∨ HostNext s (.csrWrite 0x02 7) t.pending ∨
        HostNext s (.busWrite 0x02 7) t.pending))

/-! ## Reset -/

/-- R29: the values that the spec states for reset; `PRIME`, `ALPHA` and `OORPOL` read their parameter values. -/
def Obligations.ResetStateValues : Prop :=
  State.reset.vf = 0 ∧ State.reset.vin = 0 ∧ State.reset.vdig = false ∧ State.reset.upc = 0 ∧
  State.reset.busy = false ∧ State.reset.done = false ∧ State.reset.ksel = 0 ∧ State.reset.umode = false ∧
  State.reset.hashop = false ∧ State.reset.round = 0 ∧ State.reset.phase = .idle ∧ State.reset.rccnt = 0 ∧
  State.reset.ecause = 0 ∧ State.reset.epc = 0 ∧ State.reset.einfo = 0 ∧ State.reset.pmlit = 0 ∧
  ∀ k : BankId, bankAt k State.reset =
    { t := 0, rf := 0, rp := 0, mdsRows := 0, mdsCols := 0, lock := false, uvalid := false,
      mem := { rcs := [], mdss := [], pms := [] } } ∧
    csrRead (bankCsr k 0x3) State.reset = .ok 5 ∧
    csrRead 0x00 State.reset = .ok (BitVec.ofNat 256 Config.P) ∧
    csrRead 0x06 State.reset = .ok (if State.reset.params.oorPolicy = .reject then 1 else 0)

/-- R200: `Reset` is performed at once, busy or not, faulted or not; it writes exactly the registers the rule lists, makes
the stores empty, and leaves the parameters. That `F`, `IN` and `DIGEST` keep their (unreadable) values is the model's choice, which
R200 allows (log entry 5). -/
def Obligations.ResetTransactionEffect : Prop :=
  ∀ (rest : List Pending) (s : State), s.pending = { delay := 0, txn := .reset } :: rest →
    ∃ t, step s = .next t ∧
      t = { State.reset with
        f := s.f, inp := s.inp, digest := s.digest, params := s.params, pending := rest, reply := s.reply,
        free := s.free }

/-! ## The host port -/

/-- R26: the fields of `STATUS`, bit by bit; every other bit reads 0; the register is read-only (a write raises, R25). -/
def Obligations.StatusWordFields : Prop :=
  ∀ s : State, csrRead 0x01 s = .ok (statusWord s) ∧
    (statusWord s).getLsbD 0 = s.busy ∧ (statusWord s).getLsbD 1 = s.done ∧
    (statusWord s).getLsbD 2 = decide (s.ecause ≠ 0) ∧
    (statusWord s).getLsbD 3 = s.bank0.lock ∧ (statusWord s).getLsbD 4 = s.bank1.lock ∧
    (statusWord s).getLsbD 5 = s.bank0.uvalid ∧ (statusWord s).getLsbD 6 = s.bank1.uvalid ∧
    (statusWord s).getLsbD 7 = s.vdig ∧ (statusWord s).getLsbD 8 = decide (s.ksel = 1) ∧
    (statusWord s).getLsbD 9 = s.umode ∧
    (∀ i, 10 ≤ i → i < 16 → (statusWord s).getLsbD i = false) ∧
    (∀ i < 16, (statusWord s).getLsbD (16 + i) = s.vf.getLsbD i) ∧
    (∀ i < 4, (statusWord s).getLsbD (32 + i) = s.vin.getLsbD i) ∧
    (∀ i, 36 ≤ i → (statusWord s).getLsbD i = false) ∧
    ∀ v, csrPut 0x01 v s = .error (.badIndex 0x01)

/-- R25: the registers read as the table says, and a number that is not in the table raises `BadIndex` with the number; a
write of a read-only register or of a number not in the table raises the same. Of `SEQ`'s low 16 bits it says that they are the number of
completed rounds where they hold it (log entry 3). -/
def Obligations.CsrMapReads : Prop :=
  ∀ (s : State) (k : BankId),
    (csrRead 0x00 s = .ok (BitVec.ofNat 256 Config.P) ∧ csrRead 0x02 s = .ok 0 ∧
      csrRead 0x03 s = .ok (BitVec.ofNat 256 s.ecause.toNat) ∧ csrRead 0x04 s = .ok (BitVec.ofNat 256 s.epc.toNat) ∧
      csrRead 0x05 s = .ok s.einfo ∧
      csrRead 0x06 s = .ok (if s.params.oorPolicy = .reject then 1 else 0) ∧
      csrRead 0x07 s = .ok (BitVec.ofNat 256 s.upc.toNat) ∧ csrRead 0x08 s = .ok (BitVec.ofNat 256 s.rccnt.toNat) ∧
      (∃ r : BitVec 16, (s.round < 2 ^ 16 → r.toNat = s.round) ∧
        csrRead 0x0A s = .ok (BitVec.ofNat 256 (r.toNat + 2 ^ 16 * phaseNumber s.phase))) ∧
      csrRead 0x0B s = .ok s.pmlit) ∧
    (csrRead (bankCsr k 0x0) s = .ok (BitVec.ofNat 256 (bankAt k s).t.toNat) ∧
      csrRead (bankCsr k 0x1) s = .ok (BitVec.ofNat 256 (bankAt k s).rf.toNat) ∧
      csrRead (bankCsr k 0x2) s = .ok (BitVec.ofNat 256 (bankAt k s).rp.toNat) ∧
      csrRead (bankCsr k 0x3) s = .ok 5 ∧
      csrRead (bankCsr k 0x4) s = .ok (BitVec.ofNat 256 ((bankAt k s).mem.rcs.length % 2 ^ 32)) ∧
      csrRead (bankCsr k 0x7) s = .ok (BitVec.ofNat 256 ((bankAt k s).mem.mdss.length % 2 ^ 32)) ∧
      csrRead (bankCsr k 0x8) s = .ok (BitVec.ofNat 256 ((bankAt k s).mem.pms.length % 2 ^ 32)) ∧
      csrRead (bankCsr k 0x5) s = .ok (BitVec.ofNat 256 (bankAt k s).mdsRows.toNat) ∧
      csrRead (bankCsr k 0x6) s = .ok (BitVec.ofNat 256 (bankAt k s).mdsCols.toNat) ∧
      csrRead (bankCsr k 0x9) s = .ok (BitVec.ofNat 256 ((bankAt k s).lock.toNat + 2 * (bankAt k s).uvalid.toNat)) ∧
      csrRead (bankCsr k 0xA) s = .ok 0 ∧ csrRead (bankCsr k 0xB) s = .ok 0 ∧ csrRead (bankCsr k 0xC) s = .ok 0) ∧
    (∀ n : BitVec 8, 0x0C ≤ n.toNat ∧ n.toNat ≤ 0x0F ∨ 0x14 ≤ n.toNat ∧ n.toNat ≤ 0x1F ∨
        0x2D ≤ n.toNat ∧ n.toNat ≤ 0x2F ∨ 0x3D ≤ n.toNat →
      csrRead n s = .error (.badIndex n.toNat) ∧ ∀ v, csrPut n v s = .error (.badIndex n.toNat)) ∧
    (∀ n ∈ [0x00#8, 0x01, 0x03, 0x04, 0x05, 0x06, 0x07, 0x08, 0x09, 0x0A, bankCsr k 0x3, bankCsr k 0x4,
        bankCsr k 0x7, bankCsr k 0x8, bankCsr k 0x9],
      ∀ v, csrPut n v s = .error (.badIndex n.toNat))

/-- R141, R142, R47: a write of `F[i]` or of `IN[i]` stores a value below `P` as it is; under `REDUCE` it stores any other value
modulo `P`; under `REJECT` such a value raises `InvalidFieldElement` with the value and writes nothing. -/
def Obligations.RangePolicyAtWritePorts : Prop :=
  ∀ (v : Word) (s : State), s.ecause = 0 →
    (v.toNat < Config.P ∨ s.params.oorPolicy = .reduce →
      (∀ i : Reg, ∃ x : Fe, x.val = v.toNat % Config.P ∧
        perform (.fWrite i v) s = .next { s with f := s.f.set i.val x, vf := s.vf ||| BitVec.twoPow 16 i.val }) ∧
      (∀ i : Fin 4, ∃ x : Fe, x.val = v.toNat % Config.P ∧
        perform (.csrWrite (BitVec.ofNat 8 (0x10 + i.val)) v) s =
          .next { s with inp := s.inp.set i.val x, vin := s.vin ||| BitVec.twoPow 4 i.val })) ∧
    (Config.P ≤ v.toNat → s.params.oorPolicy = .reject →
      (∀ i : Reg, perform (.fWrite i v) s = .next (hostFault s 1 v)) ∧
      (∀ i : Fin 4, perform (.csrWrite (BitVec.ofNat 8 (0x10 + i.val)) v) s = .next (hostFault s 1 v)))

/-- R13, R18, R19, R47, R142, R181: a read of `F[i]`, `IN[i]` or `DIGEST` returns the value, zero-extended, when it is valid, faulted or
not, and changes only the reply; when it is not valid it returns 0 and raises `UninitRead` with `i`, `16 + i` or 20, and while a fault is
recorded it returns 0 and changes nothing else. -/
def Obligations.ReadsThroughValidBits : Prop :=
  ∀ s : State,
    (∀ i : Reg, validF i.val s = true →
      perform (.fRead i) s = .next { s with reply := some (.word (BitVec.ofNat 256 (s.f[i.val]).val)) }) ∧
    (∀ i : Fin 4, validIn i.val s = true → perform (.csrRead (BitVec.ofNat 8 (0x10 + i.val))) s =
      .next { s with reply := some (.word (BitVec.ofNat 256 (s.inp[i.val]).val)) }) ∧
    (s.vdig = true →
      perform (.csrRead 0x09) s = .next { s with reply := some (.word (BitVec.ofNat 256 s.digest.val)) }) ∧
    (∀ i : Reg, validF i.val s = false → perform (.fRead i) s =
      .next { ifUnfaulted s (hostFault s 7 (BitVec.ofNat 256 i.val)) with reply := some (.word 0) }) ∧
    (∀ i : Fin 4, validIn i.val s = false → perform (.csrRead (BitVec.ofNat 8 (0x10 + i.val))) s =
      .next { ifUnfaulted s (hostFault s 7 (BitVec.ofNat 256 (16 + i.val))) with reply := some (.word 0) }) ∧
    (s.vdig = false → perform (.csrRead 0x09) s =
      .next { ifUnfaulted s (hostFault s 7 20) with reply := some (.word 0) })

/-- R23, R25: a write of `T`, `RF`, `RP`, `MDSROWS` or `MDSCOLS` of a locked bank raises `LockedWrite` with the CSR number; a value of
2^16 or more raises `ConfigError` reason 8 with the CSR number as index; any other value is stored as written. -/
def Obligations.ConfigurationRegisterWrites : Prop :=
  ∀ (k : BankId) (v : Word) (s : State), s.ecause = 0 →
    (∀ o ∈ [0x0, 0x1, 0x2, 0x5, 0x6],
      ((bankAt k s).lock = true →
        perform (.csrWrite (bankCsr k o) v) s = .next (hostFault s 9 (BitVec.ofNat 256 (bankCsr k o).toNat))) ∧
      ((bankAt k s).lock = false → 2 ^ 16 ≤ v.toNat →
        perform (.csrWrite (bankCsr k o) v) s =
          .next (hostFault s 2 (reasonWord 8 k.val 0 (bankCsr k o).toNat)))) ∧
    ((bankAt k s).lock = false → v.toNat < 2 ^ 16 →
      perform (.csrWrite (bankCsr k 0x0) v) s = .next (setBank k { bankAt k s with t := v.setWidth 16 } s) ∧
      perform (.csrWrite (bankCsr k 0x1) v) s = .next (setBank k { bankAt k s with rf := v.setWidth 16 } s) ∧
      perform (.csrWrite (bankCsr k 0x2) v) s = .next (setBank k { bankAt k s with rp := v.setWidth 16 } s) ∧
      perform (.csrWrite (bankCsr k 0x5) v) s = .next (setBank k { bankAt k s with mdsRows := v.setWidth 16 } s) ∧
      perform (.csrWrite (bankCsr k 0x6) v) s = .next (setBank k { bankAt k s with mdsCols := v.setWidth 16 } s))

/-- R44, R45: a push to the round-constant store or to the matrix store: `LockedWrite`, then `ConfigError` reason 5 with the table bit and
the store's length as index, then `BadIndex` when the store is full; else the value is appended as it is, under either range
policy. -/
def Obligations.TablePushes : Prop :=
  ∀ (k : BankId) (v : Word) (s : State), s.ecause = 0 →
    ((bankAt k s).lock = true → ∀ o ∈ [0xA, 0xB], perform (.csrWrite (bankCsr k o) v) s =
      .next (hostFault s 9 (BitVec.ofNat 256 (bankCsr k o).toNat))) ∧
    ((bankAt k s).lock = false → Config.P ≤ v.toNat →
      ((bankAt k s).mem.rcs.length < 2 ^ 32 → perform (.csrWrite (bankCsr k 0xA) v) s =
        .next (hostFault s 2 (reasonWord 5 k.val 0 (bankAt k s).mem.rcs.length))) ∧
      ((bankAt k s).mem.mdss.length < 2 ^ 32 → perform (.csrWrite (bankCsr k 0xB) v) s =
        .next (hostFault s 2 (reasonWord 5 k.val 1 (bankAt k s).mem.mdss.length)))) ∧
    ((bankAt k s).lock = false → ∀ h : v.toNat < Config.P,
      ((bankAt k s).mem.rcs.length = s.params.rcCap → perform (.csrWrite (bankCsr k 0xA) v) s =
        .next (hostFault s 8 (BitVec.ofNat 256 (bankCsr k 0xA).toNat))) ∧
      ((bankAt k s).mem.mdss.length = s.params.mdsCap → perform (.csrWrite (bankCsr k 0xB) v) s =
        .next (hostFault s 8 (BitVec.ofNat 256 (bankCsr k 0xB).toNat))) ∧
      ((bankAt k s).mem.rcs.length < s.params.rcCap → perform (.csrWrite (bankCsr k 0xA) v) s =
        .next (setBank k { bankAt k s with
          mem := { (bankAt k s).mem with rcs := (bankAt k s).mem.rcs ++ [⟨v.toNat, h⟩] } } s)) ∧
      ((bankAt k s).mem.mdss.length < s.params.mdsCap → perform (.csrWrite (bankCsr k 0xB) v) s =
        .next (setBank k { bankAt k s with
          mem := { (bankAt k s).mem with mdss := (bankAt k s).mem.mdss ++ [⟨v.toNat, h⟩] } } s)))

/-- R46, R22: a push to the program store: `LockedWrite`, then `BadIndex` for a value of 2^32 or more, then `BadIndex` when the store
is full; else the word `v[31:0] ‖ PMLIT` is appended, legal or not, and `PMLIT` is not changed. `PMLIT` itself resets to 0, a write of it
stores any 256-bit value as written, under either range policy and whether banks are locked or not, and changes nothing else, and a read
returns it. -/
def Obligations.ProgramPush : Prop :=
  (State.reset.pmlit = 0 ∧
    ∀ s : State, perform (.csrRead 0x0B) s = .next { s with reply := some (.word s.pmlit) }) ∧
  ∀ (k : BankId) (v : Word) (s : State), s.ecause = 0 →
    perform (.csrWrite 0x0B v) s = .next { s with pmlit := v } ∧
    ((bankAt k s).lock = true → perform (.csrWrite (bankCsr k 0xC) v) s =
      .next (hostFault s 9 (BitVec.ofNat 256 (bankCsr k 0xC).toNat))) ∧
    ((bankAt k s).lock = false → 2 ^ 32 ≤ v.toNat ∨ (bankAt k s).mem.pms.length = s.params.pmCap →
      perform (.csrWrite (bankCsr k 0xC) v) s = .next (hostFault s 8 (BitVec.ofNat 256 (bankCsr k 0xC).toNat))) ∧
    ((bankAt k s).lock = false → v.toNat < 2 ^ 32 → (bankAt k s).mem.pms.length < s.params.pmCap →
      perform (.csrWrite (bankCsr k 0xC) v) s = .next (setBank k { bankAt k s with
        mem := { (bankAt k s).mem with
          pms := (bankAt k s).mem.pms ++ [BitVec.ofNat 288 (v.toNat * 2 ^ 256 + s.pmlit.toNat)] } } s))

/-- R48: `TabRead` returns the entry below the store's length, has no side effect then, and otherwise returns 0 and raises
`BadIndex` with the bus address of R49, whether the bank is locked or not. An index of 2^22 or more has no bus address (R49): of its
`EINFO` the statement says nothing. With a fault recorded a read below the length works as ever, and one that would raise returns 0 and
changes nothing else (R181). -/
def Obligations.TableReads : Prop :=
  ∀ (k : BankId) (idx : Nat) (s : State),
    (∀ x, (bankAt k s).mem.rcs[idx]? = some x →
      perform (.tabRead .rcs k idx) s = .next { s with reply := some (.word (BitVec.ofNat 256 x.val)) }) ∧
    (∀ x, (bankAt k s).mem.mdss[idx]? = some x →
      perform (.tabRead .mdss k idx) s = .next { s with reply := some (.word (BitVec.ofNat 256 x.val)) }) ∧
    (∀ w, (bankAt k s).mem.pms[idx]? = some w →
      perform (.tabRead .pms k idx) s = .next { s with reply := some (.uop w) }) ∧
    ((bankAt k s).mem.rcs.length ≤ idx → ∃ info : Word,
      (idx < 2 ^ 22 → info.toNat = 0x01000000 * (k.val + 1) + idx) ∧
      perform (.tabRead .rcs k idx) s =
        .next { ifUnfaulted s (hostFault s 8 info) with reply := some (.word 0) }) ∧
    ((bankAt k s).mem.mdss.length ≤ idx → ∃ info : Word,
      (idx < 2 ^ 22 → info.toNat = 0x01000000 * (k.val + 1) + 0x400000 + idx) ∧
      perform (.tabRead .mdss k idx) s =
        .next { ifUnfaulted s (hostFault s 8 info) with reply := some (.word 0) }) ∧
    ((bankAt k s).mem.pms.length ≤ idx → ∃ info : Word,
      (idx < 2 ^ 22 → info.toNat = 0x01000000 * (k.val + 1) + 0x800000 + 2 * idx) ∧
      perform (.tabRead .pms k idx) s =
        .next { ifUnfaulted s (hostFault s 8 info) with reply := some (.uop 0) })

/-- R49: the bus map. A bus access to a CSR, an `F[i]` or a table address does what the transaction does; the two halves of a
program word are at two addresses; any other address raises `BadIndex` with the address. -/
def Obligations.BusMapSelects : Prop :=
  ∀ (a : BitVec 32) (v : Word) (s : State),
    (∀ n : BitVec 8, a.toNat = n.toNat →
      perform (.busRead a) s = perform (.csrRead n) s ∧ perform (.busWrite a v) s = perform (.csrWrite n v) s) ∧
    (∀ i : Reg, a.toNat = 0x100 + i.val →
      perform (.busRead a) s = perform (.fRead i) s ∧ perform (.busWrite a v) s = perform (.fWrite i v) s) ∧
    (∀ (k : BankId) (idx : Nat), idx < 2 ^ 22 →
      (a.toNat = 0x01000000 * (k.val + 1) + idx →
        perform (.busRead a) s = perform (.tabRead .rcs k idx) s) ∧
      (a.toNat = 0x01000000 * (k.val + 1) + 0x400000 + idx →
        perform (.busRead a) s = perform (.tabRead .mdss k idx) s) ∧
      (a.toNat = 0x01000000 * (k.val + 1) + 0x800000 + 2 * idx → ∀ w, (bankAt k s).mem.pms[idx]? = some w →
        busRead a s = .ok (BitVec.ofNat 256 (w.toNat / 2 ^ 256))) ∧
      (a.toNat = 0x01000000 * (k.val + 1) + 0x800000 + 2 * idx + 1 → ∀ w, (bankAt k s).mem.pms[idx]? = some w →
        busRead a s = .ok (BitVec.ofNat 256 (w.toNat % 2 ^ 256))) ∧
      (a.toNat = 0x01000000 * (k.val + 1) + 0x800000 + 2 * idx ∨
          a.toNat = 0x01000000 * (k.val + 1) + 0x800000 + 2 * idx + 1 → (bankAt k s).mem.pms.length ≤ idx →
        busRead a s = .error (.badIndex a.toNat))) ∧
    (0x110 ≤ a.toNat → s.ecause = 0 →
      perform (.busWrite a v) s = .next (hostFault s 8 (BitVec.ofNat 256 a.toNat))) ∧
    (0x110 ≤ a.toNat ∧ a.toNat < 0x01000000 ∨ 0x03000000 ≤ a.toNat → s.ecause = 0 →
      perform (.busRead a) s =
        .next { hostFault s 8 (BitVec.ofNat 256 a.toNat) with reply := some (.word 0) })

/-! ## Templates, schedule, generator -/

/-- R104: `ARC.t` from a state whose slots are valid: `F[5+i]` becomes `add(F[i], c_i)`, every other register stays, `RCCNT` and
`upc` grow by `t`, and nothing else changes. -/
def Obligations.ArcTemplateAddsConstants : Prop :=
  ∀ (t : Nat) (c : Nat → Fe) (s : State), t = 3 ∨ t = 5 → (∀ i < t, validF i s = true) →
    ∃ s', runList (arcTemplate t c) s = .ok s' ∧
      (∀ i : Reg, s'.f[i.val] = if 5 ≤ i.val ∧ i.val < 5 + t
        then feAdd s.f[i.val - 5] (c (i.val - 5)) else s.f[i.val]) ∧
      (∀ i : Reg, validF i.val s' = (validF i.val s || decide (5 ≤ i.val ∧ i.val < 5 + t))) ∧
      s' = { s with f := s'.f, vf := s'.vf, upc := s.upc + BitVec.ofNat 32 t,
                    rccnt := s.rccnt + BitVec.ofNat 32 t }

/-- R105, R106: `SBOXF.t` raises every `w_i` to the fifth power and `SBOXP` only `w_0`; `x2` and `x4` end holding the square and
the fourth power of the last one; every other register stays; `upc` grows by three for each S-box. -/
def Obligations.SboxTemplatesRaiseToFifth : Prop :=
  ∀ (t : Nat) (full : Bool) (s : State), t = 3 ∨ t = 5 → (∀ i < t, validF (5 + i) s = true) →
    let n := if full then t else 1
    ∃ s', runList (if full then sboxFullTemplate t else sboxPartialTemplate) s = .ok s' ∧
      (∀ i : Reg, i.val ≠ 10 → i.val ≠ 11 → s'.f[i.val] = if 5 ≤ i.val ∧ i.val < 5 + n
        then sbox s.f[i.val] else s.f[i.val]) ∧
      (∀ j : Reg, j.val = 4 + n → s'.f[10] = feMul s.f[j.val] s.f[j.val] ∧ s'.f[11] = feMul s'.f[10] s'.f[10]) ∧
      (∀ i : Reg, validF i.val s' = (validF i.val s || decide (i.val = 10 ∨ i.val = 11))) ∧
      s' = { s with f := s'.f, vf := s'.vf, upc := s.upc + BitVec.ofNat 32 (3 * n) }

/-- R107: `MIX.t` replaces `F[0..t-1]` by the matrix times the working vector, keeps the working vector, leaves the last product
in `F[12]`, keeps every other register, and advances `upc` by `2*t*t - t`. -/
def Obligations.MixTemplateMultipliesMatrix : Prop :=
  ∀ (t : Nat) (m : Nat → Nat → Fe) (s : State), t = 3 ∨ t = 5 → (∀ i < t, validF (5 + i) s = true) →
    ∃ s', runList (mixTemplate t m) s = .ok s' ∧
      (∀ i : Reg, i.val < t →
        (s'.f[i.val]).val = ((List.range t).map fun j => (m i.val j).val * (s.f.toList.getD (5 + j) feZero).val).sum
          % Config.P) ∧
      (∀ j : Reg, j.val = 4 + t → s'.f[12] = feMul s.f[j.val] (m (t - 1) (t - 1))) ∧
      (∀ i : Reg, t ≤ i.val → i.val ≠ 12 → s'.f[i.val] = s.f[i.val]) ∧
      (∀ i : Reg, validF i.val s' = (validF i.val s || decide (i.val < t ∨ i.val = 12))) ∧
      s' = { s with f := s'.f, vf := s'.vf, upc := s.upc + BitVec.ofNat 32 (2 * t * t - t) }

/-- R101: of the `R` rounds of a bank with an even `RF`, exactly `RF` are full and `RP` partial, and the full rounds are the first
`RF/2` and the last `RF/2`. -/
def Obligations.ScheduleHasDeclaredRounds : Prop :=
  ∀ b : Bank, b.rf.toNat % 2 = 0 →
    ((List.range (b.rf.toNat + b.rp.toNat)).filter (isFull b)).length = b.rf.toNat ∧
    ((List.range (b.rf.toNat + b.rp.toNat)).filter fun r => !isFull b r).length = b.rp.toNat ∧
    ∀ r < b.rf.toNat + b.rp.toNat,
      (isFull b r = true ↔ r < b.rf.toNat / 2 ∨ b.rf.toNat + b.rp.toNat - b.rf.toNat / 2 ≤ r)

/-- R123: `Gen(k)` has `NOPS(k)` words, by kind `t*R` FADDI, `3*(t*RF + RP)` FMUL, `t*t*R` FMULI and `t*(t-1)*R` FADD; a full round has
`2*t*t + 3*t` words and a partial one `2*t*t + 3`. -/
def Obligations.GeneratedProgramSize : Prop :=
  ∀ (k : BankId) (b : Bank), WellConfigured k b →
    let t := b.t.toNat
    let R := b.rf.toNat + b.rp.toNat
    (genWords b).length = programLength b ∧ (genList b).length = programLength b ∧
    ((genList b).countP fun i => match i with | .faddi _ _ _ => true | _ => false) = t * R ∧
    ((genList b).countP fun i => match i with | .fmul _ _ _ => true | _ => false) =
      3 * (t * b.rf.toNat + b.rp.toNat) ∧
    ((genList b).countP fun i => match i with | .fmuli _ _ _ => true | _ => false) = t * t * R ∧
    ((genList b).countP fun i => match i with | .fadd _ _ _ => true | _ => false) = t * (t - 1) * R ∧
    ∀ r < R, (roundList b r).length = if isFull b r then 2 * t * t + 3 * t else 2 * t * t + 3

/-- R124: every word of `Gen(k)` decodes to the micro-operation it was made from, and the literals of its FADDI words, in program
order, are exactly the round-constant table. -/
def Obligations.GeneratedConstantsInOrder : Prop :=
  ∀ (k : BankId) (b : Bank), WellConfigured k b →
    (genWords b).map decodeUop = (genList b).map .ok ∧
    (genList b).filterMap (fun i => match i with | .faddi _ _ lit => some lit.toNat | _ => none) =
      b.mem.rcs.map fun x => x.val

/-- R125, R117: `Gen(k)`, run word by word from any register file whose `F[0..t-1]` hold a state, raises nothing and ends with
`Perm_k` of the state there, `upc` grown by `NOPS(k)` and `RCCNT` by `t*R`, the registers it does not name as they were, and nothing but
`F`, `VF`, `upc` and `RCCNT` changed. -/
def Obligations.GeneratedProgramComputesPermutation : Prop :=
  ∀ (k : BankId) (s : State), WellConfigured k (bankAt k s) → (∀ i < bankWidth k, validF i s = true) →
    ∃ s', runList (genList (bankAt k s)) s = .ok s' ∧
      stateVector (bankWidth k) s' = perm (bankAt k s) (stateVector (bankWidth k) s) ∧
      (∀ i : Reg, Untouched k i.val → s'.f[i.val] = s.f[i.val] ∧ validF i.val s' = validF i.val s) ∧
      s' = { s with
        f := s'.f, vf := s'.vf,
        upc := s.upc + BitVec.ofNat 32 (programLength (bankAt k s)),
        rccnt := s.rccnt + BitVec.ofNat 32 ((bankAt k s).t.toNat * ((bankAt k s).rf.toNat + (bankAt k s).rp.toNat)) }

/-! ## Runs of the engine -/

/-- R110, R112, R114 to R117: a started loop-mode run, of any number of rounds, ends after `3*R + 1` engine steps, with no fault, `DONE` set,
`F[0..t-1]` holding `Perm_k` of the state it started from, `R` completed rounds, `upc = NOPS(k)`, `RCCNT = t*R`, the digest under HASHOP,
and everything else as it was; the count of free values drawn, the model's own field (log entry 3), moves only where `R` leaves the 16 bits
of `ROUND`. -/
def Obligations.LoopRunComputesPermutation : Prop :=
  ∀ (k : BankId) (hop : Bool) (s : State), s.Inv → (bankAt k s).lock = true →
    s.busy = false → s.ecause = 0 → (∀ i < bankWidth k, validF i s = true) →
    ∃ t, steps (3 * ((bankAt k s).rf.toNat + (bankAt k s).rp.toNat) + 1)
        { started k false hop s with pending := [] } = .next t ∧
      stateVector (bankWidth k) t = perm (bankAt k s) (stateVector (bankWidth k) s) ∧
      (hop = true → t.digest = t.f[0]) ∧ (hop = false → t.digest = s.digest) ∧
      (∀ i : Reg, Untouched k i.val → t.f[i.val] = s.f[i.val] ∧ validF i.val t = validF i.val s) ∧
      ((bankAt k s).rf.toNat + (bankAt k s).rp.toNat < 2 ^ 16 → t.free = s.free) ∧
      t = { started k false hop s with
        free := t.free, pending := [], f := t.f, vf := t.vf, digest := t.digest, vdig := hop, busy := false, done := true,
        round := (bankAt k s).rf.toNat + (bankAt k s).rp.toNat, phase := .idle,
        upc := BitVec.ofNat 32 (programLength (bankAt k s)),
        rccnt := BitVec.ofNat 32 ((bankAt k s).t.toNat * ((bankAt k s).rf.toNat + (bankAt k s).rp.toNat)) }

/-- R112, R125: the two modes agree. From one state, every state that a loop-mode run passes through has the `F`, `VF`, `upc` and `RCCNT` that
the unrolled run of `Gen(k)` has after its first `upc` words; and the two runs end with the same `F`, `VF`, `upc`, `RCCNT`, `DIGEST` and
`VDIG`, register for register. -/
def Obligations.LoopAndUnrolledModesAgree : Prop :=
  ∀ (k : BankId) (hop : Bool) (s : State), s.Inv → (bankAt k s).lock = true → ProgramIsGen k s →
    s.busy = false → s.ecause = 0 → (∀ i < bankWidth k, validF i s = true) →
    (∀ n ≤ 3 * ((bankAt k s).rf.toNat + (bankAt k s).rp.toNat), ∃ t u,
      steps n { started k false hop s with pending := [] } = .next t ∧
      steps t.upc.toNat { started k true hop s with pending := [] } = .next u ∧
      t.f = u.f ∧ t.vf = u.vf ∧ t.upc = u.upc ∧ t.rccnt = u.rccnt) ∧
    ∃ t u, steps (3 * ((bankAt k s).rf.toNat + (bankAt k s).rp.toNat) + 1)
        { started k false hop s with pending := [] } = .next t ∧
      steps (programLength (bankAt k s) + 1) { started k true hop s with pending := [] } = .next u ∧
      t.busy = false ∧ u.busy = false ∧
      t.f = u.f ∧ t.vf = u.vf ∧ t.upc = u.upc ∧ t.rccnt = u.rccnt ∧ t.digest = u.digest ∧ t.vdig = u.vdig

/-- R147, R148, R149: the digest of a hash. On an idle core with the bank locked and the inputs valid, the command word written to `CMD` and
then the loop-mode run leave in `DIGEST` slot 0 of `Perm_k` of the capacity element 0 followed by the inputs in order. -/
def Obligations.HashDigestIsSlotZeroOfPermutation : Prop :=
  ∀ s : State, s.Inv → s.busy = false → s.ecause = 0 →
    (s.bank0.lock = true → (∀ i < 2, validIn i s = true) →
      ∃ t, steps (3 * (s.bank0.rf.toNat + s.bank0.rp.toNat) + 2)
          { s with pending := [{ delay := 0, txn := .csrWrite 0x02 0x00000003 }] } = .next t ∧
        t.busy = false ∧ t.done = true ∧ t.ecause = 0 ∧ t.vdig = true ∧
        some t.digest = (perm s.bank0 (spongeState [s.inp[0], s.inp[1]]))[0]?) ∧
    (s.bank1.lock = true → (∀ i < 4, validIn i s = true) →
      ∃ t, steps (3 * (s.bank1.rf.toNat + s.bank1.rp.toNat) + 2)
          { s with pending := [{ delay := 0, txn := .csrWrite 0x02 0x00000104 }] } = .next t ∧
        t.busy = false ∧ t.done = true ∧ t.ecause = 0 ∧ t.vdig = true ∧
        some t.digest = (perm s.bank1 (spongeState [s.inp[0], s.inp[1], s.inp[2], s.inp[3]]))[0]?)

/-! ## Invariants -/

/-- The state after reset meets the invariant. -/
def Obligations.ResetMeetsInvariant : Prop := State.reset.Inv

/-- Every step, of the engine or of the host, keeps the invariant: the stores within their capacities, locked banks well formed
and their `UVALID` right, the record's codes and its emptiness, the sequencer's and the program counter's ranges, the valid bits a run
relies on. -/
def Obligations.StepKeepsInvariant : Prop := ∀ s t : State, s.Inv → step s = .next t → t.Inv

/-- A state of the invariant takes a step: the core never stops; every fault of the spec is a recorded one (R180). For an idle core whose
host has nothing to do this is the model's choice (log entry 15): there R193 and R201 say that the core takes no step, and the next state
is the model's stutter step. -/
def Obligations.InvariantStateStepsOn : Prop := ∀ s : State, s.Inv → ∃ t, step s = .next t

/-- R115: under the invariant a loop-mode step with no transaction of the host due records no fault. -/
def Obligations.LoopModeRaisesNoFault : Prop :=
  ∀ s : State, s.Inv → s.busy = true → s.umode = false → s.pending = [] →
    ∃ t, step s = .next t ∧ t.ecause = 0 ∧ t.epc = 0 ∧ t.einfo = 0

/-- R58, R24, R54: no step changes a locked bank, its configuration, its stores or its lifecycle bits, except `Reset`, which puts the
bank in its reset state; and no step ever changes the parameters. -/
def Obligations.LockedBankIsImmutable : Prop :=
  ∀ (k : BankId) (s t : State), step s = .next t →
    t.params = s.params ∧
    ((bankAt k s).lock = true → bankAt k t = bankAt k s ∨ (bankAt k t = Bank.reset ∧
      ∃ p ∈ s.pending, p.txn = .reset))

/-- R13, R200: no step clears a valid bit of `F` or `IN`, except `Reset`, which clears them all. -/
def Obligations.OnlyResetClearsValidBits : Prop :=
  ∀ s t : State, step s = .next t →
    ((∀ i : Reg, validF i.val s = true → validF i.val t = true) ∧
      (∀ i : Fin 4, validIn i.val s = true → validIn i.val t = true)) ∨
    (t.vf = 0 ∧ t.vin = 0 ∧ ∃ p ∈ s.pending, p.txn = .reset)

/-- R116: an engine that runs under the invariant, with no transaction of the host to come, stops: within `3*R + 1` steps in loop mode, for
every number of rounds, and `PLEN + 1` in unrolled mode `BUSY` is 0; and a loop-mode step never moves the number of completed rounds
back. -/
def Obligations.EngineTerminates : Prop :=
  ∀ s : State, s.Inv → s.busy = true → s.pending = [] →
    (s.umode = false → ∀ t, step s = .next t → s.round ≤ t.round) ∧
    ∃ n t, n ≤ (if s.umode then (bankAt s.ksel s).mem.pms.length + 1
        else 3 * ((bankAt s.ksel s).rf.toNat + (bankAt s.ksel s).rp.toNat) + 1) ∧
      steps n s = .next t ∧ t.busy = false
end

