-- ==== Sys2Proof/Laws/Encoding.lean ====
section
/-! SUPPORT. The fields of the two formats read back what was put into them (30_encoding.md R61, R66). -/

namespace Sys2Proof

theorem regOf_regBits (r : Reg) : regOf (regBits r) = r := by
  apply Fin.ext
  simp [regOf, regBits]

theorem bankOf_bankBit (k : BankId) : bankOf (bankBit k) = k := by
  revert k; decide

/-! ## Format U -/

variable (op : BitVec 8) (rd rs1 : Reg) (rs2 : BitVec 4) (lit : Word)

@[simp] theorem uopOp_formatU : uopOp (formatU op rd rs1 rs2 lit) = op := by
  apply BitVec.eq_of_getLsbD_eq
  intro i hi
  simp only [uopOp, formatU, BitVec.getLsbD_extractLsb', BitVec.getLsbD_append, hi, decide_true, Bool.true_and]
  simp (disch := omega) only [if_pos, if_neg]
  exact congrArg _ (by omega)

@[simp] theorem uopRd_formatU : uopRd (formatU op rd rs1 rs2 lit) = rd := by
  have h : (formatU op rd rs1 rs2 lit).extractLsb' 276 4 = regBits rd := by
    apply BitVec.eq_of_getLsbD_eq
    intro i hi
    simp only [formatU, BitVec.getLsbD_extractLsb', BitVec.getLsbD_append, hi, decide_true, Bool.true_and]
    simp (disch := omega) only [if_pos, if_neg]
    exact congrArg _ (by omega)
  rw [uopRd, h, regOf_regBits]

@[simp] theorem uopRs1_formatU : uopRs1 (formatU op rd rs1 rs2 lit) = rs1 := by
  have h : (formatU op rd rs1 rs2 lit).extractLsb' 272 4 = regBits rs1 := by
    apply BitVec.eq_of_getLsbD_eq
    intro i hi
    simp only [formatU, BitVec.getLsbD_extractLsb', BitVec.getLsbD_append, hi, decide_true, Bool.true_and]
    simp (disch := omega) only [if_pos, if_neg]
    exact congrArg _ (by omega)
  rw [uopRs1, h, regOf_regBits]

@[simp] theorem uopRs2Bits_formatU : uopRs2Bits (formatU op rd rs1 rs2 lit) = rs2 := by
  apply BitVec.eq_of_getLsbD_eq
  intro i hi
  simp only [uopRs2Bits, formatU, BitVec.getLsbD_extractLsb', BitVec.getLsbD_append, hi, decide_true,
    Bool.true_and]
  simp (disch := omega) only [if_pos, if_neg]
  exact congrArg _ (by omega)

@[simp] theorem uopRes_formatU : uopRes (formatU op rd rs1 rs2 lit) = 0 := by
  apply BitVec.eq_of_getLsbD_eq
  intro i hi
  simp only [uopRes, formatU, BitVec.getLsbD_extractLsb', BitVec.getLsbD_append, hi, decide_true, Bool.true_and]
  simp (disch := omega) only [if_pos, if_neg]
  simp

@[simp] theorem uopLit_formatU : uopLit (formatU op rd rs1 rs2 lit) = lit := by
  apply BitVec.eq_of_getLsbD_eq
  intro i hi
  simp only [uopLit, formatU, BitVec.getLsbD_extractLsb', BitVec.getLsbD_append, hi, decide_true, Bool.true_and]
  simp (disch := omega) only [if_pos]
  exact congrArg _ (by omega)

/-! ## Format C -/

variable (len : BitVec 8) (u : Bool) (k : BankId) (cop : BitVec 8)

@[simp] theorem cmdLen_formatC : cmdLen (formatC len u k cop) = len := by
  apply BitVec.eq_of_getLsbD_eq
  intro i hi
  simp only [cmdLen, formatC, BitVec.getLsbD_extractLsb', BitVec.getLsbD_append, hi, decide_true, Bool.true_and]
  simp (disch := omega) only [if_pos, if_neg]
  exact congrArg _ (by omega)

@[simp] theorem cmdU_formatC : cmdU (formatC len u k cop) = u := by
  simp only [cmdU, formatC, BitVec.getLsbD_append]
  simp

@[simp] theorem cmdK_formatC : cmdK (formatC len u k cop) = k := by
  have h : (formatC len u k cop).getLsbD 8 = bankBit k := by
    simp only [formatC, BitVec.getLsbD_append]
    simp
  rw [cmdK, h, bankOf_bankBit]

end Sys2Proof
end

