-- ==== Sys2Proof/Laws/State.lean ====
section
/-! SUPPORT. One lemma per field per update of `State`, so that no later proof unfolds a record update. -/

namespace Sys2Proof

namespace Machine

/-! ## writeF -/

@[simp] theorem writeF_f (i : Reg) (v : Fe) (s : State) : (writeF i v s).f = s.f.set i.val v := rfl
@[simp] theorem writeF_vf (i : Reg) (v : Fe) (s : State) : (writeF i v s).vf = s.vf ||| BitVec.twoPow 16 i.val := rfl
@[simp] theorem writeF_inp (i : Reg) (v : Fe) (s : State) : (writeF i v s).inp = s.inp := rfl
@[simp] theorem writeF_vin (i : Reg) (v : Fe) (s : State) : (writeF i v s).vin = s.vin := rfl
@[simp] theorem writeF_digest (i : Reg) (v : Fe) (s : State) : (writeF i v s).digest = s.digest := rfl
@[simp] theorem writeF_vdig (i : Reg) (v : Fe) (s : State) : (writeF i v s).vdig = s.vdig := rfl
@[simp] theorem writeF_upc (i : Reg) (v : Fe) (s : State) : (writeF i v s).upc = s.upc := rfl
@[simp] theorem writeF_busy (i : Reg) (v : Fe) (s : State) : (writeF i v s).busy = s.busy := rfl
@[simp] theorem writeF_done (i : Reg) (v : Fe) (s : State) : (writeF i v s).done = s.done := rfl
@[simp] theorem writeF_ksel (i : Reg) (v : Fe) (s : State) : (writeF i v s).ksel = s.ksel := rfl
@[simp] theorem writeF_umode (i : Reg) (v : Fe) (s : State) : (writeF i v s).umode = s.umode := rfl
@[simp] theorem writeF_hashop (i : Reg) (v : Fe) (s : State) : (writeF i v s).hashop = s.hashop := rfl
@[simp] theorem writeF_round (i : Reg) (v : Fe) (s : State) : (writeF i v s).round = s.round := rfl
@[simp] theorem writeF_phase (i : Reg) (v : Fe) (s : State) : (writeF i v s).phase = s.phase := rfl
@[simp] theorem writeF_rccnt (i : Reg) (v : Fe) (s : State) : (writeF i v s).rccnt = s.rccnt := rfl
@[simp] theorem writeF_ecause (i : Reg) (v : Fe) (s : State) : (writeF i v s).ecause = s.ecause := rfl
@[simp] theorem writeF_epc (i : Reg) (v : Fe) (s : State) : (writeF i v s).epc = s.epc := rfl
@[simp] theorem writeF_einfo (i : Reg) (v : Fe) (s : State) : (writeF i v s).einfo = s.einfo := rfl
@[simp] theorem writeF_pmlit (i : Reg) (v : Fe) (s : State) : (writeF i v s).pmlit = s.pmlit := rfl
@[simp] theorem writeF_bank0 (i : Reg) (v : Fe) (s : State) : (writeF i v s).bank0 = s.bank0 := rfl
@[simp] theorem writeF_bank1 (i : Reg) (v : Fe) (s : State) : (writeF i v s).bank1 = s.bank1 := rfl
@[simp] theorem writeF_params (i : Reg) (v : Fe) (s : State) : (writeF i v s).params = s.params := rfl
@[simp] theorem writeF_pending (i : Reg) (v : Fe) (s : State) : (writeF i v s).pending = s.pending := rfl
@[simp] theorem writeF_reply (i : Reg) (v : Fe) (s : State) : (writeF i v s).reply = s.reply := rfl
@[simp] theorem writeF_free (i : Reg) (v : Fe) (s : State) : (writeF i v s).free = s.free := rfl

/-! ## writeIn -/

@[simp] theorem writeIn_f (i : Fin 4) (v : Fe) (s : State) : (writeIn i v s).f = s.f := rfl
@[simp] theorem writeIn_vf (i : Fin 4) (v : Fe) (s : State) : (writeIn i v s).vf = s.vf := rfl
@[simp] theorem writeIn_inp (i : Fin 4) (v : Fe) (s : State) : (writeIn i v s).inp = s.inp.set i.val v := rfl
@[simp] theorem writeIn_vin (i : Fin 4) (v : Fe) (s : State) : (writeIn i v s).vin = s.vin ||| BitVec.twoPow 4 i.val := rfl
@[simp] theorem writeIn_digest (i : Fin 4) (v : Fe) (s : State) : (writeIn i v s).digest = s.digest := rfl
@[simp] theorem writeIn_vdig (i : Fin 4) (v : Fe) (s : State) : (writeIn i v s).vdig = s.vdig := rfl
@[simp] theorem writeIn_upc (i : Fin 4) (v : Fe) (s : State) : (writeIn i v s).upc = s.upc := rfl
@[simp] theorem writeIn_busy (i : Fin 4) (v : Fe) (s : State) : (writeIn i v s).busy = s.busy := rfl
@[simp] theorem writeIn_done (i : Fin 4) (v : Fe) (s : State) : (writeIn i v s).done = s.done := rfl
@[simp] theorem writeIn_ksel (i : Fin 4) (v : Fe) (s : State) : (writeIn i v s).ksel = s.ksel := rfl
@[simp] theorem writeIn_umode (i : Fin 4) (v : Fe) (s : State) : (writeIn i v s).umode = s.umode := rfl
@[simp] theorem writeIn_hashop (i : Fin 4) (v : Fe) (s : State) : (writeIn i v s).hashop = s.hashop := rfl
@[simp] theorem writeIn_round (i : Fin 4) (v : Fe) (s : State) : (writeIn i v s).round = s.round := rfl
@[simp] theorem writeIn_phase (i : Fin 4) (v : Fe) (s : State) : (writeIn i v s).phase = s.phase := rfl
@[simp] theorem writeIn_rccnt (i : Fin 4) (v : Fe) (s : State) : (writeIn i v s).rccnt = s.rccnt := rfl
@[simp] theorem writeIn_ecause (i : Fin 4) (v : Fe) (s : State) : (writeIn i v s).ecause = s.ecause := rfl
@[simp] theorem writeIn_epc (i : Fin 4) (v : Fe) (s : State) : (writeIn i v s).epc = s.epc := rfl
@[simp] theorem writeIn_einfo (i : Fin 4) (v : Fe) (s : State) : (writeIn i v s).einfo = s.einfo := rfl
@[simp] theorem writeIn_pmlit (i : Fin 4) (v : Fe) (s : State) : (writeIn i v s).pmlit = s.pmlit := rfl
@[simp] theorem writeIn_bank0 (i : Fin 4) (v : Fe) (s : State) : (writeIn i v s).bank0 = s.bank0 := rfl
@[simp] theorem writeIn_bank1 (i : Fin 4) (v : Fe) (s : State) : (writeIn i v s).bank1 = s.bank1 := rfl
@[simp] theorem writeIn_params (i : Fin 4) (v : Fe) (s : State) : (writeIn i v s).params = s.params := rfl
@[simp] theorem writeIn_pending (i : Fin 4) (v : Fe) (s : State) : (writeIn i v s).pending = s.pending := rfl
@[simp] theorem writeIn_reply (i : Fin 4) (v : Fe) (s : State) : (writeIn i v s).reply = s.reply := rfl
@[simp] theorem writeIn_free (i : Fin 4) (v : Fe) (s : State) : (writeIn i v s).free = s.free := rfl

/-! ## advance -/

@[simp] theorem advance_f (s : State) : (advance s).f = s.f := rfl
@[simp] theorem advance_vf (s : State) : (advance s).vf = s.vf := rfl
@[simp] theorem advance_inp (s : State) : (advance s).inp = s.inp := rfl
@[simp] theorem advance_vin (s : State) : (advance s).vin = s.vin := rfl
@[simp] theorem advance_digest (s : State) : (advance s).digest = s.digest := rfl
@[simp] theorem advance_vdig (s : State) : (advance s).vdig = s.vdig := rfl
@[simp] theorem advance_upc (s : State) : (advance s).upc = s.upc + 1 := rfl
@[simp] theorem advance_busy (s : State) : (advance s).busy = s.busy := rfl
@[simp] theorem advance_done (s : State) : (advance s).done = s.done := rfl
@[simp] theorem advance_ksel (s : State) : (advance s).ksel = s.ksel := rfl
@[simp] theorem advance_umode (s : State) : (advance s).umode = s.umode := rfl
@[simp] theorem advance_hashop (s : State) : (advance s).hashop = s.hashop := rfl
@[simp] theorem advance_round (s : State) : (advance s).round = s.round := rfl
@[simp] theorem advance_phase (s : State) : (advance s).phase = s.phase := rfl
@[simp] theorem advance_rccnt (s : State) : (advance s).rccnt = s.rccnt := rfl
@[simp] theorem advance_ecause (s : State) : (advance s).ecause = s.ecause := rfl
@[simp] theorem advance_epc (s : State) : (advance s).epc = s.epc := rfl
@[simp] theorem advance_einfo (s : State) : (advance s).einfo = s.einfo := rfl
@[simp] theorem advance_pmlit (s : State) : (advance s).pmlit = s.pmlit := rfl
@[simp] theorem advance_bank0 (s : State) : (advance s).bank0 = s.bank0 := rfl
@[simp] theorem advance_bank1 (s : State) : (advance s).bank1 = s.bank1 := rfl
@[simp] theorem advance_params (s : State) : (advance s).params = s.params := rfl
@[simp] theorem advance_pending (s : State) : (advance s).pending = s.pending := rfl
@[simp] theorem advance_reply (s : State) : (advance s).reply = s.reply := rfl
@[simp] theorem advance_free (s : State) : (advance s).free = s.free := rfl

/-! ## countConstant -/

@[simp] theorem countConstant_f (s : State) : (countConstant s).f = s.f := rfl
@[simp] theorem countConstant_vf (s : State) : (countConstant s).vf = s.vf := rfl
@[simp] theorem countConstant_inp (s : State) : (countConstant s).inp = s.inp := rfl
@[simp] theorem countConstant_vin (s : State) : (countConstant s).vin = s.vin := rfl
@[simp] theorem countConstant_digest (s : State) : (countConstant s).digest = s.digest := rfl
@[simp] theorem countConstant_vdig (s : State) : (countConstant s).vdig = s.vdig := rfl
@[simp] theorem countConstant_upc (s : State) : (countConstant s).upc = s.upc := rfl
@[simp] theorem countConstant_busy (s : State) : (countConstant s).busy = s.busy := rfl
@[simp] theorem countConstant_done (s : State) : (countConstant s).done = s.done := rfl
@[simp] theorem countConstant_ksel (s : State) : (countConstant s).ksel = s.ksel := rfl
@[simp] theorem countConstant_umode (s : State) : (countConstant s).umode = s.umode := rfl
@[simp] theorem countConstant_hashop (s : State) : (countConstant s).hashop = s.hashop := rfl
@[simp] theorem countConstant_round (s : State) : (countConstant s).round = s.round := rfl
@[simp] theorem countConstant_phase (s : State) : (countConstant s).phase = s.phase := rfl
@[simp] theorem countConstant_rccnt (s : State) : (countConstant s).rccnt = s.rccnt + 1 := rfl
@[simp] theorem countConstant_ecause (s : State) : (countConstant s).ecause = s.ecause := rfl
@[simp] theorem countConstant_epc (s : State) : (countConstant s).epc = s.epc := rfl
@[simp] theorem countConstant_einfo (s : State) : (countConstant s).einfo = s.einfo := rfl
@[simp] theorem countConstant_pmlit (s : State) : (countConstant s).pmlit = s.pmlit := rfl
@[simp] theorem countConstant_bank0 (s : State) : (countConstant s).bank0 = s.bank0 := rfl
@[simp] theorem countConstant_bank1 (s : State) : (countConstant s).bank1 = s.bank1 := rfl
@[simp] theorem countConstant_params (s : State) : (countConstant s).params = s.params := rfl
@[simp] theorem countConstant_pending (s : State) : (countConstant s).pending = s.pending := rfl
@[simp] theorem countConstant_reply (s : State) : (countConstant s).reply = s.reply := rfl
@[simp] theorem countConstant_free (s : State) : (countConstant s).free = s.free := rfl

/-! ## clearRecord -/

@[simp] theorem clearRecord_f (s : State) : (clearRecord s).f = s.f := rfl
@[simp] theorem clearRecord_vf (s : State) : (clearRecord s).vf = s.vf := rfl
@[simp] theorem clearRecord_inp (s : State) : (clearRecord s).inp = s.inp := rfl
@[simp] theorem clearRecord_vin (s : State) : (clearRecord s).vin = s.vin := rfl
@[simp] theorem clearRecord_digest (s : State) : (clearRecord s).digest = s.digest := rfl
@[simp] theorem clearRecord_vdig (s : State) : (clearRecord s).vdig = s.vdig := rfl
@[simp] theorem clearRecord_upc (s : State) : (clearRecord s).upc = s.upc := rfl
@[simp] theorem clearRecord_busy (s : State) : (clearRecord s).busy = s.busy := rfl
@[simp] theorem clearRecord_done (s : State) : (clearRecord s).done = s.done := rfl
@[simp] theorem clearRecord_ksel (s : State) : (clearRecord s).ksel = s.ksel := rfl
@[simp] theorem clearRecord_umode (s : State) : (clearRecord s).umode = s.umode := rfl
@[simp] theorem clearRecord_hashop (s : State) : (clearRecord s).hashop = s.hashop := rfl
@[simp] theorem clearRecord_round (s : State) : (clearRecord s).round = s.round := rfl
@[simp] theorem clearRecord_phase (s : State) : (clearRecord s).phase = s.phase := rfl
@[simp] theorem clearRecord_rccnt (s : State) : (clearRecord s).rccnt = s.rccnt := rfl
@[simp] theorem clearRecord_ecause (s : State) : (clearRecord s).ecause = 0 := rfl
@[simp] theorem clearRecord_epc (s : State) : (clearRecord s).epc = 0 := rfl
@[simp] theorem clearRecord_einfo (s : State) : (clearRecord s).einfo = 0 := rfl
@[simp] theorem clearRecord_pmlit (s : State) : (clearRecord s).pmlit = s.pmlit := rfl
@[simp] theorem clearRecord_bank0 (s : State) : (clearRecord s).bank0 = s.bank0 := rfl
@[simp] theorem clearRecord_bank1 (s : State) : (clearRecord s).bank1 = s.bank1 := rfl
@[simp] theorem clearRecord_params (s : State) : (clearRecord s).params = s.params := rfl
@[simp] theorem clearRecord_pending (s : State) : (clearRecord s).pending = s.pending := rfl
@[simp] theorem clearRecord_reply (s : State) : (clearRecord s).reply = s.reply := rfl
@[simp] theorem clearRecord_free (s : State) : (clearRecord s).free = s.free := rfl

/-! ## startRun -/

@[simp] theorem startRun_f (k : BankId) (u hop : Bool) (s : State) : (startRun k u hop s).f = s.f := rfl
@[simp] theorem startRun_vf (k : BankId) (u hop : Bool) (s : State) : (startRun k u hop s).vf = s.vf := rfl
@[simp] theorem startRun_inp (k : BankId) (u hop : Bool) (s : State) : (startRun k u hop s).inp = s.inp := rfl
@[simp] theorem startRun_vin (k : BankId) (u hop : Bool) (s : State) : (startRun k u hop s).vin = s.vin := rfl
@[simp] theorem startRun_digest (k : BankId) (u hop : Bool) (s : State) : (startRun k u hop s).digest = s.digest := rfl
@[simp] theorem startRun_vdig (k : BankId) (u hop : Bool) (s : State) : (startRun k u hop s).vdig = false := rfl
@[simp] theorem startRun_upc (k : BankId) (u hop : Bool) (s : State) : (startRun k u hop s).upc = 0 := rfl
@[simp] theorem startRun_busy (k : BankId) (u hop : Bool) (s : State) : (startRun k u hop s).busy = true := rfl
@[simp] theorem startRun_done (k : BankId) (u hop : Bool) (s : State) : (startRun k u hop s).done = false := rfl
@[simp] theorem startRun_ksel (k : BankId) (u hop : Bool) (s : State) : (startRun k u hop s).ksel = k := rfl
@[simp] theorem startRun_umode (k : BankId) (u hop : Bool) (s : State) : (startRun k u hop s).umode = u := rfl
@[simp] theorem startRun_hashop (k : BankId) (u hop : Bool) (s : State) : (startRun k u hop s).hashop = hop := rfl
@[simp] theorem startRun_round (k : BankId) (u hop : Bool) (s : State) : (startRun k u hop s).round = 0 := rfl
@[simp] theorem startRun_phase (k : BankId) (u hop : Bool) (s : State) : (startRun k u hop s).phase = (if u then .idle else .arc) := rfl
@[simp] theorem startRun_rccnt (k : BankId) (u hop : Bool) (s : State) : (startRun k u hop s).rccnt = 0 := rfl
@[simp] theorem startRun_ecause (k : BankId) (u hop : Bool) (s : State) : (startRun k u hop s).ecause = s.ecause := rfl
@[simp] theorem startRun_epc (k : BankId) (u hop : Bool) (s : State) : (startRun k u hop s).epc = s.epc := rfl
@[simp] theorem startRun_einfo (k : BankId) (u hop : Bool) (s : State) : (startRun k u hop s).einfo = s.einfo := rfl
@[simp] theorem startRun_pmlit (k : BankId) (u hop : Bool) (s : State) : (startRun k u hop s).pmlit = s.pmlit := rfl
@[simp] theorem startRun_bank0 (k : BankId) (u hop : Bool) (s : State) : (startRun k u hop s).bank0 = s.bank0 := rfl
@[simp] theorem startRun_bank1 (k : BankId) (u hop : Bool) (s : State) : (startRun k u hop s).bank1 = s.bank1 := rfl
@[simp] theorem startRun_params (k : BankId) (u hop : Bool) (s : State) : (startRun k u hop s).params = s.params := rfl
@[simp] theorem startRun_pending (k : BankId) (u hop : Bool) (s : State) : (startRun k u hop s).pending = s.pending := rfl
@[simp] theorem startRun_reply (k : BankId) (u hop : Bool) (s : State) : (startRun k u hop s).reply = s.reply := rfl
@[simp] theorem startRun_free (k : BankId) (u hop : Bool) (s : State) : (startRun k u hop s).free = s.free := rfl

/-! ## completeRun -/

@[simp] theorem completeRun_f (s : State) : (completeRun s).f = s.f := rfl
@[simp] theorem completeRun_vf (s : State) : (completeRun s).vf = s.vf := rfl
@[simp] theorem completeRun_inp (s : State) : (completeRun s).inp = s.inp := rfl
@[simp] theorem completeRun_vin (s : State) : (completeRun s).vin = s.vin := rfl
@[simp] theorem completeRun_digest (s : State) : (completeRun s).digest = (if s.hashop then s.f[0] else s.digest) := rfl
@[simp] theorem completeRun_vdig (s : State) : (completeRun s).vdig = (s.hashop || s.vdig) := rfl
@[simp] theorem completeRun_upc (s : State) : (completeRun s).upc = s.upc := rfl
@[simp] theorem completeRun_busy (s : State) : (completeRun s).busy = false := rfl
@[simp] theorem completeRun_done (s : State) : (completeRun s).done = true := rfl
@[simp] theorem completeRun_ksel (s : State) : (completeRun s).ksel = s.ksel := rfl
@[simp] theorem completeRun_umode (s : State) : (completeRun s).umode = s.umode := rfl
@[simp] theorem completeRun_hashop (s : State) : (completeRun s).hashop = s.hashop := rfl
@[simp] theorem completeRun_round (s : State) : (completeRun s).round = s.round := rfl
@[simp] theorem completeRun_phase (s : State) : (completeRun s).phase = .idle := rfl
@[simp] theorem completeRun_rccnt (s : State) : (completeRun s).rccnt = s.rccnt := rfl
@[simp] theorem completeRun_ecause (s : State) : (completeRun s).ecause = s.ecause := rfl
@[simp] theorem completeRun_epc (s : State) : (completeRun s).epc = s.epc := rfl
@[simp] theorem completeRun_einfo (s : State) : (completeRun s).einfo = s.einfo := rfl
@[simp] theorem completeRun_pmlit (s : State) : (completeRun s).pmlit = s.pmlit := rfl
@[simp] theorem completeRun_bank0 (s : State) : (completeRun s).bank0 = s.bank0 := rfl
@[simp] theorem completeRun_bank1 (s : State) : (completeRun s).bank1 = s.bank1 := rfl
@[simp] theorem completeRun_params (s : State) : (completeRun s).params = s.params := rfl
@[simp] theorem completeRun_pending (s : State) : (completeRun s).pending = s.pending := rfl
@[simp] theorem completeRun_reply (s : State) : (completeRun s).reply = s.reply := rfl
@[simp] theorem completeRun_free (s : State) : (completeRun s).free = s.free := rfl

/-! ## resetCore -/

@[simp] theorem resetCore_f (s : State) : (resetCore s).f = s.f := rfl
@[simp] theorem resetCore_vf (s : State) : (resetCore s).vf = 0 := rfl
@[simp] theorem resetCore_inp (s : State) : (resetCore s).inp = s.inp := rfl
@[simp] theorem resetCore_vin (s : State) : (resetCore s).vin = 0 := rfl
@[simp] theorem resetCore_digest (s : State) : (resetCore s).digest = s.digest := rfl
@[simp] theorem resetCore_vdig (s : State) : (resetCore s).vdig = false := rfl
@[simp] theorem resetCore_upc (s : State) : (resetCore s).upc = 0 := rfl
@[simp] theorem resetCore_busy (s : State) : (resetCore s).busy = false := rfl
@[simp] theorem resetCore_done (s : State) : (resetCore s).done = false := rfl
@[simp] theorem resetCore_ksel (s : State) : (resetCore s).ksel = 0 := rfl
@[simp] theorem resetCore_umode (s : State) : (resetCore s).umode = false := rfl
@[simp] theorem resetCore_hashop (s : State) : (resetCore s).hashop = false := rfl
@[simp] theorem resetCore_round (s : State) : (resetCore s).round = 0 := rfl
@[simp] theorem resetCore_phase (s : State) : (resetCore s).phase = .idle := rfl
@[simp] theorem resetCore_rccnt (s : State) : (resetCore s).rccnt = 0 := rfl
@[simp] theorem resetCore_ecause (s : State) : (resetCore s).ecause = 0 := rfl
@[simp] theorem resetCore_epc (s : State) : (resetCore s).epc = 0 := rfl
@[simp] theorem resetCore_einfo (s : State) : (resetCore s).einfo = 0 := rfl
@[simp] theorem resetCore_pmlit (s : State) : (resetCore s).pmlit = 0 := rfl
@[simp] theorem resetCore_bank0 (s : State) : (resetCore s).bank0 = Bank.reset := rfl
@[simp] theorem resetCore_bank1 (s : State) : (resetCore s).bank1 = Bank.reset := rfl
@[simp] theorem resetCore_params (s : State) : (resetCore s).params = s.params := rfl
@[simp] theorem resetCore_pending (s : State) : (resetCore s).pending = s.pending := rfl
@[simp] theorem resetCore_reply (s : State) : (resetCore s).reply = s.reply := rfl
@[simp] theorem resetCore_free (s : State) : (resetCore s).free = s.free := rfl

/-! ## setBank -/

@[simp] theorem setBank_f (k : BankId) (b : Bank) (s : State) : (setBank k b s).f = s.f := by
  unfold setBank; split <;> rfl
@[simp] theorem setBank_vf (k : BankId) (b : Bank) (s : State) : (setBank k b s).vf = s.vf := by
  unfold setBank; split <;> rfl
@[simp] theorem setBank_inp (k : BankId) (b : Bank) (s : State) : (setBank k b s).inp = s.inp := by
  unfold setBank; split <;> rfl
@[simp] theorem setBank_vin (k : BankId) (b : Bank) (s : State) : (setBank k b s).vin = s.vin := by
  unfold setBank; split <;> rfl
@[simp] theorem setBank_digest (k : BankId) (b : Bank) (s : State) : (setBank k b s).digest = s.digest := by
  unfold setBank; split <;> rfl
@[simp] theorem setBank_vdig (k : BankId) (b : Bank) (s : State) : (setBank k b s).vdig = s.vdig := by
  unfold setBank; split <;> rfl
@[simp] theorem setBank_upc (k : BankId) (b : Bank) (s : State) : (setBank k b s).upc = s.upc := by
  unfold setBank; split <;> rfl
@[simp] theorem setBank_busy (k : BankId) (b : Bank) (s : State) : (setBank k b s).busy = s.busy := by
  unfold setBank; split <;> rfl
@[simp] theorem setBank_done (k : BankId) (b : Bank) (s : State) : (setBank k b s).done = s.done := by
  unfold setBank; split <;> rfl
@[simp] theorem setBank_ksel (k : BankId) (b : Bank) (s : State) : (setBank k b s).ksel = s.ksel := by
  unfold setBank; split <;> rfl
@[simp] theorem setBank_umode (k : BankId) (b : Bank) (s : State) : (setBank k b s).umode = s.umode := by
  unfold setBank; split <;> rfl
@[simp] theorem setBank_hashop (k : BankId) (b : Bank) (s : State) : (setBank k b s).hashop = s.hashop := by
  unfold setBank; split <;> rfl
@[simp] theorem setBank_round (k : BankId) (b : Bank) (s : State) : (setBank k b s).round = s.round := by
  unfold setBank; split <;> rfl
@[simp] theorem setBank_phase (k : BankId) (b : Bank) (s : State) : (setBank k b s).phase = s.phase := by
  unfold setBank; split <;> rfl
@[simp] theorem setBank_rccnt (k : BankId) (b : Bank) (s : State) : (setBank k b s).rccnt = s.rccnt := by
  unfold setBank; split <;> rfl
@[simp] theorem setBank_ecause (k : BankId) (b : Bank) (s : State) : (setBank k b s).ecause = s.ecause := by
  unfold setBank; split <;> rfl
@[simp] theorem setBank_epc (k : BankId) (b : Bank) (s : State) : (setBank k b s).epc = s.epc := by
  unfold setBank; split <;> rfl
@[simp] theorem setBank_einfo (k : BankId) (b : Bank) (s : State) : (setBank k b s).einfo = s.einfo := by
  unfold setBank; split <;> rfl
@[simp] theorem setBank_pmlit (k : BankId) (b : Bank) (s : State) : (setBank k b s).pmlit = s.pmlit := by
  unfold setBank; split <;> rfl
@[simp] theorem setBank_params (k : BankId) (b : Bank) (s : State) : (setBank k b s).params = s.params := by
  unfold setBank; split <;> rfl
@[simp] theorem setBank_pending (k : BankId) (b : Bank) (s : State) : (setBank k b s).pending = s.pending := by
  unfold setBank; split <;> rfl
@[simp] theorem setBank_reply (k : BankId) (b : Bank) (s : State) : (setBank k b s).reply = s.reply := by
  unfold setBank; split <;> rfl
@[simp] theorem setBank_free (k : BankId) (b : Bank) (s : State) : (setBank k b s).free = s.free := by
  unfold setBank; split <;> rfl

/-! ## nextRound -/

@[simp] theorem nextRound_f (s : State) : (nextRound s).f = s.f := rfl
@[simp] theorem nextRound_vf (s : State) : (nextRound s).vf = s.vf := rfl
@[simp] theorem nextRound_inp (s : State) : (nextRound s).inp = s.inp := rfl
@[simp] theorem nextRound_vin (s : State) : (nextRound s).vin = s.vin := rfl
@[simp] theorem nextRound_digest (s : State) : (nextRound s).digest = s.digest := rfl
@[simp] theorem nextRound_vdig (s : State) : (nextRound s).vdig = s.vdig := rfl
@[simp] theorem nextRound_upc (s : State) : (nextRound s).upc = s.upc := rfl
@[simp] theorem nextRound_busy (s : State) : (nextRound s).busy = s.busy := rfl
@[simp] theorem nextRound_done (s : State) : (nextRound s).done = s.done := rfl
@[simp] theorem nextRound_ksel (s : State) : (nextRound s).ksel = s.ksel := rfl
@[simp] theorem nextRound_umode (s : State) : (nextRound s).umode = s.umode := rfl
@[simp] theorem nextRound_hashop (s : State) : (nextRound s).hashop = s.hashop := rfl
@[simp] theorem nextRound_phase (s : State) : (nextRound s).phase = s.phase := rfl
@[simp] theorem nextRound_rccnt (s : State) : (nextRound s).rccnt = s.rccnt := rfl
@[simp] theorem nextRound_ecause (s : State) : (nextRound s).ecause = s.ecause := rfl
@[simp] theorem nextRound_epc (s : State) : (nextRound s).epc = s.epc := rfl
@[simp] theorem nextRound_einfo (s : State) : (nextRound s).einfo = s.einfo := rfl
@[simp] theorem nextRound_pmlit (s : State) : (nextRound s).pmlit = s.pmlit := rfl
@[simp] theorem nextRound_bank0 (s : State) : (nextRound s).bank0 = s.bank0 := rfl
@[simp] theorem nextRound_bank1 (s : State) : (nextRound s).bank1 = s.bank1 := rfl
@[simp] theorem nextRound_params (s : State) : (nextRound s).params = s.params := rfl
@[simp] theorem nextRound_pending (s : State) : (nextRound s).pending = s.pending := rfl
@[simp] theorem nextRound_reply (s : State) : (nextRound s).reply = s.reply := rfl
@[simp] theorem nextRound_round (s : State) : (nextRound s).round = s.round + 1 := rfl

/-! ## What the host reads of ROUND -/

theorem roundRegister_of_fits {s : State} (h : s.round < 2 ^ 16) : roundRegister s = BitVec.ofNat 16 s.round := by
  simp only [roundRegister, if_pos h]

theorem roundRegister_toNat_of_fits {s : State} (h : s.round < 2 ^ 16) : (roundRegister s).toNat = s.round := by
  rw [roundRegister_of_fits h, BitVec.toNat_ofNat, Nat.mod_eq_of_lt h]

/-! ## recordFault and raiseFault -/

@[simp] theorem recordFault_f (c : Cause) (pc : BitVec 32) (s : State) : (recordFault c pc s).f = s.f := by
  unfold recordFault; split <;> rfl
@[simp] theorem recordFault_vf (c : Cause) (pc : BitVec 32) (s : State) : (recordFault c pc s).vf = s.vf := by
  unfold recordFault; split <;> rfl
@[simp] theorem recordFault_inp (c : Cause) (pc : BitVec 32) (s : State) : (recordFault c pc s).inp = s.inp := by
  unfold recordFault; split <;> rfl
@[simp] theorem recordFault_vin (c : Cause) (pc : BitVec 32) (s : State) : (recordFault c pc s).vin = s.vin := by
  unfold recordFault; split <;> rfl
@[simp] theorem recordFault_digest (c : Cause) (pc : BitVec 32) (s : State) : (recordFault c pc s).digest = s.digest := by
  unfold recordFault; split <;> rfl
@[simp] theorem recordFault_vdig (c : Cause) (pc : BitVec 32) (s : State) : (recordFault c pc s).vdig = s.vdig := by
  unfold recordFault; split <;> rfl
@[simp] theorem recordFault_upc (c : Cause) (pc : BitVec 32) (s : State) : (recordFault c pc s).upc = s.upc := by
  unfold recordFault; split <;> rfl
@[simp] theorem recordFault_busy (c : Cause) (pc : BitVec 32) (s : State) : (recordFault c pc s).busy = s.busy := by
  unfold recordFault; split <;> rfl
@[simp] theorem recordFault_done (c : Cause) (pc : BitVec 32) (s : State) : (recordFault c pc s).done = s.done := by
  unfold recordFault; split <;> rfl
@[simp] theorem recordFault_ksel (c : Cause) (pc : BitVec 32) (s : State) : (recordFault c pc s).ksel = s.ksel := by
  unfold recordFault; split <;> rfl
@[simp] theorem recordFault_umode (c : Cause) (pc : BitVec 32) (s : State) : (recordFault c pc s).umode = s.umode := by
  unfold recordFault; split <;> rfl
@[simp] theorem recordFault_hashop (c : Cause) (pc : BitVec 32) (s : State) : (recordFault c pc s).hashop = s.hashop := by
  unfold recordFault; split <;> rfl
@[simp] theorem recordFault_round (c : Cause) (pc : BitVec 32) (s : State) : (recordFault c pc s).round = s.round := by
  unfold recordFault; split <;> rfl
@[simp] theorem recordFault_phase (c : Cause) (pc : BitVec 32) (s : State) : (recordFault c pc s).phase = s.phase := by
  unfold recordFault; split <;> rfl
@[simp] theorem recordFault_rccnt (c : Cause) (pc : BitVec 32) (s : State) : (recordFault c pc s).rccnt = s.rccnt := by
  unfold recordFault; split <;> rfl
@[simp] theorem recordFault_pmlit (c : Cause) (pc : BitVec 32) (s : State) : (recordFault c pc s).pmlit = s.pmlit := by
  unfold recordFault; split <;> rfl
@[simp] theorem recordFault_bank0 (c : Cause) (pc : BitVec 32) (s : State) : (recordFault c pc s).bank0 = s.bank0 := by
  unfold recordFault; split <;> rfl
@[simp] theorem recordFault_bank1 (c : Cause) (pc : BitVec 32) (s : State) : (recordFault c pc s).bank1 = s.bank1 := by
  unfold recordFault; split <;> rfl
@[simp] theorem recordFault_params (c : Cause) (pc : BitVec 32) (s : State) : (recordFault c pc s).params = s.params := by
  unfold recordFault; split <;> rfl
@[simp] theorem recordFault_pending (c : Cause) (pc : BitVec 32) (s : State) : (recordFault c pc s).pending = s.pending := by
  unfold recordFault; split <;> rfl
@[simp] theorem recordFault_reply (c : Cause) (pc : BitVec 32) (s : State) : (recordFault c pc s).reply = s.reply := by
  unfold recordFault; split <;> rfl
@[simp] theorem recordFault_free (c : Cause) (pc : BitVec 32) (s : State) : (recordFault c pc s).free = s.free := by
  unfold recordFault; split <;> rfl
@[simp] theorem raiseFault_f (o : Origin) (c : Cause) (s : State) : (raiseFault o c s).f = s.f := by
  cases o <;> simp [raiseFault]
@[simp] theorem raiseFault_vf (o : Origin) (c : Cause) (s : State) : (raiseFault o c s).vf = s.vf := by
  cases o <;> simp [raiseFault]
@[simp] theorem raiseFault_inp (o : Origin) (c : Cause) (s : State) : (raiseFault o c s).inp = s.inp := by
  cases o <;> simp [raiseFault]
@[simp] theorem raiseFault_vin (o : Origin) (c : Cause) (s : State) : (raiseFault o c s).vin = s.vin := by
  cases o <;> simp [raiseFault]
@[simp] theorem raiseFault_digest (o : Origin) (c : Cause) (s : State) : (raiseFault o c s).digest = s.digest := by
  cases o <;> simp [raiseFault]
@[simp] theorem raiseFault_vdig (o : Origin) (c : Cause) (s : State) : (raiseFault o c s).vdig = s.vdig := by
  cases o <;> simp [raiseFault]
@[simp] theorem raiseFault_upc (o : Origin) (c : Cause) (s : State) : (raiseFault o c s).upc = s.upc := by
  cases o <;> simp [raiseFault]
@[simp] theorem raiseFault_engine_busy (c : Cause) (s : State) : (raiseFault .engine c s).busy = false := rfl
@[simp] theorem raiseFault_host_busy (c : Cause) (s : State) : (raiseFault .host c s).busy = s.busy := by
  simp [raiseFault]
@[simp] theorem raiseFault_done (o : Origin) (c : Cause) (s : State) : (raiseFault o c s).done = s.done := by
  cases o <;> simp [raiseFault]
@[simp] theorem raiseFault_ksel (o : Origin) (c : Cause) (s : State) : (raiseFault o c s).ksel = s.ksel := by
  cases o <;> simp [raiseFault]
@[simp] theorem raiseFault_umode (o : Origin) (c : Cause) (s : State) : (raiseFault o c s).umode = s.umode := by
  cases o <;> simp [raiseFault]
@[simp] theorem raiseFault_hashop (o : Origin) (c : Cause) (s : State) : (raiseFault o c s).hashop = s.hashop := by
  cases o <;> simp [raiseFault]
@[simp] theorem raiseFault_round (o : Origin) (c : Cause) (s : State) : (raiseFault o c s).round = s.round := by
  cases o <;> simp [raiseFault]
@[simp] theorem raiseFault_phase (o : Origin) (c : Cause) (s : State) : (raiseFault o c s).phase = s.phase := by
  cases o <;> simp [raiseFault]
@[simp] theorem raiseFault_rccnt (o : Origin) (c : Cause) (s : State) : (raiseFault o c s).rccnt = s.rccnt := by
  cases o <;> simp [raiseFault]
@[simp] theorem raiseFault_pmlit (o : Origin) (c : Cause) (s : State) : (raiseFault o c s).pmlit = s.pmlit := by
  cases o <;> simp [raiseFault]
@[simp] theorem raiseFault_bank0 (o : Origin) (c : Cause) (s : State) : (raiseFault o c s).bank0 = s.bank0 := by
  cases o <;> simp [raiseFault]
@[simp] theorem raiseFault_bank1 (o : Origin) (c : Cause) (s : State) : (raiseFault o c s).bank1 = s.bank1 := by
  cases o <;> simp [raiseFault]
@[simp] theorem raiseFault_params (o : Origin) (c : Cause) (s : State) : (raiseFault o c s).params = s.params := by
  cases o <;> simp [raiseFault]
@[simp] theorem raiseFault_pending (o : Origin) (c : Cause) (s : State) : (raiseFault o c s).pending = s.pending := by
  cases o <;> simp [raiseFault]
@[simp] theorem raiseFault_reply (o : Origin) (c : Cause) (s : State) : (raiseFault o c s).reply = s.reply := by
  cases o <;> simp [raiseFault]
@[simp] theorem raiseFault_free (o : Origin) (c : Cause) (s : State) : (raiseFault o c s).free = s.free := by
  cases o <;> simp [raiseFault]

/-! ## Banks -/

@[simp] theorem bankAt_zero (s : State) : bankAt 0 s = s.bank0 := rfl
@[simp] theorem bankAt_one (s : State) : bankAt 1 s = s.bank1 := rfl
@[simp] theorem setBank_zero_bank0 (b : Bank) (s : State) : (setBank 0 b s).bank0 = b := rfl
@[simp] theorem setBank_zero_bank1 (b : Bank) (s : State) : (setBank 0 b s).bank1 = s.bank1 := rfl
@[simp] theorem setBank_one_bank0 (b : Bank) (s : State) : (setBank 1 b s).bank0 = s.bank0 := rfl
@[simp] theorem setBank_one_bank1 (b : Bank) (s : State) : (setBank 1 b s).bank1 = b := rfl

theorem bankId_cases (k : BankId) : k = 0 ∨ k = 1 := by
  rcases k with ⟨_ | _ | n, h⟩
  · exact .inl rfl
  · exact .inr rfl
  · omega

/-- Reading the bank that was written gives what was written. -/
@[simp] theorem bankAt_setBank_same (k : BankId) (b : Bank) (s : State) : bankAt k (setBank k b s) = b := by
  rcases bankId_cases k with rfl | rfl <;> rfl

/-- A write of one bank leaves the other alone. -/
theorem bankAt_setBank_other {j k : BankId} (h : j ≠ k) (b : Bank) (s : State) :
    bankAt j (setBank k b s) = bankAt j s := by
  rcases bankId_cases k with rfl | rfl <;> rcases bankId_cases j with rfl | rfl <;> first | rfl | exact absurd rfl h

/-- Two states with the same banks read the same bank. -/
theorem bankAt_congr {s s' : State} (k : BankId) (h0 : s'.bank0 = s.bank0) (h1 : s'.bank1 = s.bank1) :
    bankAt k s' = bankAt k s := by
  simp [bankAt, h0, h1]

end Machine

end Sys2Proof
end

