-- ==== Sys2Proof/Laws/Ops.lean ====
section
/-! SUPPORT. For each shared operation, what it can do: read after write, the operand forms, the answer of `finish`, the
micro-operations' effects, and the run of a list of them. -/

namespace Sys2Proof

namespace Machine

/-! ## Words and field elements -/

theorem P_lt_word : Config.P < 2 ^ 256 := by decide

theorem feWord_toNat (x : Fe) : (feWord x).toNat = x.val :=
  Nat.mod_eq_of_lt (Nat.lt_trans x.isLt P_lt_word)

/-! ## Registers: read after write -/

theorem writeF_f_get (i : Reg) (v : Fe) (s : State) (j : Nat) (hj : j < 16) :
    (writeF i v s).f[j] = if i.val = j then v else s.f[j] := by
  simp [Vector.getElem_set]

/-- A write of `F[i]` sets `VF[i]` and leaves the other valid bits alone. -/
theorem validF_writeF (i : Reg) (v : Fe) (s : State) (j : Nat) :
    validF j (writeF i v s) = (validF j s || decide (i.val = j)) := by
  have hi := i.isLt
  simp only [validF, writeF_vf, BitVec.getLsbD_or, BitVec.getLsbD_twoPow]
  by_cases h : i.val = j
  · subst h; simp [hi]
  · simp [h]

/-- Two states with the same `VF` have the same valid bits. -/
theorem validF_congr {s s' : State} (h : s'.vf = s.vf) (j : Nat) : validF j s' = validF j s := by
  simp only [validF, h]

@[simp] theorem validF_advance (s : State) (j : Nat) : validF j (advance s) = validF j s := rfl
@[simp] theorem validF_countConstant (s : State) (j : Nat) : validF j (countConstant s) = validF j s := rfl

theorem writeIn_inp_get (i : Fin 4) (v : Fe) (s : State) (j : Nat) (hj : j < 4) :
    (writeIn i v s).inp[j] = if i.val = j then v else s.inp[j] := by
  simp [Vector.getElem_set]

theorem validIn_writeIn (i : Fin 4) (v : Fe) (s : State) (j : Nat) :
    validIn j (writeIn i v s) = (validIn j s || decide (i.val = j)) := by
  have hi := i.isLt
  simp only [validIn, writeIn_vin, BitVec.getLsbD_or, BitVec.getLsbD_twoPow]
  by_cases h : i.val = j
  · subst h; simp [hi]
  · simp [h]

/-! ## Operands -/

theorem readF_of_valid {i : Reg} {s : State} (h : validF i.val s = true) : readF i s = .ok s.f[i.val] := by
  simp [readF, h]

theorem readF_of_invalid {i : Reg} {s : State} (h : validF i.val s = false) :
    readF i s = .error (.uninitRead i.val) := by
  simp [readF, h]

theorem readF_ok_iff {i : Reg} {s : State} {a : Fe} :
    readF i s = .ok a ↔ validF i.val s = true ∧ s.f[i.val] = a := by
  unfold readF; split <;> simp_all

theorem readIn_of_valid {i : Fin 4} {s : State} (h : validIn i.val s = true) :
    readIn i s = .ok s.inp[i.val] := by
  simp [readIn, h]

theorem readIn_of_invalid {i : Fin 4} {s : State} (h : validIn i.val s = false) :
    readIn i s = .error (.uninitRead (16 + i.val)) := by
  simp [readIn, h]

theorem literal_of_lt {lit : Word} (h : lit.toNat < Config.P) : literal lit = .ok ⟨lit.toNat, h⟩ := by
  simp [literal, h]

theorem literal_of_ge {lit : Word} (h : Config.P ≤ lit.toNat) : literal lit = .error (.illegalLiteral lit) := by
  simp [literal, Nat.not_lt.mpr h]

/-- A table entry given to the ALU as a literal is that entry (R111). -/
@[simp] theorem literal_feWord (x : Fe) : literal (feWord x) = .ok x := by
  have h : (feWord x).toNat < Config.P := by rw [feWord_toNat]; exact x.isLt
  rw [literal_of_lt h]
  congr 1
  exact Fin.ext (feWord_toNat x)

theorem canon_of_lt (pol : Config.OorPolicy) {v : Word} (h : v.toNat < Config.P) :
    canon pol v = .ok ⟨v.toNat, h⟩ := by
  simp [canon, h]

theorem canon_reduce (v : Word) : canon .reduce v = .ok (reduceWord v) := by
  unfold canon
  split
  · rename_i h
    congr 1
    exact Fin.ext (Nat.mod_eq_of_lt h).symm
  · rfl

theorem canon_reject_of_ge {v : Word} (h : Config.P ≤ v.toNat) :
    canon .reject v = .error (.invalidFieldElement v) := by
  simp [canon, Nat.not_lt.mpr h]

theorem tableEntry_of_lt (k : BankId) (m : Bool) (n : Nat) {v : Word} (h : v.toNat < Config.P) :
    tableEntry k m n v = .ok ⟨v.toNat, h⟩ := by
  simp [tableEntry, h]

theorem firstInvalidF_eq_none {n : Nat} {s : State} :
    firstInvalidF n s = none ↔ ∀ i < n, validF i s = true := by
  simp [firstInvalidF]

theorem firstInvalidIn_eq_none {n : Nat} {s : State} :
    firstInvalidIn n s = none ↔ ∀ i < n, validIn i s = true := by
  simp [firstInvalidIn]

theorem outOfStore_eq_none {sp : Space} {k : BankId} {len : Nat} {l : List Nat} :
    outOfStore sp k len l = none ↔ ∀ i ∈ l, i < len := by
  simp [outOfStore]

/-! ## The answer of a step -/

@[simp] theorem finish_ok (o : Origin) (s s' : State) : finish o s (.ok s') = .next s' := rfl
@[simp] theorem finish_error (o : Origin) (s : State) (c : Cause) :
    finish o s (.error c) = .next (raiseFault o c s) := rfl

/-- Whether an instruction is one of the four micro-operations. -/
def isMicroOp : Instr → Bool
  | .fadd _ _ _ | .faddi _ _ _ | .fmul _ _ _ | .fmuli _ _ _ => true
  | .init _ | .permute _ _ _ | .hash2 _ | .hash4 _ | .execProg _ | .gen _ | .clrerr => false

/-- The kind of step that performs an instruction. -/
def originOf (i : Instr) : Origin := if isMicroOp i then .engine else .host

/-- `exec` is the effect, or the fault it raises. -/
theorem exec_eq_finish (i : Instr) (s : State) : exec i s = finish (originOf i) s (effect i s) := by
  cases i <;> rfl

/-- An instruction always answers a next state. -/
theorem exec_goes_on (i : Instr) (s : State) : ∃ s', exec i s = .next s' := by
  rw [exec_eq_finish]
  cases effect i s <;> exact ⟨_, rfl⟩

/-! ## The micro-operations -/

theorem faddEffect_of_valid {rd rs1 rs2 : Reg} {s : State} (h1 : validF rs1.val s = true)
    (h2 : validF rs2.val s = true) :
    faddEffect rd rs1 rs2 s = .ok (advance (writeF rd (feAdd s.f[rs1.val] s.f[rs2.val]) s)) := by
  simp [faddEffect, readF_of_valid h1, readF_of_valid h2]

theorem fmulEffect_of_valid {rd rs1 rs2 : Reg} {s : State} (h1 : validF rs1.val s = true)
    (h2 : validF rs2.val s = true) :
    fmulEffect rd rs1 rs2 s = .ok (advance (writeF rd (feMul s.f[rs1.val] s.f[rs2.val]) s)) := by
  simp [fmulEffect, readF_of_valid h1, readF_of_valid h2]

theorem faddiEffect_of_valid {rd rs1 : Reg} {c : Fe} {s : State} (h1 : validF rs1.val s = true) :
    faddiEffect rd rs1 (feWord c) s = .ok (advance (countConstant (writeF rd (feAdd s.f[rs1.val] c) s))) := by
  simp [faddiEffect, readF_of_valid h1]

theorem fmuliEffect_of_valid {rd rs1 : Reg} {c : Fe} {s : State} (h1 : validF rs1.val s = true) :
    fmuliEffect rd rs1 (feWord c) s = .ok (advance (writeF rd (feMul s.f[rs1.val] c) s)) := by
  simp [fmuliEffect, readF_of_valid h1]

/-- What a micro-operation can do (R88): it writes `F`, `VF`, `upc`, `RCCNT` and nothing else, advances `upc` by one,
and clears no valid bit. -/
theorem effect_microOp_cases {i : Instr} {s s' : State} (hi : isMicroOp i = true) (h : effect i s = .ok s') :
    ∃ (rd : Reg) (v : Fe),
      s' = advance (writeF rd v s) ∨ s' = advance (countConstant (writeF rd v s)) := by
  cases i with
  | fadd rd rs1 rs2 =>
    simp only [effect, faddEffect] at h
    split at h <;> try cases h
    split at h <;> cases h
    exact ⟨_, _, .inl rfl⟩
  | faddi rd rs1 lit =>
    simp only [effect, faddiEffect] at h
    split at h <;> try cases h
    split at h <;> cases h
    exact ⟨_, _, .inr rfl⟩
  | fmul rd rs1 rs2 =>
    simp only [effect, fmulEffect] at h
    split at h <;> try cases h
    split at h <;> cases h
    exact ⟨_, _, .inl rfl⟩
  | fmuli rd rs1 lit =>
    simp only [effect, fmuliEffect] at h
    split at h <;> try cases h
    split at h <;> cases h
    exact ⟨_, _, .inl rfl⟩
  | _ => cases hi

/-- The frame of a micro-operation. -/
theorem effect_microOp_frame {i : Instr} {s s' : State} (hi : isMicroOp i = true) (h : effect i s = .ok s') :
    s' = { s with f := s'.f, vf := s'.vf, upc := s'.upc, rccnt := s'.rccnt } := by
  obtain ⟨rd, v, rfl | rfl⟩ := effect_microOp_cases hi h <;> rfl

/-- A micro-operation clears no valid bit (R13). -/
theorem effect_microOp_vf {i : Instr} {s s' : State} (hi : isMicroOp i = true) (h : effect i s = .ok s')
    {j : Nat} (hj : validF j s = true) : validF j s' = true := by
  obtain ⟨rd, v, rfl | rfl⟩ := effect_microOp_cases hi h
  · rw [validF_advance, validF_writeF, hj]; rfl
  · rw [validF_advance, validF_countConstant, validF_writeF, hj]; rfl

/-! ## Lists of micro-operations -/

@[simp] theorem runList_nil (s : State) : runList [] s = .ok s := rfl

theorem runList_cons_ok {i : Instr} {is : List Instr} {s s' : State} (h : effect i s = .ok s') :
    runList (i :: is) s = runList is s' := by
  simp [runList, h]

theorem runList_append (l m : List Instr) (s : State) :
    runList (l ++ m) s = match runList l s with
      | .error c => .error c
      | .ok s' => runList m s' := by
  induction l generalizing s with
  | nil => rfl
  | cons i is ih =>
    simp only [List.cons_append, runList]
    cases effect i s with
    | error c => rfl
    | ok s' => exact ih s'

theorem runList_append_ok {l m : List Instr} {s s' : State} (h : runList l s = .ok s') :
    runList (l ++ m) s = runList m s' := by
  rw [runList_append, h]

/-- The frame of a list of micro-operations. -/
theorem runList_frame {l : List Instr} (hl : ∀ i ∈ l, isMicroOp i = true) {s s' : State}
    (h : runList l s = .ok s') : s' = { s with f := s'.f, vf := s'.vf, upc := s'.upc, rccnt := s'.rccnt } := by
  induction l generalizing s with
  | nil => cases h; rfl
  | cons i is ih =>
    simp only [runList] at h
    cases he : effect i s with
    | error c => rw [he] at h; cases h
    | ok s1 =>
      rw [he] at h
      have h1 := effect_microOp_frame (hl i (List.mem_cons_self ..)) he
      have h2 := ih (fun j hj => hl j (List.mem_cons_of_mem _ hj)) h
      rw [h1] at h2
      exact h2

/-- A list of micro-operations clears no valid bit. -/
theorem runList_vf {l : List Instr} (hl : ∀ i ∈ l, isMicroOp i = true) {s s' : State}
    (h : runList l s = .ok s') {j : Nat} (hj : validF j s = true) : validF j s' = true := by
  induction l generalizing s with
  | nil => cases h; exact hj
  | cons i is ih =>
    simp only [runList] at h
    cases he : effect i s with
    | error c => rw [he] at h; cases h
    | ok s1 =>
      rw [he] at h
      exact ih (fun j hj => hl j (List.mem_cons_of_mem _ hj)) h
        (effect_microOp_vf (hl i (List.mem_cons_self ..)) he hj)

/-! ## Templates hold micro-operations only -/

theorem arcTemplate_microOps (t : Nat) (c : Nat → Fe) : ∀ i ∈ arcTemplate t c, isMicroOp i = true := by
  simp only [arcTemplate, List.mem_map]
  rintro _ ⟨_, _, rfl⟩
  rfl

theorem sboxTemplate_microOps (j : Nat) : ∀ i ∈ sboxTemplate j, isMicroOp i = true := by
  simp [sboxTemplate, isMicroOp]

theorem sboxFullTemplate_microOps (t : Nat) : ∀ i ∈ sboxFullTemplate t, isMicroOp i = true := by
  intro i hi
  obtain ⟨j, -, hj⟩ := List.mem_flatMap.mp hi
  exact sboxTemplate_microOps j i hj

theorem sboxStep_microOps (b : Bank) (r : Nat) : ∀ i ∈ sboxStep b r, isMicroOp i = true := by
  unfold sboxStep
  split
  · exact sboxFullTemplate_microOps _
  · exact sboxTemplate_microOps 0

theorem mixRow_microOps (t : Nat) (m : Nat → Nat → Fe) (r : Nat) : ∀ i ∈ mixRow t m r, isMicroOp i = true := by
  intro i hi
  rcases List.mem_cons.mp hi with rfl | hi
  · rfl
  · obtain ⟨j, -, hj⟩ := List.mem_flatMap.mp hi
    simp only [List.mem_cons, List.not_mem_nil, or_false] at hj
    rcases hj with rfl | rfl <;> rfl

theorem mixTemplate_microOps (t : Nat) (m : Nat → Nat → Fe) : ∀ i ∈ mixTemplate t m, isMicroOp i = true := by
  intro i hi
  obtain ⟨j, -, hj⟩ := List.mem_flatMap.mp hi
  exact mixRow_microOps t m j i hj

theorem roundList_microOps (b : Bank) (r : Nat) : ∀ i ∈ roundList b r, isMicroOp i = true := by
  intro i hi
  simp only [roundList, List.mem_append] at hi
  rcases hi with hi | hi | hi
  · exact arcTemplate_microOps _ _ i hi
  · exact sboxStep_microOps _ _ i hi
  · exact mixTemplate_microOps _ _ i hi

theorem genList_microOps (b : Bank) : ∀ i ∈ genList b, isMicroOp i = true := by
  intro i hi
  obtain ⟨r, -, hr⟩ := List.mem_flatMap.mp hi
  exact roundList_microOps b r i hr

/-! ## The fault record -/

theorem recordFault_of_empty {c : Cause} {pc : BitVec 32} {s : State} (h : s.ecause = 0) :
    recordFault c pc s = { s with ecause := causeCode c, epc := pc, einfo := causeInfo c } := by
  simp [recordFault, faulted, h]

/-- The record keeps the first fault (R21, R181). -/
theorem recordFault_of_faulted {c : Cause} {pc : BitVec 32} {s : State} (h : s.ecause ≠ 0) :
    recordFault c pc s = s := by
  have hf : faulted s = true := decide_eq_true h
  simp only [recordFault, hf, if_true]

/-- No fault is recorded under the code 0, and none under a code above 9 (R170). -/
theorem causeCode_range (c : Cause) : causeCode c ≠ 0 ∧ (causeCode c).toNat ≤ 9 := by
  cases c <;> exact ⟨by simp [causeCode], by simp [causeCode]⟩

theorem raiseFault_ecause_ne_zero (o : Origin) (c : Cause) (s : State) : (raiseFault o c s).ecause ≠ 0 := by
  have h : ∀ pc, (recordFault c pc s).ecause ≠ 0 := by
    intro pc
    by_cases hs : s.ecause = 0
    · rw [recordFault_of_empty hs]; exact (causeCode_range c).1
    · rw [recordFault_of_faulted hs]; exact hs
  cases o <;> exact h _

/-- The frame of a write of the record. -/
theorem recordFault_frame (c : Cause) (pc : BitVec 32) (s : State) :
    recordFault c pc s = { s with
      ecause := (recordFault c pc s).ecause, epc := (recordFault c pc s).epc,
      einfo := (recordFault c pc s).einfo } := by
  unfold recordFault
  split <;> rfl

/-- The frame of a fault raised by the host's side (R180). -/
theorem raiseFault_host_frame (c : Cause) (s : State) :
    raiseFault .host c s = { s with
      ecause := (raiseFault .host c s).ecause, epc := (raiseFault .host c s).epc,
      einfo := (raiseFault .host c s).einfo } :=
  recordFault_frame ..

/-- The frame of a fault raised by an engine step (R180). -/
theorem raiseFault_engine_frame (c : Cause) (s : State) :
    raiseFault .engine c s = { s with
      busy := false, ecause := (raiseFault .engine c s).ecause, epc := (raiseFault .engine c s).epc,
      einfo := (raiseFault .engine c s).einfo } := by
  have h := recordFault_frame c s.upc s
  simp only [raiseFault]
  rw [h]

/-! ## Sequencing -/

/-- The frame of the advance of `ROUND`. -/
theorem nextRound_frame (s : State) :
    nextRound s = { s with round := s.round + 1, free := (nextRound s).free } := rfl

theorem nextRound_of_fits {s : State} (h : s.round + 1 < 2 ^ 16) :
    nextRound s = { s with round := s.round + 1 } := by
  simp only [nextRound, if_pos h]

end Machine

end Sys2Proof
end

