-- ==== Sys2Proof/Laws/Memory.lean ====
section
/-! SUPPORT. The stores keep their canonical form: every operation over them keeps `Memory.wf`, and the memory after
reset has it. -/

namespace Sys2Proof

namespace Machine

theorem pushRc_wf {p : Config.Params} {m : Memory} (v : Fe) (h : m.wf p) (hl : m.rcs.length < p.rcCap) :
    (m.pushRc v).wf p := by
  obtain ⟨h1, h2, h3⟩ := h
  exact ⟨by simp only [Memory.pushRc, List.length_append, List.length_singleton]; omega, h2, h3⟩

theorem pushMds_wf {p : Config.Params} {m : Memory} (v : Fe) (h : m.wf p) (hl : m.mdss.length < p.mdsCap) :
    (m.pushMds v).wf p := by
  obtain ⟨h1, h2, h3⟩ := h
  exact ⟨h1, by simp only [Memory.pushMds, List.length_append, List.length_singleton]; omega, h3⟩

theorem pushProg_wf {p : Config.Params} {m : Memory} (w : UopWord) (h : m.wf p) (hl : m.pms.length < p.pmCap) :
    (m.pushProg w).wf p := by
  obtain ⟨h1, h2, h3⟩ := h
  exact ⟨h1, h2, by simp only [Memory.pushProg, List.length_append, List.length_singleton]; omega⟩

theorem setProg_wf {p : Config.Params} {m : Memory} (l : List UopWord) (h : m.wf p) (hl : l.length ≤ p.pmCap) :
    (m.setProg l).wf p :=
  ⟨h.1, h.2.1, hl⟩

/-- The stores after reset. -/
theorem reset_wf (p : Config.Params) : Bank.reset.mem.wf p := ⟨Nat.zero_le _, Nat.zero_le _, Nat.zero_le _⟩

/-! ## Read after append -/

theorem rcs_pushRc_last (v : Fe) (m : Memory) : (m.pushRc v).rcs[m.rcs.length]? = some v := by
  simp [Memory.pushRc]

theorem rcs_pushRc_before {v : Fe} {m : Memory} {i : Nat} (h : i < m.rcs.length) :
    (m.pushRc v).rcs[i]? = m.rcs[i]? := by
  simp [Memory.pushRc, List.getElem?_append_left h]

theorem mdss_pushMds_last (v : Fe) (m : Memory) : (m.pushMds v).mdss[m.mdss.length]? = some v := by
  simp [Memory.pushMds]

theorem mdss_pushMds_before {v : Fe} {m : Memory} {i : Nat} (h : i < m.mdss.length) :
    (m.pushMds v).mdss[i]? = m.mdss[i]? := by
  simp [Memory.pushMds, List.getElem?_append_left h]

theorem pms_pushProg_last (w : UopWord) (m : Memory) : (m.pushProg w).pms[m.pms.length]? = some w := by
  simp [Memory.pushProg]

theorem pms_pushProg_before {w : UopWord} {m : Memory} {i : Nat} (h : i < m.pms.length) :
    (m.pushProg w).pms[i]? = m.pms[i]? := by
  simp [Memory.pushProg, List.getElem?_append_left h]

end Machine

end Sys2Proof
end

