-- ==== Sys2Proof/Laws/PerInstr.lean ====
section
/-! SUPPORT. Statements made for each instruction. The one family, `Row`: the word of an instruction agrees with its row of
the opcode table in every bit that the row fixes (30_encoding.md R63, R67). -/

namespace Sys2Proof

namespace Laws

namespace Row

/-- The word has the fixed fields of a row of R63 with no literal: opcode, `res = 0`, `lit = 0`. -/
def RegisterRow (op : BitVec 8) : Encoded → Prop
  | .uop w => uopOp w = op ∧ uopRes w = 0 ∧ uopLit w = 0
  | .cmd _ => False

/-- The word has the fixed fields of a row of R63 with a literal: opcode, `rs2 = 0`, `res = 0`. -/
def LiteralRow (op : BitVec 8) : Encoded → Prop
  | .uop w => uopOp w = op ∧ uopRs2Bits w = 0 ∧ uopRes w = 0
  | .cmd _ => False

/-- The word is that of a row of R67: `(word AND mask) = match`. -/
def CommandRow (mask pattern : CmdWord) : Encoded → Prop
  | .uop _ => False
  | .cmd w => w &&& mask = pattern

/-- The row of each instruction, with the mask and the match of the table. -/
def Statement (i : Instr) : Prop :=
  match i with
  | .fadd _ _ _ => RegisterRow 0x01 (encode i)
  | .faddi _ _ _ => LiteralRow 0x02 (encode i)
  | .fmul _ _ _ => RegisterRow 0x03 (encode i)
  | .fmuli _ _ _ => LiteralRow 0x04 (encode i)
  | .init _ => CommandRow 0xFFFFFEFF 0x00000001 (encode i)
  | .permute _ _ _ => CommandRow 0xFF00FCFF 0x00000002 (encode i)
  | .hash2 _ => CommandRow 0xFFFFFDFF 0x00000003 (encode i)
  | .hash4 _ => CommandRow 0xFFFFFDFF 0x00000104 (encode i)
  | .execProg _ => CommandRow 0xFFFFFEFF 0x00000005 (encode i)
  | .gen _ => CommandRow 0xFFFFFEFF 0x00000006 (encode i)
  | .clrerr => CommandRow 0xFFFFFFFF 0x00000007 (encode i)

theorem fadd (rd rs1 rs2 : Reg) : Statement (.fadd rd rs1 rs2) :=
  ⟨uopOp_formatU .., uopRes_formatU .., uopLit_formatU ..⟩

theorem faddi (rd rs1 : Reg) (lit : Word) : Statement (.faddi rd rs1 lit) :=
  ⟨uopOp_formatU .., uopRs2Bits_formatU .., uopRes_formatU ..⟩

theorem fmul (rd rs1 rs2 : Reg) : Statement (.fmul rd rs1 rs2) :=
  ⟨uopOp_formatU .., uopRes_formatU .., uopLit_formatU ..⟩

theorem fmuli (rd rs1 : Reg) (lit : Word) : Statement (.fmuli rd rs1 lit) :=
  ⟨uopOp_formatU .., uopRs2Bits_formatU .., uopRes_formatU ..⟩

theorem init (k : BankId) : Statement (.init k) := by
  show formatC 0 false k 0x01 &&& 0xFFFFFEFF = 0x00000001
  revert k; decide

theorem permute (k : BankId) (u : Bool) (len : BitVec 8) : Statement (.permute k u len) := by
  show formatC len u k 0x02 &&& 0xFF00FCFF = 0x00000002
  apply BitVec.eq_of_getLsbD_eq
  intro i hi
  simp only [formatC, BitVec.getLsbD_and, BitVec.getLsbD_append]
  interval_cases i <;> simp

theorem hash2 (u : Bool) : Statement (.hash2 u) := by
  show formatC 0 u 0 0x03 &&& 0xFFFFFDFF = 0x00000003
  cases u <;> decide

theorem hash4 (u : Bool) : Statement (.hash4 u) := by
  show formatC 0 u 1 0x04 &&& 0xFFFFFDFF = 0x00000104
  cases u <;> decide

theorem execProg (k : BankId) : Statement (.execProg k) := by
  show formatC 0 false k 0x05 &&& 0xFFFFFEFF = 0x00000005
  revert k; decide

theorem gen (k : BankId) : Statement (.gen k) := by
  show formatC 0 false k 0x06 &&& 0xFFFFFEFF = 0x00000006
  revert k; decide

theorem clrerr : Statement .clrerr := by
  show formatC 0 false 0 0x07 &&& 0xFFFFFFFF = 0x00000007
  decide

end Row

end Laws

end Sys2Proof
end

