-- ==== Sys2Proof/Laws/Step.lean ====
section
/-! SUPPORT. What a step can do, said once: a command's own rule, a transaction of the host, a step of the engine, a step of the
core. -/

namespace Sys2Proof

namespace Machine

/-! ## Commands -/

/-- What the rule of a command that raises nothing does to the state (R127, R143 to R152). -/
inductive CommandEffect (s : State) : Instr → State → Prop
  /-- INIT locks a well-formed bank. -/
  | init (k : BankId) (hl : (bankAt k s).lock = false) (hc : cfgCheck k (bankAt k s) = none)
      (hp : (bankAt k s).mem.pms.length = 0 ∨ (bankAt k s).mem.pms.length = (bankAt k s).nops) :
      CommandEffect s (.init k) (setBank k { bankAt k s with
        lock := true, uvalid := decide ((bankAt k s).mem.pms.length = (bankAt k s).nops) } s)
  /-- GEN replaces the program of an unlocked, well-formed bank. -/
  | gen (k : BankId) (hl : (bankAt k s).lock = false) (hc : cfgCheck k (bankAt k s) = none)
      (hp : (bankAt k s).nops ≤ s.params.pmCap) :
      CommandEffect s (.gen k)
        (setBank k { bankAt k s with mem := (bankAt k s).mem.setProg (genWords (bankAt k s)) } s)
  /-- PERMUTE starts the engine on a locked bank whose slots are valid. -/
  | permute (k : BankId) (u : Bool) (len : BitVec 8) (hl : (bankAt k s).lock = true)
      (hu : u = true → (bankAt k s).uvalid = true) (ht : len.toNat = (bankAt k s).width)
      (hv : ∀ i < (bankAt k s).width, validF i s = true) :
      CommandEffect s (.permute k u len) (startRun k u false s)
  /-- HASH2 writes the sponge state and starts the engine on bank 0. -/
  | hash2 (u : Bool) (hl : s.bank0.lock = true) (hu : u = true → s.bank0.uvalid = true)
      (hv : ∀ i < 2, validIn i s = true) :
      CommandEffect s (.hash2 u)
        (startRun 0 u true (writeF 2 s.inp[1] (writeF 1 s.inp[0] (writeF 0 feZero s))))
  /-- HASH4 writes the sponge state and starts the engine on bank 1. -/
  | hash4 (u : Bool) (hl : s.bank1.lock = true) (hu : u = true → s.bank1.uvalid = true)
      (hv : ∀ i < 4, validIn i s = true) :
      CommandEffect s (.hash4 u) (startRun 1 u true
        (writeF 4 s.inp[3] (writeF 3 s.inp[2] (writeF 2 s.inp[1] (writeF 1 s.inp[0] (writeF 0 feZero s))))))
  /-- EXEC starts the engine. -/
  | execProg (k : BankId) : CommandEffect s (.execProg k) (startRun k true false s)
  /-- CLRERR clears the record. -/
  | clrerr : CommandEffect s .clrerr (clearRecord s)

/-- A guard `u && !valid` that does not stop the command. -/
theorem guard_passed {u v : Bool} (h : (u && !v) ≠ true) : u = true → v = true := by
  cases u <;> cases v <;> simp_all

/-- A command that raises nothing has its effect. -/
theorem effect_command_cases {i : Instr} {s s' : State} (hi : isMicroOp i = false) (h : effect i s = .ok s') :
    CommandEffect s i s' := by
  cases i with
  | init k =>
    simp only [effect, initEffect] at h
    split at h
    · cases h
    split at h
    · cases h
    split at h
    · cases h
    cases h
    exact .init k (by simpa using ‹¬ (bankAt k s).lock = true›) ‹_› (by omega)
  | gen k =>
    simp only [effect, genEffect] at h
    split at h
    · cases h
    split at h
    · cases h
    split at h
    · cases h
    cases h
    exact .gen k (by simpa using ‹¬ (bankAt k s).lock = true›) ‹_› (by omega)
  | permute k u len =>
    simp only [effect, permuteEffect] at h
    split at h
    · cases h
    split at h
    · cases h
    split at h
    · cases h
    split at h
    · cases h
    cases h
    exact .permute k u len (by simpa using ‹¬ (!(bankAt k s).lock) = true›) (guard_passed ‹_›) (by omega)
      (firstInvalidF_eq_none.mp ‹_›)
  | hash2 u =>
    simp only [effect, hash2Effect] at h
    split at h
    · cases h
    split at h
    · cases h
    split at h
    · cases h
    cases h
    exact .hash2 u (by simpa using ‹¬ (!s.bank0.lock) = true›) (guard_passed ‹_›) (firstInvalidIn_eq_none.mp ‹_›)
  | hash4 u =>
    simp only [effect, hash4Effect] at h
    split at h
    · cases h
    split at h
    · cases h
    split at h
    · cases h
    cases h
    exact .hash4 u (by simpa using ‹¬ (!s.bank1.lock) = true›) (guard_passed ‹_›) (firstInvalidIn_eq_none.mp ‹_›)
  | execProg k => cases h; exact .execProg k
  | clrerr => cases h; exact .clrerr
  | _ => cases hi

/-- A value written to `CMD` never decodes to a micro-operation. -/
theorem decodeCommand_isMicroOp {v : Word} {i : Instr} (h : decodeCommand v = .ok i) : isMicroOp i = false := by
  simp only [decodeCommand] at h
  split at h
  · cases h
  split at h
  · rename_i j hj
    cases h
    simp only [decodeCmdWord] at hj
    repeat' split at hj
    all_goals first | (cases hj; rfl) | cases hj
  · cases h

/-- A micro-op word never decodes to a command. -/
theorem decodeUop_isMicroOp {w : UopWord} {i : Instr} (h : decodeUop w = .ok i) : isMicroOp i = true := by
  simp only [decodeUop] at h
  repeat' split at h
  all_goals first | (cases h; rfl) | cases h

/-! ## Transactions -/

/-- What a write that raises nothing does to bank `k`: an unlocked bank stays unlocked, its `UVALID` stays, and its stores
keep within their capacities. -/
structure BankWrite (p : Config.Params) (b b' : Bank) : Prop where
  unlocked : b.lock = false
  lock : b'.lock = false
  uvalid : b'.uvalid = b.uvalid
  wf : b.mem.wf p → b'.mem.wf p

/-- The transactions that issue the command `i`: the write to `CMD` of a value that decodes to it, in either form of the port
(R140, R49). -/
def IssuesCommand (t : HostTxn) (i : Instr) : Prop :=
  ∃ v, decodeCommand v = .ok i ∧ (t = .csrWrite 0x02 v ∨ t = .busWrite 0x02 v)

/-- What a transaction of the host does to the state (R40). -/
inductive HostEffect (s : State) : HostTxn → State → Prop
  | reset : HostEffect s .reset (resetCore s)
  | answered (t : HostTxn) (r : Option Reply) : HostEffect s t { s with reply := r }
  | refused (t : HostTxn) (c : Cause) (r : Option Reply) : HostEffect s t { raiseFault .host c s with reply := r }
  | dropped (t : HostTxn) (h : s.ecause ≠ 0) : HostEffect s t s
  | raised (t : HostTxn) (c : Cause) (h : s.ecause = 0) : HostEffect s t (raiseFault .host c s)
  | literal (t : HostTxn) (v : Word) (h : s.ecause = 0) : HostEffect s t { s with pmlit := v }
  | input (t : HostTxn) (i : Fin 4) (x : Fe) (h : s.ecause = 0) : HostEffect s t (writeIn i x s)
  | field (t : HostTxn) (i : Reg) (x : Fe) (h : s.ecause = 0) : HostEffect s t (writeF i x s)
  | bank (t : HostTxn) (k : BankId) (b : Bank) (h : s.ecause = 0) (hb : BankWrite s.params (bankAt k s) b) :
      HostEffect s t (setBank k b s)
  | command (t : HostTxn) (i : Instr) (s' : State) (ht : IssuesCommand t i) (h : s.ecause = 0 ∨ i = .clrerr)
      (hc : CommandEffect s i s') : HostEffect s t s'

theorem not_faulted {s : State} (h : ¬ faulted s = true) : s.ecause = 0 := by
  simpa [faulted] using h

theorem faulted_iff {s : State} : faulted s = true ↔ s.ecause ≠ 0 := by
  simp [faulted]

/-- The two answers of a read while a fault is recorded (R181): its word, or 0 with the record left as it is. -/
@[simp] theorem answerRead_ok (z r : Reply) (s : State) : answerRead z (.ok r) s = { s with reply := some r } := rfl

theorem answerRead_error_of_faulted {s : State} (h : s.ecause ≠ 0) (z : Reply) (c : Cause) :
    answerRead z (.error c) s = { s with reply := some z } := by
  simp only [answerRead, raiseFault, recordFault_of_faulted h]

/-- What a read returns does not depend on what the host has yet to perform. -/
@[simp] theorem csrRead_pending (n : BitVec 8) (s : State) (l : List Pending) :
    csrRead n { s with pending := l } = csrRead n s := by
  simp only [csrRead]
  cases csrOf n with
  | none => rfl
  | some c => cases c <;> rfl

@[simp] theorem fRead_pending (i : Reg) (s : State) (l : List Pending) :
    fRead i { s with pending := l } = fRead i s := rfl

@[simp] theorem tabRead_pending (sp : Space) (k : BankId) (idx : Nat) (s : State) (l : List Pending) :
    tabRead sp k idx { s with pending := l } = tabRead sp k idx s := by
  cases sp <;> rfl

@[simp] theorem busRead_pending (a : BitVec 32) (s : State) (l : List Pending) :
    busRead a { s with pending := l } = busRead a s := by
  simp only [busRead]
  cases busTarget a with
  | csr n => exact csrRead_pending ..
  | _ => rfl

/-- A read transaction. -/
theorem answerRead_effect (t : HostTxn) (z : Reply) (r : Except Cause Reply) (s : State) :
    HostEffect s t (answerRead z r s) := by
  cases r with
  | ok v => exact .answered t _
  | error c => exact .refused t c _

/-- A write transaction whose write, when it raises nothing, has an effect of the list. -/
theorem hostWrite_effect {t : HostTxn} {w : State → Except Cause State} {s s' : State}
    (hw : ∀ s1, s.ecause = 0 → w s = .ok s1 → HostEffect s t s1) (h : hostWrite w s = .next s') :
    HostEffect s t s' := by
  simp only [hostWrite] at h
  split at h
  · cases h; exact .dropped t (faulted_iff.mp ‹_›)
  · have hf := not_faulted ‹_›
    cases he : w s with
    | error c => rw [he] at h; cases h; exact .raised t c hf
    | ok s1 => rw [he] at h; cases h; exact hw _ hf he

theorem configWrite_effect {t : HostTxn} {k : BankId} {n : BitVec 8} {v : Word} {put : BitVec 16 → Bank → Bank}
    {s s' : State} (hf : s.ecause = 0) (h : configWrite k n v put s = .ok s')
    (hp : ∀ x b, (put x b).lock = b.lock ∧ (put x b).uvalid = b.uvalid ∧ (put x b).mem = b.mem) :
    HostEffect s t s' := by
  simp only [configWrite] at h
  split at h
  · cases h
  have hl : (bankAt k s).lock = false := by simpa using ‹¬ (bankAt k s).lock = true›
  split at h
  · cases h
  cases h
  rename_i x _
  obtain ⟨h1, h2, h3⟩ := hp x (bankAt k s)
  exact .bank t k _ hf ⟨hl, h1.trans hl, h2, fun hm => by rw [h3]; exact hm⟩

theorem rcPush_effect {t : HostTxn} {k : BankId} {n : BitVec 8} {v : Word} {s s' : State} (hf : s.ecause = 0)
    (h : rcPush k n v s = .ok s') : HostEffect s t s' := by
  simp only [rcPush] at h
  split at h
  · cases h
  have hl : (bankAt k s).lock = false := by simpa using ‹¬ (bankAt k s).lock = true›
  split at h
  · cases h
  split at h
  · cases h
  cases h
  exact .bank t k _ hf ⟨hl, hl, rfl, fun hm => pushRc_wf _ hm (by omega)⟩

theorem mdsPush_effect {t : HostTxn} {k : BankId} {n : BitVec 8} {v : Word} {s s' : State} (hf : s.ecause = 0)
    (h : mdsPush k n v s = .ok s') : HostEffect s t s' := by
  simp only [mdsPush] at h
  split at h
  · cases h
  have hl : (bankAt k s).lock = false := by simpa using ‹¬ (bankAt k s).lock = true›
  split at h
  · cases h
  split at h
  · cases h
  cases h
  exact .bank t k _ hf ⟨hl, hl, rfl, fun hm => pushMds_wf _ hm (by omega)⟩

theorem pmPush_effect {t : HostTxn} {k : BankId} {n : BitVec 8} {v : Word} {s s' : State} (hf : s.ecause = 0)
    (h : pmPush k n v s = .ok s') : HostEffect s t s' := by
  simp only [pmPush] at h
  split at h
  · cases h
  have hl : (bankAt k s).lock = false := by simpa using ‹¬ (bankAt k s).lock = true›
  split at h
  · cases h
  split at h
  · cases h
  cases h
  exact .bank t k _ hf ⟨hl, hl, rfl, fun hm => pushProg_wf _ hm (by omega)⟩

theorem fWrite_effect {t : HostTxn} {i : Reg} {v : Word} {s s' : State} (hf : s.ecause = 0)
    (h : fWrite i v s = .ok s') : HostEffect s t s' := by
  simp only [fWrite] at h
  split at h <;> cases h
  exact .field t i _ hf

theorem inWrite_effect {t : HostTxn} {i : Fin 4} {v : Word} {s s' : State} (hf : s.ecause = 0)
    (h : inWrite i v s = .ok s') : HostEffect s t s' := by
  simp only [inWrite] at h
  split at h <;> cases h
  exact .input t i _ hf

theorem bankRegWrite_effect {t : HostTxn} {k : BankId} {r : BankReg} {n : BitVec 8} {v : Word} {s s' : State}
    (hf : s.ecause = 0) (h : bankRegWrite k r n v s = .ok s') : HostEffect s t s' := by
  cases r with
  | t | rf | rp | mdsrows | mdscols =>
    simp only [bankRegWrite] at h
    exact configWrite_effect hf h fun _ _ => ⟨rfl, rfl, rfl⟩
  | rcpush => exact rcPush_effect hf h
  | mdspush => exact mdsPush_effect hf h
  | pmpush => exact pmPush_effect hf h
  | alpha | rclen | mdslen | plen | bstat => cases h

theorem csrPut_effect {t : HostTxn} {n : BitVec 8} {v : Word} {s s' : State} (hf : s.ecause = 0)
    (h : csrPut n v s = .ok s') : HostEffect s t s' := by
  simp only [csrPut] at h
  split at h
  · cases h; exact .literal t v hf
  · exact inWrite_effect hf h
  · exact bankRegWrite_effect hf h
  · cases h

/-- The write of `CMD` (R140). -/
theorem issueCommand_effect {t : HostTxn} {v : Word} {s s' : State}
    (ht : t = .csrWrite 0x02 v ∨ t = .busWrite 0x02 v) (h : issueCommand v s = .next s') : HostEffect s t s' := by
  simp only [issueCommand] at h
  split at h
  · rename_i hg
    cases h
    exact .dropped t (faulted_iff.mp (Bool.and_eq_true_iff.mp hg).1)
  rename_i hg
  cases hd : decodeCommand v with
  | error r =>
    rw [hd] at h
    cases h
    have hc : isClrerr v = false := by simp only [isClrerr, hd]
    exact .raised t _ (not_faulted fun hf => hg (by rw [hf, hc]; rfl))
  | ok i =>
    rw [hd] at h
    have hm := decodeCommand_isMicroOp hd
    have hi : s.ecause = 0 ∨ i = .clrerr := by
      by_cases hf : s.ecause = 0
      · exact .inl hf
      · refine .inr ?_
        have hcl : isClrerr v = true := by
          simpa [faulted_iff.mpr hf] using hg
        simp only [isClrerr, hd] at hcl
        split at hcl
        · rename_i heq; cases heq; rfl
        · cases hcl
    replace h : exec i s = .next s' := h
    rw [exec_eq_finish, originOf, hm] at h
    cases he : effect i s with
    | ok s1 => rw [he] at h; cases h; exact .command t i _ ⟨v, hd, ht⟩ hi (effect_command_cases hm he)
    | error c =>
      rw [he] at h
      cases h
      rcases hi with hi | rfl
      · exact .raised t c hi
      · cases he

/-- `CMD` has one number (R25). -/
theorem csrOf_cmd_iff (n : BitVec 8) : csrOf n = some .cmd ↔ n = 0x02 := by
  revert n
  decide +kernel

theorem csrWrite_effect {t : HostTxn} {n : BitVec 8} {v : Word} {s s' : State}
    (ht : n = 0x02 → t = .csrWrite 0x02 v ∨ t = .busWrite 0x02 v) (h : csrWrite n v s = .next s') :
    HostEffect s t s' := by
  simp only [csrWrite] at h
  split at h
  · exact issueCommand_effect (ht ((csrOf_cmd_iff n).mp ‹_›)) h
  · exact hostWrite_effect (fun _ hf he => csrPut_effect hf he) h

/-- A bus address that selects a CSR is the CSR's number (R49). -/
theorem busTarget_csr {a : BitVec 32} {n : BitVec 8} (h : busTarget a = .csr n) : a = n.setWidth 32 := by
  have hw : ∀ k o, bankWindow k o ≠ .csr n := by
    intro k o hk
    simp only [bankWindow] at hk
    split at hk <;> (try split at hk) <;> (try split at hk) <;> cases hk
  simp only [busTarget] at h
  split at h
  · cases h
    apply BitVec.eq_of_toNat_eq
    simp only [BitVec.toNat_setWidth]
    omega
  · split at h
    · cases h
    · split at h
      · exact absurd h (hw _ _)
      · split at h
        · exact absurd h (hw _ _)
        · cases h

/-- Everything a transaction can do. -/
theorem perform_effect {t : HostTxn} {s s' : State} (h : perform t s = .next s') : HostEffect s t s' := by
  cases t with
  | reset => cases h; exact .reset
  | csrRead n => cases h; exact answerRead_effect ..
  | csrWrite n v => exact csrWrite_effect (fun hn => .inl (by rw [hn])) h
  | fRead i => cases h; exact answerRead_effect ..
  | fWrite i v => exact hostWrite_effect (fun _ hf he => fWrite_effect hf he) h
  | tabRead sp k idx => cases h; exact answerRead_effect ..
  | busRead a => cases h; exact answerRead_effect ..
  | busWrite a v =>
    simp only [perform, busWrite] at h
    split at h
    · rename_i n hn
      exact csrWrite_effect (fun h2 => .inr (by rw [busTarget_csr hn, h2]; rfl)) h
    · exact hostWrite_effect (fun _ hf he => fWrite_effect hf he) h
    · exact hostWrite_effect (fun _ _ he => by cases he) h

/-- A transaction always answers a next state. -/
theorem perform_goes_on (t : HostTxn) (s : State) : ∃ s', perform t s = .next s' := by
  have hw : ∀ w, ∃ s', hostWrite w s = .next s' := by
    intro w
    simp only [hostWrite]
    split
    · exact ⟨_, rfl⟩
    · cases w s <;> exact ⟨_, rfl⟩
  have hc : ∀ n v, ∃ s', csrWrite n v s = .next s' := by
    intro n v
    simp only [csrWrite]
    split
    · simp only [issueCommand]
      split
      · exact ⟨_, rfl⟩
      · split
        · exact exec_goes_on ..
        · exact ⟨_, rfl⟩
    · exact hw _
  cases t with
  | csrWrite n v => exact hc n v
  | fWrite i v => exact hw _
  | busWrite a v =>
    simp only [perform, busWrite]
    split
    · exact hc _ v
    · exact hw _
    · exact hw _
  | _ => exact ⟨_, rfl⟩

/-! ## The engine -/

/-- What a step of the engine does (R110, R113, R114, R180). -/
inductive EngineEffect (s : State) : State → Prop
  | completed (h : if s.umode = true then s.upc.toNat = (bankAt s.ksel s).mem.pms.length
      else s.round = (bankAt s.ksel s).rounds) : EngineEffect s (completeRun s)
  | raised (c : Cause) : EngineEffect s (raiseFault .engine c s)
  | microOp (i : Instr) (s' : State) (hu : s.umode = true) (hlen : s.upc.toNat < (bankAt s.ksel s).mem.pms.length)
      (hi : isMicroOp i = true) (he : effect i s = .ok s') : EngineEffect s s'
  | arc (s' : State) (hu : s.umode = false) (hr : s.round ≠ (bankAt s.ksel s).rounds) (hp : s.phase = .arc)
      (hw : (bankAt s.ksel s).width = widthOf s.ksel)
      (he : runList (arcTemplate (bankAt s.ksel s).width (roundConstant (bankAt s.ksel s) s.round)) s = .ok s') :
      EngineEffect s { s' with phase := .sbox }
  | sbox (s' : State) (hu : s.umode = false) (hr : s.round ≠ (bankAt s.ksel s).rounds) (hp : s.phase = .sbox)
      (hw : (bankAt s.ksel s).width = widthOf s.ksel)
      (he : runList (sboxStep (bankAt s.ksel s) s.round) s = .ok s') : EngineEffect s { s' with phase := .mix }
  | mix (s' : State) (hu : s.umode = false) (hr : s.round ≠ (bankAt s.ksel s).rounds) (hp : s.phase = .mix)
      (hw : (bankAt s.ksel s).width = widthOf s.ksel)
      (he : runList (mixTemplate (bankAt s.ksel s).width (bankAt s.ksel s).mds) s = .ok s') :
      EngineEffect s { nextRound s' with phase := .arc }

/-- Everything the loop-mode step can do. -/
theorem loopStep_effect {s s' : State} (hu : s.umode = false) (h : loopStep s = .next s') : EngineEffect s s' := by
  simp only [loopStep] at h
  split at h
  · cases h
    exact .completed (by rw [hu]; simpa using ‹_›)
  rename_i hr
  split at h
  · cases h
  have hw : (bankAt s.ksel s).width = widthOf s.ksel := by omega
  split at h
  · cases h
  · rename_i hp
    cases he : arcStep s with
    | error c => rw [he] at h; cases h; exact .raised c
    | ok s1 =>
      rw [he] at h
      cases h
      simp only [arcStep] at he
      split at he
      · cases he
      split at he
      · cases he
      cases he
      exact .arc _ hu hr hp hw ‹_›
  · rename_i hp
    cases he : sboxStepEffect s with
    | error c => rw [he] at h; cases h; exact .raised c
    | ok s1 =>
      rw [he] at h
      cases h
      simp only [sboxStepEffect] at he
      split at he
      · cases he
      cases he
      exact .sbox _ hu hr hp hw ‹_›
  · rename_i hp
    cases he : mixStep s with
    | error c => rw [he] at h; cases h; exact .raised c
    | ok s1 =>
      rw [he] at h
      cases h
      simp only [mixStep] at he
      split at he
      · cases he
      split at he
      · cases he
      cases he
      exact .mix _ hu hr hp hw ‹_›

/-- Everything the unrolled-mode step can do. -/
theorem unrolledStep_effect {s s' : State} (hu : s.umode = true) (h : unrolledStep s = .next s') :
    EngineEffect s s' := by
  simp only [unrolledStep] at h
  split at h
  · cases h
    exact .completed (by rw [hu]; simpa using ‹_›)
  split at h
  · cases h; exact .raised _
  rename_i w hf
  split at h
  · cases h; exact .raised _
  rename_i i hd
  have hm := decodeUop_isMicroOp hd
  rw [exec_eq_finish, originOf, hm] at h
  cases he : effect i s with
  | error c => rw [he] at h; cases h; exact .raised c
  | ok s1 =>
    rw [he] at h
    cases h
    refine .microOp i _ hu ?_ hm he
    simp only [fetchUop] at hf
    split at hf
    · exact (List.getElem?_eq_some_iff.mp ‹_›).1
    · cases hf

/-- Everything a step of the engine can do. -/
theorem engineStep_effect {s s' : State} (h : engineStep s = .next s') : EngineEffect s s' := by
  simp only [engineStep] at h
  split at h
  · exact unrolledStep_effect ‹_› h
  · exact loopStep_effect ((Bool.not_eq_true _).mp ‹_›) h

/-! ## A step -/

/-- The transaction that a busy core performs is enabled then, and is one of those the host has yet to perform. -/
theorem takeDue_some {l others : List Pending} {t : HostTxn} (h : takeDue l = some (t, others)) :
    enabledWhileBusy t = true ∧ ∃ p ∈ l, p.txn = t := by
  induction l generalizing others with
  | nil => cases h
  | cons p rest ih =>
    simp only [takeDue] at h
    split at h
    · rename_i hp
      cases h
      exact ⟨hp.2, p, List.mem_cons_self .., rfl⟩
    · split at h
      · cases h
      · rename_i t' others' hr
        cases h
        obtain ⟨h1, q, hq, h2⟩ := ih hr
        exact ⟨h1, q, List.mem_cons_of_mem _ hq, h2⟩

/-- A step of the core: the host's, the engine's, or none (R54). -/
inductive StepEffect (s : State) : State → Prop
  | host (t : HostTxn) (others : List Pending) (s' : State) (hp : ∃ p ∈ s.pending, p.txn = t)
      (hi : s.busy = false → ∃ d, s.pending = { delay := d, txn := t } :: others)
      (hb : s.busy = true → enabledWhileBusy t = true) (he : HostEffect { s with pending := others } t s') :
      StepEffect s s'
  | engine (s' : State) (hb : s.busy = true) (he : EngineEffect { s with pending := tick s.pending } s') :
      StepEffect s s'
  | none (hb : s.busy = false) : StepEffect s s

/-- An idle core performs the host's next transaction. -/
theorem step_of_idle {s : State} {p : Pending} {rest : List Pending} (hb : s.busy = false) (hp : s.pending = p :: rest) :
    step s = perform p.txn { s with pending := rest } := by
  simp only [step, hb, idleStep, hp]
  rfl

/-- Everything a step can do. -/
theorem step_effect {s s' : State} (h : step s = .next s') : StepEffect s s' := by
  simp only [step] at h
  split at h
  · rename_i hb
    simp only [busyStep] at h
    split at h
    · rename_i t others ht
      obtain ⟨h1, h2⟩ := takeDue_some ht
      exact .host t others _ h2 (fun hi => by rw [hb] at hi; cases hi) (fun _ => h1) (perform_effect h)
    · exact .engine _ hb (engineStep_effect h)
  · rename_i hb
    have hb : s.busy = false := by simpa using hb
    simp only [idleStep] at h
    split at h
    · cases h; exact .none hb
    · rename_i p rest hp
      exact .host p.txn rest _ ⟨p, by rw [hp]; exact List.mem_cons_self .., rfl⟩
        (fun _ => ⟨p.delay, hp⟩) (fun h => by rw [hb] at h; cases h) (perform_effect h)

end Machine

end Sys2Proof
end

