-- ==== Sys2Proof/Tests/Slice0.lean ====
section
/-! SUPPORT. The model's own tests: ill-formed terms, words written out from the encodings, single steps whose results are the
numbers of spec/95_test_vectors.md, and for each statement with hypotheses a state and operands that meet them. -/

namespace Sys2Proof

namespace Machine

namespace Tests

-- One theorem after another: many kernel evaluations at once ask for more memory than the check allows.
set_option Elab.async false

/-! ## Small states -/

/-- A number below `P` as a field element. -/
def fe (n : Nat) : Fe := reduceWord (BitVec.ofNat 256 n)

/-- The toy configuration A of 95_test_vectors.md 6.1, unlocked, with no program. -/
def toyA : Bank :=
  { t := 3, rf := 2, rp := 1, mdsRows := 3, mdsCols := 3, lock := false, uvalid := false,
    mem := { rcs := [1, 2, 3, 4, 5, 6, 7, 8, 9].map fe, mdss := [2, 1, 1, 1, 2, 1, 1, 1, 3].map fe, pms := [] } }

/-- The toy configuration B of 95_test_vectors.md 6.3, unlocked, with no program. -/
def toyB : Bank :=
  { t := 5, rf := 2, rp := 1, mdsRows := 5, mdsCols := 5, lock := false, uvalid := false,
    mem := { rcs := [1, 2, 3, 4, 5, 6, 7, 8, 9, 10, 11, 12, 13, 14, 15].map fe,
             mdss := ([2, 1, 1, 1, 1, 1, 3, 1, 1, 1, 1, 1, 4, 1, 1] ++ [1, 1, 1, 5, 1, 1, 1, 1, 1, 6]).map fe,
             pms := [] } }

/-- A bank with its generated program. -/
def withProgram (b : Bank) : Bank := { b with mem := b.mem.setProg (genWords b) }

/-- A bank locked by INIT without a program, and with its generated one. -/
def locked (b : Bank) : Bank := { b with lock := true }
def lockedWithProgram (b : Bank) : Bank := { withProgram b with lock := true, uvalid := true }

/-- The reset state with values in the first field registers. -/
def withF (l : List Nat) (s : State) : State :=
  (l.zipIdx).foldl (fun s p => writeF (Fin.ofNat 16 p.2) (fe p.1) s) s

/-- Both banks configured and unlocked, `F[0..4] = [0, 1, 2, 3, 4]`, `IN = [1, 2, 3, 4]`. -/
def configured : State :=
  withF [0, 1, 2, 3, 4]
    { State.reset with
      bank0 := toyA, bank1 := toyB, vin := 15,
      inp := (((State.reset.inp.set 0 (fe 1)).set 1 (fe 2)).set 2 (fe 3)).set 3 (fe 4) }

/-- The same with both banks locked, bank 0 without and bank 1 with its program. -/
def ready : State := { configured with bank0 := locked toyA, bank1 := lockedWithProgram toyB }

/-- `ready` with a transaction that the host performs next. -/
def presenting (t : HostTxn) (s : State) : State := { s with pending := [{ delay := 0, txn := t }] }

/-- `ready` with a recorded fault. -/
def faultedState : State := hostFault ready 8 0x2D

/-- The engine of `configured` busy in unrolled mode on bank 0 with the program `p`, `F[0..4]` valid. -/
def running (p : List UopWord) : State :=
  { configured with bank0 := { toyA with mem := toyA.mem.setProg p }, busy := true, umode := true }

/-- A micro-op word from its control and literal halves. -/
def uopWord (ctl lit : Nat) : UopWord := BitVec.ofNat 288 (ctl * 2 ^ 256 + lit)

/-- A loop-mode run of HASH2 on bank 0 and an unrolled run of HASH4 on bank 1, just started. -/
def loopRunning : State := started 0 false true ready
def unrolledRunning : State := started 1 true true ready

/-- What a step left, as one question on the state after it. -/
def after (o : Host.Outcome State Fault Refusal) (q : State → Bool) : Bool :=
  match o with
  | .next s => q s
  | .fault _ => false
  | .refused _ => false

theorem configured_inv : configured.Inv where
  params := by decide
  bank0 := ⟨by decide, by decide, by decide⟩
  bank1 := ⟨by decide, by decide, by decide⟩
  recordEmpty := by decide
  recordCode := by decide
  busyClean := by decide
  idlePhase := by decide
  loopRun := fun h => absurd h (by decide)
  unrolledRun := by decide
  hashValid := by decide

theorem ready_bank0 : (locked toyA).Ok Config.Params.standard 0 := ⟨by decide, by decide, by decide⟩

theorem ready_bank1 : (lockedWithProgram toyB).Ok Config.Params.standard 1 :=
  ⟨by decide +kernel, by decide +kernel, by decide +kernel⟩

theorem ready_inv : ready.Inv where
  params := by decide
  bank0 := ready_bank0
  bank1 := ready_bank1
  recordEmpty := by decide
  recordCode := by decide
  busyClean := by decide
  idlePhase := by decide
  loopRun := fun h => absurd h (by decide)
  unrolledRun := by decide
  hashValid := by decide

theorem loopRunning_inv : loopRunning.Inv where
  params := by decide
  bank0 := ready_bank0
  bank1 := ready_bank1
  recordEmpty := by decide
  recordCode := by decide
  busyClean := by decide
  idlePhase := by decide
  loopRun := fun _ _ => ⟨by decide, by decide, by decide, by decide, by decide, by decide⟩
  unrolledRun := by decide
  hashValid := by decide

theorem unrolledRunning_inv : unrolledRunning.Inv where
  params := by decide
  bank0 := ready_bank0
  bank1 := ready_bank1
  recordEmpty := by decide
  recordCode := by decide
  busyClean := by decide
  idlePhase := by decide
  loopRun := fun _ h => absurd h (by decide)
  unrolledRun := by decide +kernel
  hashValid := by decide

theorem toyA_configured : WellConfigured 0 toyA :=
  ⟨by unfold WidthOk bankWidth; decide, by unfold FullRoundsEven; decide, by unfold RcLengthOk; decide,
    by unfold MdsShapeOk; decide⟩

theorem toyB_configured : WellConfigured 1 toyB :=
  ⟨by unfold WidthOk bankWidth; decide, by unfold FullRoundsEven; decide, by unfold RcLengthOk; decide,
    by unfold MdsShapeOk; decide⟩

/-! ## Ill-formed terms (R62) -/

theorem test_wf_refuses_faddi_literal_P : (Instr.faddi 5 0 (BitVec.ofNat 256 Config.P)).wf = false := by decide +kernel
theorem test_wf_refuses_fmuli_literal_P : (Instr.fmuli 5 0 (BitVec.ofNat 256 Config.P)).wf = false := by decide +kernel
theorem test_wf_takes_largest_literal : (Instr.faddi 9 4 (BitVec.ofNat 256 (Config.P - 1))).wf = true := by decide +kernel

/-! ## Words written out from the encodings (95_test_vectors.md sections 3 and 4) -/

theorem test_decode_fadd : decodeUop (uopWord 0x0100c000 0) = .ok (.fadd 0 0 12) := by decide +kernel
theorem test_decode_faddi :
    decodeUop (uopWord 0x02940000 (Config.P - 1)) = .ok (.faddi 9 4 (BitVec.ofNat 256 (Config.P - 1))) := by
  decide +kernel
theorem test_decode_fmul : decodeUop (uopWord 0x035b5000 0) = .ok (.fmul 5 11 5) := by decide +kernel
theorem test_decode_fmuli : decodeUop (uopWord 0x04050000 2) = .ok (.fmuli 0 5 2) := by decide +kernel
theorem test_decode_init : decodeCommand 0x00000101 = .ok (.init 1) := by decide +kernel
theorem test_decode_permute : decodeCommand 0x00030202 = .ok (.permute 0 true 3) := by decide +kernel
theorem test_decode_hash2 : decodeCommand 0x00000203 = .ok (.hash2 true) := by decide +kernel
theorem test_decode_hash4 : decodeCommand 0x00000104 = .ok (.hash4 false) := by decide +kernel
theorem test_decode_exec : decodeCommand 0x00000105 = .ok (.execProg 1) := by decide +kernel
theorem test_decode_gen : decodeCommand 0x00000006 = .ok (.gen 0) := by decide +kernel
theorem test_decode_clrerr : decodeCommand 0x00000007 = .ok .clrerr := by decide +kernel

/-- The illegal words of section 3, with the fault of each. -/
theorem test_decode_illegal_uops :
    decodeUop (uopWord 0 0) = .error (.illegalUop 0) ∧
    decodeUop (uopWord 0x05100000 0) = .error (.illegalUop 0x05100000) ∧
    decodeUop (uopWord 0x01100001 0) = .error (.illegalUop 0x01100001) ∧
    decodeUop (uopWord 0x01100000 1) = .error (.illegalUop 0x01100000) ∧
    decodeUop (uopWord 0x02103000 1) = .error (.illegalUop 0x02103000) ∧
    decodeUop (uopWord 0x02100000 Config.P) = .error (.illegalLiteral (BitVec.ofNat 256 Config.P)) ∧
    decodeUop (uopWord 0x02102000 Config.P) = .error (.illegalUop 0x02102000) ∧
    decodeUop (uopWord 0xFFFFFFFF (2 ^ 256 - 1)) = .error (.illegalUop 0xFFFFFFFF) := by
  decide +kernel

/-- The illegal command words of section 4. -/
theorem test_decode_illegal_commands :
    ([0x0, 0x8, 0x9, 0x103, 0x4, 0x201, 0x00010003, 0x107, 0x01000002, 0x402, 0x10000000000].all fun v : Word =>
      decide (decodeCommand v = .error (.illegalCommand v))) = true := by
  decide +kernel

/-- Image bytes stand most significant first (R50): the word of `FADDI f5, f0, 1`. -/
theorem test_decode_bytes : decodeBytes ([0x02, 0x50] ++ List.replicate 33 0 ++ [0x01]) = .ok (.faddi 5 0 1) := by
  decide +kernel

/-! ## One step of each instruction -/

/-- Section 10.1, steps 1 and 3: 3 + (P-1) and 4 + (P-1), reduced. -/
theorem test_fadd_reduces :
    after (exec (.fadd 2 0 1) (withF [3, Config.P - 1] State.reset))
      (fun t => t.f[2] == fe 2 && t.vf == 7 && t.upc == 1 && t.rccnt == 0) = true := by
  decide +kernel
theorem test_faddi_counts :
    after (exec (.faddi 4 0 (BitVec.ofNat 256 (Config.P - 1))) (withF [4] State.reset))
      (fun t => t.f[4] == fe 3 && t.rccnt == 1) = true := by
  decide +kernel
/-- Section 2: `FMUL f0, f0, f0` with `F[0] = P-1` gives 1, the sources being read first. -/
theorem test_fmul_reads_before_write :
    after (exec (.fmul 0 0 0) (withF [Config.P - 1] State.reset)) (fun t => t.f[0] == fe 1) = true := by
  decide +kernel
/-- Section 10.1, step 4. -/
theorem test_fmuli_half :
    after (exec (.fmuli 5 0 (BitVec.ofNat 256 ((Config.P + 1) / 2))) (withF [3] State.reset))
      (fun t => t.f[5] == fe ((Config.P + 3) / 2) && t.rccnt == 0) = true := by
  decide +kernel
/-- Section 10.4, step 3: `rs2 = f9` is invalid. -/
theorem test_fadd_uninit_stops :
    after (exec (.fadd 3 2 9) (running [])) (fun t => t.ecause == 7 && t.einfo == 9 && !t.busy && t.vf == 31) = true := by
  decide +kernel
/-- Section 10.5, rows 12 and 13. -/
theorem test_init_locks :
    after (exec (.init 0) { configured with bank0 := withProgram toyA }) (fun t => statusWord t &&& 0x7F == 0x28) = true := by
  decide +kernel
theorem test_init_of_locked :
    after (exec (.init 0) ready) (fun t => t.ecause == 4 && t.einfo == 1) = true := by
  decide +kernel
/-- Section 10.5, row 20. -/
theorem test_permute_arity :
    after (exec (.permute 0 false 5) ready) (fun t => t.ecause == 3 && t.einfo == 5 && !t.busy) = true := by
  decide +kernel
/-- Section 10.2: HASH2.L accepted. -/
theorem test_hash2_accepted :
    after (exec (.hash2 false) { ready with vin := 3, vf := 0 })
      (fun t => t.f[0] == fe 0 && t.f[1] == fe 1 && t.f[2] == fe 2 && t.vf == 7 && seqWord t == 0x10000) = true := by
  decide +kernel
/-- Section 10.3: HASH4.L accepted. -/
theorem test_hash4_accepted :
    after (exec (.hash4 false) { ready with vf := 0, bank0 := Bank.reset })
      (fun t => t.f[4] == fe 4 && statusWord t == 0xf001f0151) = true := by
  decide +kernel
/-- Section 9: EXEC 0 accepted with `F[0]`, `F[1]` valid. -/
theorem test_exec_accepted :
    after (exec (.execProg 0) (withF [3, 4] State.reset)) (fun t => statusWord t == 0x30201) = true := by
  decide +kernel
/-- Section 6.1: `Gen(0)` has 75 words; words 12 and 74. -/
theorem test_gen_words :
    after (exec (.gen 0) configured) (fun t => t.bank0.mem.pms.length == 75 &&
      t.bank0.mem.pms[12]? == some (uopWord 0x04050000 2) && t.bank0.mem.pms[74]? == some (uopWord 0x0122c000 0)) = true := by
  decide +kernel
theorem test_clrerr :
    after (exec .clrerr faultedState) (fun t => t.ecause == 0 && t.epc == 0 && t.einfo == 0) = true := by
  decide +kernel

/-! ## Steps of the engine and of the host -/

/-- The S-box of section 5. -/
theorem test_sbox : sbox (fe 7) = fe 16807 ∧ sbox (fe (Config.P - 2)) = fe (Config.P - 32) := by decide +kernel

/-- Section 10.2, step 1: ARC of round 0. -/
theorem test_arc_step :
    after (step (loopRunning)) (fun t => t.f[5] == fe 1 && t.f[6] == fe 3 && t.f[7] == fe 5 && t.upc == 3 &&
      seqWord t == 0x20000) = true := by
  decide +kernel

/-- Section 10.2, step 3: MIX of round 0 from `[1, 243, 3125]`. -/
theorem test_mix_step :
    after (step { withF [0, 1, 2, 0, 0, 1, 243, 3125] loopRunning with phase := .mix })
      (fun t => t.f[0] == fe 3370 && t.f[1] == fe 3612 && t.f[2] == fe 9619 && t.f[12] == fe 9375 &&
        seqWord t == 0x10001) = true := by
  decide +kernel

/-- Section 10.5, rows 5 and 8: the reason words of two refused pushes. -/
theorem test_push_reasons :
    causeInfo (.configError .entryRange 0 false 8) = 0x80005 ∧ causeInfo (.configError .entryRange 0 true 8) = 0x80205 := by
  decide +kernel

/-- Section 8: `P + 5` written to `F[0]` under `REDUCE`. -/
theorem test_fwrite_reduces :
    after (step (presenting (.fWrite 0 (BitVec.ofNat 256 (Config.P + 5))) State.reset))
      (fun t => t.f[0] == fe 5 && t.vf == 1 && t.pending == []) = true := by
  decide +kernel

/-- A command and a micro-operation of the table, placed and run. -/
theorem test_withFetchWord_runs :
    after (step (State.reset.withFetchWord 32 0x00000105)) (fun t => statusWord t == 0x301) = true ∧
    after (step (State.reset.withFetchWord 288 (0x02500000 * 2 ^ 256 + 7))) (fun t => t.ecause == 7 && t.einfo == 0) = true := by
  decide +kernel

/-! ## Witnesses: for each statement with hypotheses, states and operands that meet them -/

/-- The hypotheses of `FieldLaws`: 0, 1, and `P - 1` with its opposite 1. -/
theorem witness_FieldLaws :
    feZero.val = 0 ∧ (fe 1).val = 1 ∧ (fe (Config.P - 1)).val ≠ 0 ∧ (fe 1).val = Config.P - (fe (Config.P - 1)).val ∧
    feMul feZero (fe 7) = feZero := by
  decide +kernel

/-- Each clause of `SboxIsFifthPower`. -/
theorem witness_SboxIsFifthPower :
    (fe 0).val = 0 ∧ (fe 1).val = 1 ∧ (fe 2).val = 2 ∧ (fe (Config.P - 1)).val = Config.P - 1 := by
  decide +kernel

/-- `FaddWritesSum`, `FmulWritesProduct`: two valid sources, the last of them `f4`. -/
theorem witness_register_forms : validF (0 : Reg).val configured = true ∧ validF (4 : Reg).val configured = true := by
  decide

/-- `FaddiAddsLiteralAndCounts`, `FmuliMultipliesByLiteral`: the largest literal. -/
theorem witness_literal_forms :
    validF (4 : Reg).val configured = true ∧ (BitVec.ofNat 256 (Config.P - 1)).toNat < Config.P := by
  decide +kernel

/-- Each clause of `MicroOpFaultsStopTheEngine`: `f5` is invalid, `f4` valid, the literals `P` and `P - 1`. -/
theorem witness_MicroOpFaultsStopTheEngine :
    configured.ecause = 0 ∧ validF (5 : Reg).val configured = false ∧ validF (4 : Reg).val configured = true ∧
    Config.P ≤ (BitVec.ofNat 256 Config.P).toNat ∧ (BitVec.ofNat 256 (Config.P - 1)).toNat < Config.P := by
  decide +kernel

/-- `InitLocksWellFormedBank`: no program, and one of `NOPS` words. -/
theorem witness_InitLocksWellFormedBank :
    (bankAt 0 configured).lock = false ∧ WellConfigured 0 (bankAt 0 configured) ∧ (bankAt 0 configured).mem.pms.length = 0 ∧
    (withProgram toyA).lock = false ∧ WellConfigured 0 (withProgram toyA) ∧
    (withProgram toyA).mem.pms.length = programLength (withProgram toyA) :=
  ⟨by decide, toyA_configured, by decide, by decide, toyA_configured, by decide +kernel⟩

/-- A program of one word: neither 0 nor `NOPS` words. -/
def oneWord : Bank := { toyA with mem := toyA.mem.setProg [uopWord 0 0] }

/-- The four failures of `CfgCheck`, each the first, as in 95_test_vectors.md 10.5 rows 1, 3, 4 and 6. -/
theorem witness_first_failures :
    FirstFailure 0 Bank.reset 1 ∧ FirstFailure 0 { toyA with rf := 3 } 2 ∧
    FirstFailure 0 { toyA with mem := { toyA.mem with rcs := toyA.mem.rcs.take 8 } } 3 ∧
    FirstFailure 0 { toyA with mdsRows := 0 } 4 :=
  ⟨.inl ⟨rfl, by unfold WidthOk bankWidth; decide⟩,
    .inr (.inl ⟨rfl, by unfold WidthOk bankWidth; decide, by unfold FullRoundsEven; decide⟩),
    .inr (.inr (.inl ⟨rfl, by unfold WidthOk bankWidth; decide, by unfold FullRoundsEven; decide, by unfold RcLengthOk; decide⟩)),
    .inr (.inr (.inr ⟨rfl, by unfold WidthOk bankWidth; decide, by unfold FullRoundsEven; decide, by unfold RcLengthOk; decide, by unfold MdsShapeOk; decide⟩))⟩

/-- Each clause of `InitRefusalsInOrder`. -/
theorem witness_InitRefusalsInOrder :
    ready.ecause = 0 ∧ (bankAt 0 ready).lock = true ∧ (bankAt 0 State.reset).lock = false ∧
    FirstFailure 0 (bankAt 0 State.reset) 1 ∧ WellConfigured 0 oneWord ∧ oneWord.lock = false ∧
    oneWord.mem.pms.length ≠ 0 ∧ oneWord.mem.pms.length ≠ programLength oneWord :=
  ⟨by decide, by decide, by decide, witness_first_failures.1, toyA_configured, by decide, by decide, by decide⟩

/-- `PermuteStartsTheEngine`: loop mode on bank 0 and unrolled mode on bank 1. -/
theorem witness_PermuteStartsTheEngine :
    (bankAt 0 ready).lock = true ∧ (3 : BitVec 8).toNat = (bankAt 0 ready).t.toNat ∧
    (∀ i < (bankAt 0 ready).t.toNat, validF i ready = true) ∧
    (bankAt 1 ready).lock = true ∧ (bankAt 1 ready).uvalid = true ∧
    (5 : BitVec 8).toNat = (bankAt 1 ready).t.toNat ∧ (∀ i < (bankAt 1 ready).t.toNat, validF i ready = true) := by
  decide +kernel

/-- Each clause of `PermuteRefusalsInOrder`: bank 0 unlocked, or locked without a program; lengths 0 and 2 beside the
width 3; `f2` the first invalid slot. -/
theorem witness_PermuteRefusalsInOrder :
    configured.ecause = 0 ∧ (bankAt 0 configured).lock = false ∧ (bankAt 0 ready).uvalid = false ∧
    (bankAt 0 ready).lock = true ∧ (0 : BitVec 8).toNat ≠ (bankAt 0 ready).t.toNat ∧
    (2 : BitVec 8).toNat ≠ (bankAt 0 ready).t.toNat ∧ (3 : BitVec 8).toNat = (bankAt 0 ready).t.toNat ∧
    2 < (bankAt 0 ready).t.toNat ∧ (∀ j < 2, validF j { ready with vf := 3 } = true) ∧
    validF 2 { ready with vf := 3 } = false := by
  decide +kernel

/-- `HashTwoStartsOnSpongeState`, `HashFourStartsOnSpongeState`. -/
theorem witness_hash_starts :
    ready.bank0.lock = true ∧ (∀ i < 2, validIn i ready = true) ∧
    ready.bank1.lock = true ∧ ready.bank1.uvalid = true ∧ (∀ i < 4, validIn i ready = true) := by
  decide +kernel

/-- Each clause of `HashRefusalsInOrder`: no lock, no program, the last input invalid. -/
theorem witness_HashRefusalsInOrder :
    configured.ecause = 0 ∧ configured.bank0.lock = false ∧ configured.bank1.lock = false ∧
    ready.bank0.uvalid = false ∧ ready.bank0.lock = true ∧ (∀ j < 1, validIn j { ready with vin := 1 } = true) ∧
    validIn 1 { ready with vin := 1 } = false ∧ ready.bank1.lock = true ∧
    (∀ j < 3, validIn j { ready with vin := 7 } = true) ∧ validIn 3 { ready with vin := 7 } = false := by
  decide +kernel

/-- `GenLoadsGeneratedProgram`, and each clause of `GenRefusalsInOrder`: a store of 75 words holds the program of toy A, one
of 74 does not. -/
theorem witness_gen :
    (bankAt 0 configured).lock = false ∧ WellConfigured 0 (bankAt 0 configured) ∧
    programLength (bankAt 0 configured) ≤ 75 ∧ 74 < programLength (bankAt 0 configured) ∧
    configured.ecause = 0 ∧ (bankAt 0 ready).lock = true ∧ FirstFailure 0 (bankAt 0 State.reset) 1 :=
  ⟨by decide, toyA_configured, by decide, by decide, by decide, by decide, witness_first_failures.1⟩

/-- `ClrerrClearsOnlyTheRecord`: a state of the invariant with an empty record. -/
theorem witness_ClrerrClearsOnlyTheRecord : ready.Inv ∧ ready.ecause = 0 := ⟨ready_inv, by decide⟩

/-- `RaiseRecordsCodeAndInformation`. -/
theorem witness_RaiseRecordsCodeAndInformation : ready.ecause = 0 := by decide

/-- `DecodeInvertsEncode`, `ImageRoundTrip`. -/
theorem witness_well_formed : (Instr.fmuli 12 9 (BitVec.ofNat 256 (Config.P - 1))).wf = true ∧ Instr.clrerr.wf = true := by
  decide +kernel

/-- `EncodeInvertsDecode`: a word of each format that decodes. -/
theorem witness_EncodeInvertsDecode :
    decodeEncoded (.uop (uopWord 0x03baa000 0)) = .ok (.fmul 11 10 10) ∧
    decodeEncoded (.cmd 0x00030002) = .ok (.permute 0 false 3) := by
  decide +kernel

/-- `IllegalCommandRaises`: the smallest value above 32 bits, and the word 0, which no command has. -/
theorem witness_IllegalCommandRaises :
    HostNext (presenting (.csrWrite 0x02 0x100000000) ready) (.csrWrite 0x02 0x100000000) [] ∧ ready.ecause = 0 ∧
    2 ^ 32 ≤ (0x100000000 : Word).toNat ∧ ∀ i : Instr, encode i ≠ .cmd ((0 : Word).setWidth 32) := by
  refine ⟨⟨by decide, 0, by decide⟩, by decide, by decide, ?_⟩
  intro i h
  have key : ∀ len u k cop, formatC len u k cop = (0 : Word).setWidth 32 → cop = 0 := by
    intro len u k cop hw
    apply BitVec.eq_of_getLsbD_eq
    intro j hj
    have := congrArg (fun w => w.getLsbD j) hw
    simp only [formatC, BitVec.getLsbD_append] at this
    simp (disch := omega) only [if_pos] at this
    simpa using this
  cases i <;> simp only [encode, Encoded.cmd.injEq, reduceCtorEq] at h <;> exact absurd (key _ _ _ _ h) (by decide)

/-- Each clause of `UnrolledStepFollowsDecodeOrder`: the words of 95_test_vectors.md section 3 at the head of a program, with the fields
that select the clause. -/
theorem witness_UnrolledStepFollowsDecodeOrder :
    (running [uopWord 0x02102000 Config.P]).busy = true ∧ (running [uopWord 0x02102000 Config.P]).umode = true ∧
    (running [uopWord 0x02102000 Config.P]).pending = [] ∧ (running [uopWord 0x02102000 Config.P]).ecause = 0 ∧
    (bankAt 0 (running [uopWord 0x02102000 Config.P])).mem.pms[0]? = some (uopWord 0x02102000 Config.P) ∧
    (uopWord 0x02102000 Config.P).extractLsb' 268 4 ≠ 0 ∧
    ((uopWord 0x02170000 Config.P).extractLsb' 268 4 = 0 ∧
      Config.P ≤ ((uopWord 0x02170000 Config.P).extractLsb' 0 256).toNat) ∧
    (((uopWord 0x04170000 5).extractLsb' 280 8).toNat = 4 ∧
      validF ((uopWord 0x04170000 5).extractLsb' 272 4).toNat (running []) = false) ∧
    (((uopWord 0x01108000 0).extractLsb' 280 8).toNat = 1 ∧
      validF ((uopWord 0x01108000 0).extractLsb' 272 4).toNat (running []) = true ∧
      validF ((uopWord 0x01108000 0).extractLsb' 268 4).toNat (running []) = false) ∧
    (((uopWord 0x01201000 0).extractLsb' 280 8).toNat = 1 ∧ (uopWord 0x01201000 0).extractLsb' 256 12 = 0 ∧
      validF ((uopWord 0x01201000 0).extractLsb' 268 4).toNat (running []) = true) := by
  decide +kernel

/-- `StepRunsFetchedMicroOp`: beside a held write that is due. -/
theorem witness_StepRunsFetchedMicroOp :
    let s := presenting (.fWrite 0 0) (running [uopWord 0x01201000 0])
    s.busy = true ∧ s.umode = true ∧ (∀ p ∈ s.pending, p.delay = 0 → enabledWhileBusy p.txn = false) ∧
    (bankAt s.ksel s).mem.pms[s.upc.toNat]? = some (uopWord 0x01201000 0) ∧
    decodeUop (uopWord 0x01201000 0) = .ok (.fadd 2 0 1) := by
  refine ⟨by decide, by decide, ?_, by decide +kernel, by decide +kernel⟩
  intro p hp _
  obtain rfl := List.mem_singleton.mp hp
  rfl

/-- Each clause of `StepRunsIssuedCommand`: an unfaulted core, CLRERR on a faulted one, another command on a faulted one. -/
theorem witness_StepRunsIssuedCommand :
    HostNext (presenting (.csrWrite 0x02 0x105) ready) (.csrWrite 0x02 0x105) [] ∧ ready.ecause = 0 ∧
    decodeCommand 0x105 = .ok (.execProg 1) ∧ decodeCommand 0x7 = .ok .clrerr ∧
    HostNext (presenting (.csrWrite 0x02 0x7) faultedState) (.csrWrite 0x02 0x7) [] ∧
    faultedState.ecause ≠ 0 ∧ Instr.execProg 1 ≠ .clrerr :=
  ⟨⟨by decide, 0, by decide⟩, by decide, by decide +kernel, by decide +kernel, ⟨by decide, 0, by decide⟩, by decide, by decide⟩

/-- Each clause of `CompletionStepEndsTheRun`: an empty program, a loop at its last round, with and without `HASHOP`. -/
theorem witness_CompletionStepEndsTheRun :
    (running []).busy = true ∧ (running []).pending = [] ∧ (running []).umode = true ∧ (running []).hashop = false ∧
    (running []).upc.toNat = (bankAt (running []).ksel (running [])).mem.pms.length ∧
    loopRunning.busy = true ∧ loopRunning.umode = false ∧ loopRunning.hashop = true ∧
    ({ loopRunning with round := 3 }).round = loopRunning.bank0.rf.toNat + loopRunning.bank0.rp.toNat := by
  decide +kernel

/-- `BusyCoreHoldsTransactions`: a run with a held write, whose step goes on; a due read of `STATUS`. -/
theorem witness_BusyCoreHoldsTransactions :
    (presenting (.fWrite 0 0) loopRunning).busy = true ∧
    (∀ p ∈ (presenting (.fWrite 0 0) loopRunning).pending, p.txn = .fWrite 0 0) ∧
    after (step (presenting (.fWrite 0 0) loopRunning)) (fun _ => true) = true ∧
    (0x01 : BitVec 8) ∈ statusNumbers ∧
    (presenting (.csrRead 0x01) loopRunning).pending = { delay := 0, txn := .csrRead 0x01 } :: [] := by
  refine ⟨by decide, fun p hp => by obtain rfl := List.mem_singleton.mp hp; rfl, by decide +kernel, by decide, by decide⟩

/-- Each clause of `RecordedFaultFreezesWrites`: writes, the reads that answer, those that would raise, `Reset`, all on one faulted
state. -/
theorem witness_RecordedFaultFreezesWrites :
    faultedState.busy = false ∧ faultedState.ecause ≠ 0 ∧
    (∀ t : HostTxn, HostNext (presenting t faultedState) t []) ∧ (0x06 : Word) ≠ 7 ∧
    csrRead 0x05 faultedState = .ok 0x2D ∧ validF (4 : Reg).val faultedState = true ∧
    tabRead .rcs 0 8 faultedState = .ok (.word 9) ∧ busRead 0x01000008 faultedState = .ok 9 ∧
    csrRead 0x09 faultedState = .error (.uninitRead 20) ∧ validF (5 : Reg).val faultedState = false ∧
    tabRead .rcs 0 9 faultedState = .error (.badIndex 0x01000009) ∧
    busRead 0x110 faultedState = .error (.badIndex 0x110) :=
  ⟨by decide, by decide, fun _ => ⟨rfl, 0, rfl⟩, by decide, by decide +kernel, by decide, by decide +kernel, by decide +kernel,
    by decide +kernel, by decide, by decide +kernel, by decide +kernel⟩

/-- Each outcome of `RecordKeepsTheFirstFault`: a write that is dropped; the CLRERR word in both forms of the port; `Reset`. -/
theorem witness_RecordKeepsTheFirstFault :
    faultedState.ecause ≠ 0 ∧ step (presenting (.fWrite 0 0) faultedState) = .next faultedState ∧
    after (step (presenting (.csrWrite 0x02 7) faultedState)) (fun t => t.ecause == 0) = true ∧
    after (step (presenting (.busWrite 0x02 7) faultedState)) (fun t => t.ecause == 0) = true ∧
    after (step (presenting .reset faultedState)) (fun t => t.ecause == 0) = true :=
  ⟨by decide, rfl, by decide +kernel, by decide +kernel, by decide +kernel⟩

/-- `ResetTransactionEffect`: a busy core. -/
theorem witness_ResetTransactionEffect :
    (presenting .reset loopRunning).busy = true ∧ (presenting .reset loopRunning).pending = { delay := 0, txn := .reset } :: [] := by
  decide

/-- The bounds of the ranges of CSR numbers in `CsrMapReads` that name no register, and their neighbours that name one. -/
theorem witness_CsrMapReads :
    ([0x0C, 0x0F, 0x14, 0x1F, 0x2D, 0x2F, 0x3D, 0x40, 0xFF].all fun n : BitVec 8 => (csrOf n).isNone) = true ∧
    ([0x00, 0x0B, 0x10, 0x13, 0x20, 0x2C, 0x30, 0x3C].all fun n : BitVec 8 => (csrOf n).isSome) = true := by
  decide +kernel

/-- Each clause of `RangePolicyAtWritePorts`: `P - 1` under either policy, `P` under `REDUCE`, `P` under `REJECT`. -/
theorem witness_RangePolicyAtWritePorts :
    ready.ecause = 0 ∧ (BitVec.ofNat 256 (Config.P - 1)).toNat < Config.P ∧ ready.params.oorPolicy = .reduce ∧
    Config.P ≤ (BitVec.ofNat 256 Config.P).toNat ∧
    ({ ready with params := { ready.params with oorPolicy := .reject } }).params.oorPolicy = .reject := by
  decide +kernel

/-- `ReadsThroughValidBits`: valid and invalid storage, without and with a recorded fault. -/
theorem witness_ReadsThroughValidBits :
    ([ready, faultedState].all fun s => validF 4 s && !validF 5 s && validIn 3 s && !s.vdig) = true ∧
    ready.ecause = 0 ∧ faultedState.ecause ≠ 0 ∧ validIn 0 State.reset = false ∧ ({ ready with vdig := true }).vdig = true := by
  decide

/-- Each clause of `ConfigurationRegisterWrites`: a locked bank, 2^16, 2^16 - 1. -/
theorem witness_ConfigurationRegisterWrites :
    configured.ecause = 0 ∧ (bankAt 0 ready).lock = true ∧ (bankAt 0 configured).lock = false ∧
    2 ^ 16 ≤ (0x10000 : Word).toNat ∧ (0xFFFF : Word).toNat < 2 ^ 16 := by
  decide +kernel

/-- `configured` with stores that hold exactly what toy A needs. -/
def tight : State := { configured with params := { oorPolicy := .reject, rcCap := 9, mdsCap := 25, pmCap := 0 } }

/-- Each clause of `TablePushes` and of `ProgramPush`: locked, out of range, full, room for one more. -/
theorem witness_pushes :
    configured.ecause = 0 ∧ (bankAt 0 ready).lock = true ∧ (bankAt 0 configured).lock = false ∧
    Config.P ≤ (BitVec.ofNat 256 Config.P).toNat ∧ (BitVec.ofNat 256 (Config.P - 1)).toNat < Config.P ∧
    (bankAt 0 tight).mem.rcs.length = tight.params.rcCap ∧ (bankAt 1 tight).mem.mdss.length = tight.params.mdsCap ∧
    (bankAt 0 configured).mem.rcs.length < configured.params.rcCap ∧
    (bankAt 0 configured).mem.mdss.length < configured.params.mdsCap ∧ (bankAt 0 configured).mem.rcs.length < 2 ^ 32 ∧
    (bankAt 0 configured).mem.mdss.length < 2 ^ 32 ∧ (bankAt 0 tight).mem.pms.length = tight.params.pmCap ∧
    2 ^ 32 ≤ (0x100000000 : Word).toNat ∧ (0xFFFFFFFF : Word).toNat < 2 ^ 32 ∧
    (bankAt 0 configured).mem.pms.length < configured.params.pmCap := by
  decide +kernel

/-- Each clause of `TableReads`: the last entry and the index after it, of each store, without and with a recorded fault; the last index
that has a bus address and the first that has none. -/
theorem witness_TableReads :
    ([ready, faultedState].all fun s =>
      (bankAt 0 s).mem.rcs[8]? == some (fe 9) && decide ((bankAt 0 s).mem.rcs.length ≤ 9) &&
      (bankAt 0 s).mem.mdss[8]? == some (fe 3) && decide ((bankAt 0 s).mem.mdss.length ≤ 9) &&
      (bankAt 1 s).mem.pms[182]? == some (uopWord 0x0144c000 0) && decide ((bankAt 1 s).mem.pms.length ≤ 183)) = true ∧
    ready.ecause = 0 ∧ faultedState.ecause ≠ 0 ∧ (bankAt 0 ready).mem.rcs.length ≤ 2 ^ 22 - 1 ∧
    (bankAt 0 ready).mem.rcs.length ≤ 2 ^ 22 := by
  decide +kernel

/-- R22: the largest 256-bit word, above `P`, is stored in `PMLIT` as written, under `REJECT` and with both banks locked. -/
theorem test_pmlit_takes_any_value :
    after (step (presenting (.csrWrite 0x0B (BitVec.allOnes 256))
        { ready with params := { ready.params with oorPolicy := .reject } }))
      (fun t => t.pmlit == BitVec.allOnes 256 && t.ecause == 0) = true := by
  decide +kernel

/-- Each clause of `BusMapSelects` at the bounds of its window (R49): no address lies in two of them. -/
theorem witness_BusMapSelects :
    busTarget 0x000000FF = .csr 0xFF ∧ busTarget 0x00000100 = .freg 0 ∧ busTarget 0x0000010F = .freg 15 ∧
    busTarget 0x00000110 = .unmapped ∧ busTarget 0x00FFFFFF = .unmapped ∧
    busTarget 0x01000000 = .rcs 0 0 ∧ busTarget 0x013FFFFF = .rcs 0 0x3FFFFF ∧
    busTarget 0x01400000 = .mdss 0 0 ∧ busTarget 0x017FFFFF = .mdss 0 0x3FFFFF ∧
    busTarget 0x01800000 = .pmsCtl 0 0 ∧ busTarget 0x01FFFFFF = .pmsLit 0 0x3FFFFF ∧
    busTarget 0x02000000 = .rcs 1 0 ∧ busTarget 0x02FFFFFE = .pmsCtl 1 0x3FFFFF ∧
    busTarget 0x02FFFFFF = .pmsLit 1 0x3FFFFF ∧ busTarget 0x03000000 = .unmapped ∧ busTarget 0xFFFFFFFF = .unmapped := by
  decide +kernel

/-- `ArcTemplateAddsConstants`, for both widths. -/
theorem witness_ArcTemplateAddsConstants :
    (∀ i < 3, validF i ready = true) ∧ (∀ i < 5, validF i ready = true) := by
  decide

/-- `SboxTemplatesRaiseToFifth`, `MixTemplateMultipliesMatrix`, for both widths. -/
theorem witness_working_vector :
    (∀ i < 3, validF (5 + i) { ready with vf := 0x3E0 } = true) ∧ (∀ i < 5, validF (5 + i) { ready with vf := 0x3E0 } = true) := by
  decide

/-- `ScheduleHasDeclaredRounds`: a bank of full and partial rounds; round 1 is the partial one (section 6.2). -/
theorem witness_ScheduleHasDeclaredRounds :
    toyA.rf.toNat % 2 = 0 ∧ 1 < toyA.rf.toNat + toyA.rp.toNat ∧ isFull toyA 0 = true ∧ isFull toyA 1 = false ∧ isFull toyA 2 = true := by
  decide

/-- `GeneratedProgramSize`, `GeneratedConstantsInOrder`, with the sizes of section 6.2. -/
theorem witness_generated_programs :
    WellConfigured 0 toyA ∧ programLength toyA = 75 ∧ WellConfigured 1 toyB ∧ programLength toyB = 183 :=
  ⟨toyA_configured, by decide, toyB_configured, by decide⟩

/-- `GeneratedProgramComputesPermutation`. -/
theorem witness_GeneratedProgramComputesPermutation :
    WellConfigured 0 (bankAt 0 ready) ∧ (∀ i < bankWidth 0, validF i ready = true) ∧
    WellConfigured 1 (bankAt 1 ready) ∧ (∀ i < bankWidth 1, validF i ready = true) :=
  ⟨toyA_configured, by unfold bankWidth; decide, toyB_configured, by unfold bankWidth; decide⟩

/-- `LoopRunComputesPermutation`, `LoopAndUnrolledModesAgree`, on bank 1, which holds its generated program. -/
theorem witness_runs :
    ready.Inv ∧ (bankAt 1 ready).lock = true ∧ ProgramIsGen 1 ready ∧ ready.busy = false ∧ ready.ecause = 0 ∧
    (∀ i < bankWidth 1, validF i ready = true) :=
  ⟨ready_inv, by decide, rfl, by decide, by decide, by unfold bankWidth; decide⟩

/-- Each clause of `HashDigestIsSlotZeroOfPermutation`. -/
theorem witness_HashDigestIsSlotZeroOfPermutation :
    ready.Inv ∧ ready.busy = false ∧ ready.ecause = 0 ∧ ready.bank0.lock = true ∧ (∀ i < 2, validIn i ready = true) ∧
    ready.bank1.lock = true ∧ (∀ i < 4, validIn i ready = true) :=
  ⟨ready_inv, by decide, by decide, by decide, by decide, by decide, by decide⟩

/-- `StepKeepsInvariant`, `InvariantStateStepsOn`, `OnlyResetClearsValidBits`: states of the invariant, idle and in both kinds of run,
whose step goes on. -/
theorem witness_invariant_steps :
    configured.Inv ∧ loopRunning.Inv ∧ unrolledRunning.Inv ∧ after (step loopRunning) (fun _ => true) = true ∧
    after (step unrolledRunning) (fun _ => true) = true :=
  ⟨configured_inv, loopRunning_inv, unrolledRunning_inv, by decide +kernel, by decide +kernel⟩

/-- `LoopModeRaisesNoFault`, and the loop-mode clause of `EngineTerminates`. -/
theorem witness_loop_mode :
    loopRunning.Inv ∧ loopRunning.busy = true ∧ loopRunning.umode = false ∧ loopRunning.pending = [] :=
  ⟨loopRunning_inv, by decide, by decide, by decide⟩

/-- A bank of 2^16 rounds, one more than the register `ROUND` can show, with constants 0. -/
def longBank : Bank := { toyA with rp := 0xFFFE, lock := true, mem := { toyA.mem with rcs := List.replicate 196608 feZero } }

/-- A loop-mode run on it. -/
def longRunning : State := started 0 false true { ready with bank0 := longBank }

theorem longBank_ok : longBank.Ok Config.Params.standard 0 := by
  have hl : longBank.mem.rcs.length = 196608 := List.length_replicate
  have hc : cfgCheck 0 longBank = none := by
    simp only [cfgCheck, hl]
    decide
  refine ⟨⟨?_, by decide, by decide⟩, fun _ => ⟨hc, .inl rfl⟩, rfl⟩
  rw [hl]
  decide

/-- `LoopRunComputesPermutation`, `LoopModeRaisesNoFault`, `EngineTerminates` on a run of 2^16 rounds (R101, R116). -/
theorem witness_long_run :
    longRunning.Inv ∧ longRunning.busy = true ∧ longRunning.umode = false ∧ longRunning.pending = [] ∧
    (bankAt 0 longRunning).rf.toNat + (bankAt 0 longRunning).rp.toNat = 2 ^ 16 :=
  ⟨{ params := by decide
     bank0 := longBank_ok
     bank1 := ready_bank1
     recordEmpty := by decide
     recordCode := by decide
     busyClean := by decide
     idlePhase := by decide
     loopRun := fun _ _ => ⟨by decide, by decide, by decide, by decide, by decide, by decide⟩
     unrolledRun := by decide
     hashValid := by decide },
    by decide, by decide, by decide, by decide⟩

/-- R116, R110: the step that completes round 2^16 of 2^16 moves on to it, and the step after it completes the run. -/
theorem test_round_passes_sixteen_bits :
    after (step { withF [0, 1, 2, 0, 0, 1, 243, 3125] longRunning with round := 0xFFFF, phase := .mix })
      (fun t => t.busy && t.round == 2 ^ 16 && t.f[0] == fe 3370 &&
        after (step t) (fun u => !u.busy && u.done && u.round == 2 ^ 16)) = true := by
  decide +kernel

/-- `LockedBankIsImmutable`: a locked bank under a write that it refuses, and under `Reset`. -/
theorem witness_LockedBankIsImmutable :
    (bankAt 0 ready).lock = true ∧ after (step (presenting (.csrWrite 0x20 1) ready)) (fun t => t.ecause == 9) = true ∧
    after (step (presenting .reset ready)) (fun t => t.bank0 == Bank.reset) = true := by
  decide +kernel

/-- The unrolled clause of `EngineTerminates`. -/
theorem witness_EngineTerminates_unrolled :
    unrolledRunning.Inv ∧ unrolledRunning.busy = true ∧ unrolledRunning.umode = true ∧ unrolledRunning.pending = [] :=
  ⟨unrolledRunning_inv, by decide, by decide, by decide⟩

end Tests

end Machine

end Sys2Proof
end

/-! ## The invariant of an idle core and of a running one -/

namespace Sys2Proof

namespace Machine

/-- The clauses of the invariant that hold whether the engine runs or not. -/
structure State.Steady (s : State) : Prop where
  params : s.params.ok
  banks : ∀ k, (bankAt k s).Ok s.params k
  recordEmpty : s.ecause = 0 → s.epc = 0 ∧ s.einfo = 0
  recordCode : s.ecause.toNat ≤ 9

/-- The clauses of the invariant that speak of a busy engine. -/
structure State.Running (s : State) : Prop where
  record : s.ecause = 0
  done : s.done = false
  vdig : s.vdig = false
  loop : s.umode = false → s.LoopRun
  unrolled : s.umode = true → s.upc.toNat ≤ (bankAt s.ksel s).mem.pms.length ∧ s.phase = .idle
  hash : s.hashop = true → validF 0 s = true

theorem State.Inv.steady {s : State} (h : s.Inv) : s.Steady where
  params := h.params
  banks k := by
    rcases bankId_cases k with rfl | rfl
    · exact h.bank0
    · exact h.bank1
  recordEmpty := h.recordEmpty
  recordCode := h.recordCode

theorem State.Inv.running {s : State} (h : s.Inv) (hb : s.busy = true) : s.Running :=
  have ⟨hrecord, hdone, hvdig⟩ := h.busyClean hb
  ⟨hrecord, hdone, hvdig, h.loopRun hb, h.unrolledRun hb, h.hashValid hb⟩

/-- An idle core meets the invariant when its sequencer is idle too. -/
theorem State.Steady.inv_of_idle {s : State} (h : s.Steady) (hb : s.busy = false) (hp : s.phase = .idle) : s.Inv where
  params := h.params
  bank0 := h.banks 0
  bank1 := h.banks 1
  recordEmpty := h.recordEmpty
  recordCode := h.recordCode
  busyClean hb' := by simp [hb] at hb'
  idlePhase _ := hp
  loopRun hb' := by simp [hb] at hb'
  unrolledRun hb' := by simp [hb] at hb'
  hashValid hb' := by simp [hb] at hb'

/-- A busy core meets the invariant when its run does. -/
theorem State.Steady.inv_of_running {s : State} (h : s.Steady) (hb : s.busy = true) (hr : s.Running) : s.Inv where
  params := h.params
  bank0 := h.banks 0
  bank1 := h.banks 1
  recordEmpty := h.recordEmpty
  recordCode := h.recordCode
  busyClean _ := ⟨hr.record, hr.done, hr.vdig⟩
  idlePhase hb' := by simp [hb] at hb'
  loopRun _ := hr.loop
  unrolledRun _ := hr.unrolled
  hashValid _ := hr.hash

/-! ### What the host has yet to perform and what it last received -/

theorem State.LoopRun.setHost {s : State} (h : s.LoopRun) (l : List Pending) (r : Option Reply) :
    { s with pending := l, reply := r }.LoopRun :=
  ⟨h.locked, h.phase, h.round, h.ended, h.stateValid, h.workValid⟩

/-- The invariant says nothing of the host's side. -/
theorem State.Inv.setHost {s : State} (h : s.Inv) (l : List Pending) (r : Option Reply) :
    { s with pending := l, reply := r }.Inv where
  params := h.params
  bank0 := h.bank0
  bank1 := h.bank1
  recordEmpty := h.recordEmpty
  recordCode := h.recordCode
  busyClean := h.busyClean
  idlePhase := h.idlePhase
  loopRun hb hu := (h.loopRun hb hu).setHost l r
  unrolledRun := h.unrolledRun
  hashValid := h.hashValid

theorem State.Inv.setPending {s : State} (h : s.Inv) (l : List Pending) : { s with pending := l }.Inv :=
  h.setHost l s.reply

theorem State.Inv.setReply {s : State} (h : s.Inv) (r : Option Reply) : { s with reply := r }.Inv :=
  h.setHost s.pending r

/-! ### The steady clauses -/

theorem bankOk_reset (p : Config.Params) (k : BankId) : Bank.reset.Ok p k where
  memWf := reset_wf p
  locked h := by cases h
  uvalid := rfl

/-- The steady clauses in a state whose banks and record are as after reset (R200). -/
theorem steady_of_reset {s : State} (hp : s.params.ok) (h0 : s.bank0 = Bank.reset) (h1 : s.bank1 = Bank.reset)
    (hc : s.ecause = 0) (he : s.epc = 0) (hi : s.einfo = 0) : s.Steady where
  params := hp
  banks k := by
    have hk : bankAt k s = Bank.reset := by rw [bankAt, h0, h1, ite_self]
    exact hk ▸ bankOk_reset s.params k
  recordEmpty _ := ⟨he, hi⟩
  recordCode := by simp [hc]

/-- A write that raises nothing keeps a bank's part of the invariant: the bank is unlocked before and after. -/
theorem BankWrite.ok {p : Config.Params} {k : BankId} {b b' : Bank} (h : BankWrite p b b') (hb : b.Ok p k) :
    b'.Ok p k where
  memWf := h.wf hb.memWf
  locked hl := by rw [h.lock] at hl; cases hl
  uvalid := by rw [h.uvalid, hb.uvalid, h.unlocked, h.lock]; rfl

/-- INIT's effect on the bank (R143). -/
theorem bankOk_lock {p : Config.Params} {k : BankId} {b : Bank} (hb : b.Ok p k) (hc : cfgCheck k b = none)
    (hp : b.mem.pms.length = 0 ∨ b.mem.pms.length = b.nops) :
    { b with lock := true, uvalid := decide (b.mem.pms.length = b.nops) }.Ok p k where
  memWf := hb.memWf
  locked _ := ⟨hc, hp⟩
  uvalid := (Bool.true_and _).symm

/-- A program loaded into an unlocked bank (R127). -/
theorem bankOk_setProg {p : Config.Params} {k : BankId} {b : Bank} {l : List UopWord} (hb : b.Ok p k)
    (hu : b.lock = false) (hl : l.length ≤ p.pmCap) : { b with mem := b.mem.setProg l }.Ok p k :=
  BankWrite.ok ⟨hu, hu, rfl, fun hm => setProg_wf l hm hl⟩ hb

theorem State.Steady.setBank {s : State} (h : s.Steady) {k : BankId} {b : Bank} (hb : b.Ok s.params k) :
    (setBank k b s).Steady where
  params := by simpa using h.params
  banks j := by
    rw [setBank_params]
    by_cases hj : j = k
    · subst hj; rwa [bankAt_setBank_same]
    · rw [bankAt_setBank_other hj]; exact h.banks j
  recordEmpty := by simpa using h.recordEmpty
  recordCode := by simpa using h.recordCode

theorem State.Steady.recordFault {s : State} (h : s.Steady) (c : Cause) (pc : BitVec 32) :
    (recordFault c pc s).Steady := by
  by_cases hs : s.ecause = 0
  · rw [recordFault_of_empty hs]
    obtain ⟨hne, hle⟩ := causeCode_range c
    exact ⟨h.params, h.banks, fun h0 => absurd h0 hne, hle⟩
  · rwa [recordFault_of_faulted hs]

theorem State.Steady.raiseFault {s : State} (h : s.Steady) (o : Origin) (c : Cause) : (raiseFault o c s).Steady := by
  cases o with
  | host => exact h.recordFault c 0
  | engine =>
    have hr := h.recordFault c s.upc
    exact ⟨hr.params, hr.banks, hr.recordEmpty, hr.recordCode⟩

/-- A bank that `CfgCheck` accepts (R144). -/
theorem cfgCheck_none {k : BankId} {b : Bank} (h : cfgCheck k b = none) :
    b.width = widthOf k ∧ b.rf.toNat % 2 = 0 ∧ b.mem.rcs.length = b.width * b.rounds ∧
      b.mdsCols.toNat = b.width ∧ b.mem.mdss.length = b.width * b.width := by
  unfold cfgCheck at h
  split at h
  · cases h
  split at h
  · cases h
  split at h
  · cases h
  split at h
  · cases h
  exact ⟨by omega, by omega, by omega, by omega, by omega⟩

theorem State.Steady.width {s : State} (h : s.Steady) {k : BankId} (hl : (bankAt k s).lock = true) :
    (bankAt k s).width = widthOf k :=
  (cfgCheck_none ((h.banks k).locked hl).1).1

end Machine

end Sys2Proof

/-! ## The length of the generated program -/

namespace Sys2Proof

namespace Machine

theorem length_flatMap_of_const {α β : Type} {l : List α} {f : α → List β} {c : Nat} (h : ∀ x ∈ l, (f x).length = c) :
    (l.flatMap f).length = l.length * c := by
  rw [List.length_flatMap, List.map_congr_left h, List.map_const', List.sum_replicate, smul_eq_mul]

@[simp] theorem length_arcTemplate (t : Nat) (c : Nat → Fe) : (arcTemplate t c).length = t := by
  simp [arcTemplate]

@[simp] theorem length_sboxFullTemplate (t : Nat) : (sboxFullTemplate t).length = 3 * t := by
  rw [sboxFullTemplate, length_flatMap_of_const (c := 3) fun _ _ => rfl, List.length_range, Nat.mul_comm]

theorem length_mixRow (t : Nat) (m : Nat → Nat → Fe) (i : Nat) : (mixRow t m i).length = 2 * (t - 1) + 1 := by
  rw [mixRow, List.length_cons, length_flatMap_of_const (c := 2) fun _ _ => rfl, List.length_range, Nat.mul_comm]

@[simp] theorem length_mixTemplate (t : Nat) (m : Nat → Nat → Fe) :
    (mixTemplate t m).length = t * (2 * (t - 1) + 1) := by
  rw [mixTemplate, length_flatMap_of_const fun i _ => length_mixRow t m i, List.length_range]

/-- The micro-operations of a full or of a partial round (R123). -/
theorem length_roundList {b : Bank} (ht : 0 < b.width) (r : Nat) :
    (roundList b r).length = 2 * b.width * b.width + if isFull b r then 3 * b.width else 3 := by
  have hs : (sboxStep b r).length = if isFull b r then 3 * b.width else 3 := by
    unfold sboxStep
    split
    · exact length_sboxFullTemplate _
    · rfl
  obtain ⟨t, hw⟩ : ∃ t, b.width = t + 1 := ⟨b.width - 1, by omega⟩
  rw [roundList, List.length_append, List.length_append, hs, length_arcTemplate, length_mixTemplate, hw]
  simp only [Nat.add_sub_cancel]
  ring

/-- The schedule in its three parts (R101): half of the full rounds, the partial rounds, the other half. -/
theorem length_genList {b : Bank} (ht : 0 < b.width) (hrf : b.rf.toNat % 2 = 0) : (genList b).length = b.nops := by
  obtain ⟨h, hh⟩ : ∃ h, b.rf.toNat = h + h := ⟨b.rf.toNat / 2, by omega⟩
  have hdiv : (h + h) / 2 = h := by omega
  have hR : b.rounds = h + (b.rp.toNat + h) := by rw [Bank.rounds, hh]; omega
  have hfull : ∀ r, r < h ∨ h + b.rp.toNat ≤ r →
      (roundList b r).length = 2 * b.width * b.width + 3 * b.width := fun r hr => by
    rw [length_roundList ht, isFull, hh, hdiv, if_pos (by simpa using hr)]
  have hpartial : ∀ r, h ≤ r → r < h + b.rp.toNat →
      (roundList b r).length = 2 * b.width * b.width + 3 := fun r h1 h2 => by
    rw [length_roundList ht, isFull, hh, hdiv, if_neg (by simp; omega)]
  have hfirst := length_flatMap_of_const (l := List.range h) (f := roundList b)
    fun r hr => hfull r (.inl (List.mem_range.mp hr))
  have hmiddle := length_flatMap_of_const (l := (List.range b.rp.toNat).map (h + ·)) (f := roundList b)
    fun r hr => by
      obtain ⟨i, hi, rfl⟩ := List.mem_map.mp hr
      exact hpartial _ (Nat.le_add_right ..) (by have := List.mem_range.mp hi; omega)
  have hlast := length_flatMap_of_const (l := ((List.range h).map (b.rp.toNat + ·)).map (h + ·)) (f := roundList b)
    fun r hr => by
      simp only [List.map_map, List.mem_map, Function.comp_apply] at hr
      obtain ⟨i, -, rfl⟩ := hr
      exact hfull _ (.inr (by omega))
  simp only [List.length_map, List.length_range] at hfirst hmiddle hlast
  rw [genList, hR, List.range_add, List.range_add, List.map_append, List.flatMap_append, List.flatMap_append,
    List.length_append, List.length_append, hfirst, hmiddle, hlast, Bank.nops, hR, hh]
  ring

/-- Every micro-operation has a word. -/
theorem encodeUop_of_microOp {i : Instr} (h : isMicroOp i = true) : ∃ w, encodeUop i = some w := by
  cases i with
  | fadd | faddi | fmul | fmuli => exact ⟨_, rfl⟩
  | _ => cases h

theorem length_filterMap_encodeUop {l : List Instr} (h : ∀ i ∈ l, isMicroOp i = true) :
    (l.filterMap encodeUop).length = l.length := by
  induction l with
  | nil => rfl
  | cons i is ih =>
    obtain ⟨w, hw⟩ := encodeUop_of_microOp (h i (List.mem_cons_self ..))
    rw [List.filterMap_cons_some hw, List.length_cons, List.length_cons,
      ih fun j hj => h j (List.mem_cons_of_mem _ hj)]

/-- R123: the generated program of a well-configured bank has `NOPS(k)` words. -/
theorem length_genWords {k : BankId} {b : Bank} (h : cfgCheck k b = none) : (genWords b).length = b.nops := by
  obtain ⟨hw, hrf, -⟩ := cfgCheck_none h
  have ht : 0 < b.width := by
    rw [hw]; rcases bankId_cases k with rfl | rfl <;> decide
  rw [genWords, length_filterMap_encodeUop (genList_microOps b), length_genList ht hrf]

end Machine

end Sys2Proof

/-! ## Steps of the host keep the invariant -/

namespace Sys2Proof

namespace Machine

/-- R200: `Reset` gives a state of the invariant, whatever the engine did. -/
theorem State.Inv.resetCore {s : State} (h : s.Inv) : (resetCore s).Inv :=
  (steady_of_reset (s := Machine.resetCore s) h.params rfl rfl rfl rfl rfl).inv_of_idle rfl rfl

/-- `Start(k, u, hop)` (R146) on a core without a fault: loop mode asks for a locked bank with valid slots, a hash for a
valid `F[0]`. -/
theorem State.Steady.startRun {s : State} (h : s.Steady) (he : s.ecause = 0) {k : BankId} {u hop : Bool}
    (hloop : u = false → (bankAt k s).lock = true ∧ ∀ i < widthOf k, validF i s = true)
    (hhash : hop = true → validF 0 s = true) : (startRun k u hop s).Inv := by
  have hsteady : (Machine.startRun k u hop s).Steady := ⟨h.params, h.banks, h.recordEmpty, h.recordCode⟩
  refine hsteady.inv_of_running rfl ⟨he, rfl, rfl, fun hu => ?_, fun hu => ?_, hhash⟩
  · cases (hu : u = false)
    obtain ⟨hl, hv⟩ := hloop rfl
    exact ⟨hl, by simp, Nat.zero_le _, fun _ => rfl, hv, by simp⟩
  · cases (hu : u = true)
    exact ⟨Nat.zero_le _, rfl⟩

theorem State.Steady.writeF {s : State} (h : s.Steady) (i : Reg) (v : Fe) : (writeF i v s).Steady :=
  ⟨h.params, h.banks, h.recordEmpty, h.recordCode⟩

/-- A command that an idle core accepts keeps the invariant (R127, R143 to R152). -/
theorem CommandEffect.inv {s s' : State} {i : Instr} (hc : CommandEffect s i s') (h : s.Inv) (hb : s.busy = false)
    (he : s.ecause = 0 ∨ i = .clrerr) : s'.Inv := by
  have hs := h.steady
  have hp := h.idlePhase hb
  cases hc with
  | init k hl hc hn =>
    exact (hs.setBank (bankOk_lock (hs.banks k) hc hn)).inv_of_idle (by simpa using hb) (by simpa using hp)
  | gen k hl hc hn =>
    exact (hs.setBank (bankOk_setProg (hs.banks k) hl (by rwa [length_genWords hc]))).inv_of_idle
      (by simpa using hb) (by simpa using hp)
  | permute k u len hl hu ht hv =>
    exact hs.startRun (by simpa using he) (fun _ => ⟨hl, hs.width hl ▸ hv⟩) (by simp)
  | hash2 u hl hu hv =>
    refine (((hs.writeF 0 feZero).writeF 1 s.inp[0]).writeF 2 s.inp[1]).startRun (by simpa using he)
      (fun _ => ⟨hl, fun i hi => ?_⟩) (fun _ => by simp [validF_writeF])
    have hi : i < 3 := hi
    interval_cases i <;> simp [validF_writeF]
  | hash4 u hl hu hv =>
    refine (((((hs.writeF 0 feZero).writeF 1 s.inp[0]).writeF 2 s.inp[1]).writeF 3 s.inp[2]).writeF 4
      s.inp[3]).startRun (by simpa using he) (fun _ => ⟨hl, fun i hi => ?_⟩) (fun _ => by simp [validF_writeF])
    have hi : i < 5 := hi
    interval_cases i <;> simp [validF_writeF]
  | execProg k => exact hs.startRun (by simpa using he) (by simp) (by simp)
  | clrerr =>
    exact State.Steady.inv_of_idle ⟨hs.params, hs.banks, fun _ => ⟨rfl, rfl⟩, Nat.zero_le _⟩ hb hp

/-- A fault recorded on an idle core keeps the invariant (R180). -/
theorem State.Inv.raiseFault_host {s : State} (h : s.Inv) (hb : s.busy = false) (c : Cause) :
    (raiseFault .host c s).Inv :=
  (h.steady.raiseFault .host c).inv_of_idle (by simpa using hb) (by simpa using h.idlePhase hb)

/-- A transaction that an idle core performs keeps the invariant. -/
theorem HostEffect.inv {s s' : State} {t : HostTxn} (he : HostEffect s t s') (h : s.Inv) (hb : s.busy = false) :
    s'.Inv := by
  have hs := h.steady
  have hp := h.idlePhase hb
  cases he with
  | reset => exact h.resetCore
  | answered _ r => exact h.setReply r
  | refused _ c r => exact (h.raiseFault_host hb c).setReply r
  | dropped => exact h
  | raised _ c => exact h.raiseFault_host hb c
  | literal _ v => exact State.Steady.inv_of_idle ⟨hs.params, hs.banks, hs.recordEmpty, hs.recordCode⟩ hb hp
  | input _ i x => exact State.Steady.inv_of_idle ⟨hs.params, hs.banks, hs.recordEmpty, hs.recordCode⟩ hb hp
  | field _ i x => exact (hs.writeF i x).inv_of_idle hb hp
  | bank _ k b _ hw =>
    exact (hs.setBank (hw.ok (hs.banks k))).inv_of_idle (by simpa using hb) (by simpa using hp)
  | command _ i _ _ hf hc => exact hc.inv h hb hf

/-- A register of the status group can be read (R25). -/
theorem csrRead_statusGroup {n : BitVec 8} (h : statusGroup n = true) (s : State) : ∃ v, csrRead n s = .ok v := by
  unfold statusGroup at h
  cases hc : csrOf n with
  | none => simp [hc] at h
  | some c =>
    rw [csrRead, hc]
    cases c with
    | cmd | digest | pmlit | inp | bank => simp [hc] at h
    | _ => exact ⟨_, rfl⟩

/-- What a busy core performs of the host's transactions: `Reset`, or a read that changes the reply only (R40). -/
theorem perform_enabledWhileBusy {t : HostTxn} {s s' : State} (ht : enabledWhileBusy t = true)
    (h : perform t s = .next s') : s' = resetCore s ∨ ∃ r, s' = { s with reply := r } := by
  cases t with
  | reset => cases h; exact .inl rfl
  | csrRead n =>
    obtain ⟨v, hv⟩ := csrRead_statusGroup ht s
    simp only [perform, hv] at h
    cases h
    exact .inr ⟨_, rfl⟩
  | busRead a =>
    simp only [enabledWhileBusy] at ht
    split at ht
    · rename_i n hn
      obtain ⟨v, hv⟩ := csrRead_statusGroup ht s
      simp only [perform, busRead, hn, hv] at h
      cases h
      exact .inr ⟨_, rfl⟩
    · cases ht
  | _ => cases ht

/-- The transaction that a busy core performs keeps the invariant. -/
theorem State.Inv.perform_enabledWhileBusy {t : HostTxn} {s s' : State} (h : s.Inv) (ht : enabledWhileBusy t = true)
    (hp : perform t s = .next s') : s'.Inv := by
  obtain rfl | ⟨r, rfl⟩ := Machine.perform_enabledWhileBusy ht hp
  · exact h.resetCore
  · exact h.setReply r

end Machine

end Sys2Proof

/-! ## A round of the loop sequencer raises no fault (R115) -/

namespace Sys2Proof

namespace Machine

/-- Every register of `A` is valid. -/
def AllValid (A : Set Reg) (s : State) : Prop := ∀ r ∈ A, validF r.val s = true

/-- From every state with the registers of `A` valid, the instruction completes; afterwards `rd` is valid and
the registers of `A` still are. -/
def Sets (A : Set Reg) (i : Instr) (rd : Reg) : Prop :=
  ∀ s, AllValid A s → ∃ s', effect i s = .ok s' ∧ AllValid (insert rd A) s'

/-- From every state with the registers of `A` valid, the list completes and leaves those of `B` valid. -/
def Completes (A : Set Reg) (l : List Instr) (B : Set Reg) : Prop :=
  ∀ s, AllValid A s → ∃ s', runList l s = .ok s' ∧ AllValid B s'

/-- A write of `F[rd]` makes `rd` valid and clears no valid bit. -/
theorem AllValid.of_set {A : Set Reg} {s s' : State} (h : AllValid A s) {rd : Reg}
    (hvf : s'.vf = s.vf ||| BitVec.twoPow 16 rd.val) : AllValid (insert rd A) s' := by
  intro r hr
  rw [validF_congr (s := writeF rd feZero s) hvf, validF_writeF]
  rcases hr with rfl | hr
  · simp
  · simp [h r hr]

section
variable {A B C : Set Reg} {rd rs1 rs2 : Reg} {i : Instr} {l m : List Instr}

theorem sets_fadd (h1 : rs1 ∈ A) (h2 : rs2 ∈ A) : Sets A (.fadd rd rs1 rs2) rd :=
  fun _ hs => ⟨_, faddEffect_of_valid (hs _ h1) (hs _ h2), hs.of_set rfl⟩

theorem sets_fmul (h1 : rs1 ∈ A) (h2 : rs2 ∈ A) : Sets A (.fmul rd rs1 rs2) rd :=
  fun _ hs => ⟨_, fmulEffect_of_valid (hs _ h1) (hs _ h2), hs.of_set rfl⟩

theorem sets_faddi (c : Fe) (h1 : rs1 ∈ A) : Sets A (.faddi rd rs1 (feWord c)) rd :=
  fun _ hs => ⟨_, faddiEffect_of_valid (hs _ h1), hs.of_set rfl⟩

theorem sets_fmuli (c : Fe) (h1 : rs1 ∈ A) : Sets A (.fmuli rd rs1 (feWord c)) rd :=
  fun _ hs => ⟨_, fmuliEffect_of_valid (hs _ h1), hs.of_set rfl⟩

theorem completes_nil (h : B ⊆ A) : Completes A [] B := fun s hs => ⟨s, rfl, fun r hr => hs r (h hr)⟩

theorem Sets.cons (hi : Sets A i rd) (h : Completes (insert rd A) l B) : Completes A (i :: l) B := fun s hs => by
  obtain ⟨s1, he, h1⟩ := hi s hs
  rw [runList_cons_ok he]
  exact h s1 h1

theorem Completes.append (hl : Completes A l B) (hm : Completes B m C) : Completes A (l ++ m) C := fun s hs => by
  obtain ⟨s1, he, h1⟩ := hl s hs
  rw [runList_append_ok he]
  exact hm s1 h1

/-- A list of lists that each keep the registers of `A` valid. -/
theorem completes_flatMap {α : Type} {f : α → List Instr} {xs : List α} (h : ∀ x ∈ xs, Completes A (f x) A) :
    Completes A (xs.flatMap f) A := by
  induction xs with
  | nil => exact completes_nil subset_rfl
  | cons x xs ih =>
    rw [List.flatMap_cons]
    exact (h x (List.mem_cons_self ..)).append (ih fun y hy => h y (List.mem_cons_of_mem _ hy))

end

/-- `st_i`, `i < t` (R12). -/
def stRegs (t : Nat) : Set Reg := {r | ∃ i < t, r = stReg i}

/-- `w_i`, `i < t` (R12). -/
def wRegs (t : Nat) : Set Reg := {r | ∃ i < t, r = wReg i}

/-- R104. -/
theorem completes_arcTemplate {t n : Nat} (hn : n ≤ t) (c : Nat → Fe) :
    Completes (stRegs t) (arcTemplate n c) (stRegs t ∪ wRegs n) := by
  induction n with
  | zero => exact completes_nil fun r hr => hr.resolve_right fun ⟨_, h, _⟩ => absurd h (Nat.not_lt_zero _)
  | succ n ih =>
    rw [arcTemplate, List.range_succ, List.map_append]
    refine (ih (by omega)).append (Sets.cons (sets_faddi _ (.inl ⟨n, hn, rfl⟩)) (completes_nil ?_))
    rintro r (hr | ⟨i, hi, rfl⟩)
    · exact .inr (.inl hr)
    · rcases Nat.lt_succ_iff_lt_or_eq.mp hi with hi | rfl
      · exact .inr (.inr ⟨i, hi, rfl⟩)
      · exact .inl rfl

/-- R105. -/
theorem completes_sboxTemplate {A : Set Reg} {j : Nat} (hj : wReg j ∈ A) : Completes A (sboxTemplate j) A :=
  (sets_fmul hj hj).cons <| (sets_fmul (.inl rfl) (.inl rfl)).cons <|
    (sets_fmul (.inl rfl) (.inr (.inr hj))).cons <| completes_nil fun _ hr => .inr (.inr (.inr hr))

/-- R106, for either kind of round. -/
theorem completes_sboxStep {b : Bank} (ht : 0 < b.width) (r : Nat) :
    Completes (wRegs b.width) (sboxStep b r) (wRegs b.width) := by
  unfold sboxStep
  split
  · exact completes_flatMap fun j hj => completes_sboxTemplate ⟨j, List.mem_range.mp hj, rfl⟩
  · exact completes_sboxTemplate ⟨0, ht, rfl⟩

/-- R107, one row: the accumulator is valid from the first product on. -/
theorem completes_mixRow {t : Nat} (ht : 0 < t) (m : Nat → Nat → Fe) (i : Nat) :
    Completes (wRegs t) (mixRow t m i) (wRegs t) := by
  have hw {j : Nat} (hj : j ∈ List.range (t - 1)) : wReg (j + 1) ∈ wRegs t :=
    ⟨j + 1, by have := List.mem_range.mp hj; omega, rfl⟩
  have hterm (j : Nat) (hj : j ∈ List.range (t - 1)) : Completes (insert (stReg i) (wRegs t))
      [.fmuli prReg (wReg (j + 1)) (feWord (m i (j + 1))), .fadd (stReg i) (stReg i) prReg]
      (insert (stReg i) (wRegs t)) :=
    (sets_fmuli _ (.inr (hw hj))).cons <| (sets_fadd (.inr (.inl rfl)) (.inl rfl)).cons <|
      completes_nil fun _ hr => .inr (.inr hr)
  refine Sets.cons (sets_fmuli _ ⟨0, ht, rfl⟩) fun s hs => ?_
  obtain ⟨s', hr, hv⟩ := completes_flatMap hterm s hs
  exact ⟨s', hr, fun r h => hv r (.inr h)⟩

/-- R107. -/
theorem completes_mixTemplate {t : Nat} (ht : 0 < t) (m : Nat → Nat → Fe) :
    Completes (wRegs t) (mixTemplate t m) (wRegs t) :=
  completes_flatMap fun i _ => completes_mixRow ht m i

theorem widthOf_bounds (k : BankId) : 0 < widthOf k ∧ widthOf k ≤ 5 := by
  rcases bankId_cases k with rfl | rfl <;> decide

theorem stReg_val {i : Nat} (h : i < 16) : (stReg i).val = i := Nat.mod_eq_of_lt h
theorem wReg_val {i : Nat} (h : i < 11) : (wReg i).val = 5 + i := Nat.mod_eq_of_lt (by omega)

theorem allValid_stRegs {t : Nat} {s : State} (ht : t ≤ 5) :
    AllValid (stRegs t) s ↔ ∀ i < t, validF i s = true :=
  ⟨fun h i hi => stReg_val (i := i) (by omega) ▸ h _ ⟨i, hi, rfl⟩,
   fun h _ ⟨i, hi, hr⟩ => by rw [hr, stReg_val (by omega)]; exact h i hi⟩

theorem allValid_wRegs {t : Nat} {s : State} (ht : t ≤ 5) :
    AllValid (wRegs t) s ↔ ∀ i < t, validF (5 + i) s = true :=
  ⟨fun h i hi => wReg_val (i := i) (by omega) ▸ h _ ⟨i, hi, rfl⟩,
   fun h _ ⟨i, hi, hr⟩ => by rw [hr, wReg_val (by omega)]; exact h i hi⟩

/-! ### The sequencer's reads (R57, R111) -/

/-- The constants of a round lie in the store. -/
theorem arc_reads_in_store {t r R : Nat} (hr : r < R) : ∀ x ∈ (List.range t).map fun i => r * t + i, x < t * R := by
  intro x hx
  obtain ⟨i, hi, rfl⟩ := List.mem_map.mp hx
  have hi := List.mem_range.mp hi
  calc r * t + i < (r + 1) * t := by rw [Nat.succ_mul]; omega
    _ ≤ R * t := Nat.mul_le_mul_right t hr
    _ = t * R := Nat.mul_comm ..

/-- The matrix lies in the store. -/
theorem mix_reads_in_store {b : Bank} {t : Nat} (hc : b.mdsCols.toNat = t) :
    ∀ x ∈ (List.range t).flatMap fun i => (List.range t).map fun j => b.mdsIndex i j, x < t * t := by
  intro x hx
  obtain ⟨i, hi, hx⟩ := List.mem_flatMap.mp hx
  obtain ⟨j, hj, rfl⟩ := List.mem_map.mp hx
  have hi := List.mem_range.mp hi
  have hj := List.mem_range.mp hj
  calc b.mdsIndex i j = i * t + j := by rw [Bank.mdsIndex, hc]
    _ < (i + 1) * t := by rw [Nat.succ_mul]; omega
    _ ≤ t * t := Nat.mul_le_mul_right t hi

/-! ### The loop-mode step -/

theorem runList_ecause {l : List Instr} (hl : ∀ i ∈ l, isMicroOp i = true) {s s' : State}
    (h : runList l s = .ok s') : s'.ecause = s.ecause := by
  rw [runList_frame hl h]

theorem runList_round {l : List Instr} (hl : ∀ i ∈ l, isMicroOp i = true) {s s' : State}
    (h : runList l s = .ok s') : s'.round = s.round := by
  rw [runList_frame hl h]

/-- R115: a step of a loop-mode run goes on and leaves the record alone. -/
theorem loopStep_raises_nothing {s : State} (h : s.Steady) (hl : s.LoopRun) :
    ∃ s', loopStep s = .next s' ∧ s'.ecause = s.ecause := by
  obtain ⟨hw, -, hrcs, hcols, hmdss⟩ := cfgCheck_none ((h.banks s.ksel).locked hl.locked).1
  obtain ⟨hpos, hle⟩ := widthOf_bounds s.ksel
  by_cases hr : s.round = (bankAt s.ksel s).rounds
  · exact ⟨_, if_pos hr, rfl⟩
  rw [loopStep, if_neg hr, if_neg (not_not.mpr hw)]
  have hlt : s.round < (bankAt s.ksel s).rounds := lt_of_le_of_ne hl.round hr
  have hst : AllValid (stRegs (bankAt s.ksel s).width) s := by
    rw [hw]; exact (allValid_stRegs hle).mpr hl.stateValid
  have hwork (hp : s.phase = .sbox ∨ s.phase = .mix) : AllValid (wRegs (bankAt s.ksel s).width) s := by
    rw [hw]; exact (allValid_wRegs hle).mpr (hl.workValid hp)
  rw [← hw] at hpos
  cases hp : s.phase with
  | idle => exact absurd hp hl.phase
  | arc =>
    obtain ⟨s1, he, -⟩ := completes_arcTemplate le_rfl (roundConstant (bankAt s.ksel s) s.round) s hst
    have hin : outOfStore .rcs s.ksel (bankAt s.ksel s).mem.rcs.length _ = none :=
      outOfStore_eq_none.mpr (by rw [hrcs]; exact arc_reads_in_store hlt)
    simp only [arcStep, hin, he]
    have hrec := runList_ecause (arcTemplate_microOps _ _) he
    exact ⟨_, rfl, hrec⟩
  | sbox =>
    obtain ⟨s1, he, -⟩ := completes_sboxStep hpos s.round s (hwork (.inl hp))
    simp only [sboxStepEffect, he]
    have hrec := runList_ecause (sboxStep_microOps _ _) he
    exact ⟨_, rfl, hrec⟩
  | mix =>
    obtain ⟨s1, he, -⟩ := completes_mixTemplate hpos (bankAt s.ksel s).mds s (hwork (.inr hp))
    have hin : outOfStore .mdss s.ksel (bankAt s.ksel s).mem.mdss.length _ = none :=
      outOfStore_eq_none.mpr (by rw [hmdss]; exact mix_reads_in_store hcols)
    simp only [mixStep, hin, he]
    have hrec := runList_ecause (mixTemplate_microOps _ _) he
    exact ⟨_, rfl, hrec⟩

end Machine

end Sys2Proof

/-! ## Steps of the engine keep the invariant -/

namespace Sys2Proof

namespace Machine

/-- A loop-mode run that has executed the list `l` goes on at round `r` in phase `p`. -/
theorem State.Inv.afterTemplate {s s1 : State} {l : List Instr} (h : s.Inv) (hb : s.busy = true)
    (hu : s.umode = false) (hl : ∀ i ∈ l, isMicroOp i = true) (he : runList l s = .ok s1) {r : Nat} {p : Phase}
    (fr : Nat) (hp : p ≠ .idle) (hr : r ≤ (bankAt s.ksel s).rounds) (hend : r = (bankAt s.ksel s).rounds → p = .arc)
    (hw : p = .sbox ∨ p = .mix → ∀ i < widthOf s.ksel, validF (5 + i) s1 = true) :
    { s1 with round := r, phase := p, free := fr }.Inv := by
  have hs := h.steady
  have hrun := h.running hb
  have hloop := hrun.loop hu
  have hvf {j : Nat} (hj : validF j s = true) : validF j s1 = true := runList_vf hl he hj
  obtain ⟨f, vf, upc, rccnt, rfl⟩ : ∃ f vf upc rccnt, s1 = { s with f := f, vf := vf, upc := upc, rccnt := rccnt } :=
    ⟨_, _, _, _, runList_frame hl he⟩
  refine State.Steady.inv_of_running ⟨hs.params, hs.banks, hs.recordEmpty, hs.recordCode⟩ hb
    ⟨hrun.record, hrun.done, hrun.vdig, fun _ => ?_, fun hu' => ?_, fun hh => hvf (hrun.hash hh)⟩
  · exact ⟨hloop.locked, hp, hr, hend, fun i hi => hvf (hloop.stateValid i hi), hw⟩
  · exact absurd (hu.symm.trans hu') Bool.false_ne_true

/-- After ARC the working registers are valid (R104). -/
theorem arc_workValid {s s1 : State} {t : Nat} {c : Nat → Fe} (ht : t ≤ 5) (hv : ∀ i < t, validF i s = true)
    (he : runList (arcTemplate t c) s = .ok s1) : ∀ i < t, validF (5 + i) s1 = true := by
  obtain ⟨s2, he2, hv2⟩ := completes_arcTemplate le_rfl c s ((allValid_stRegs ht).mpr hv)
  cases he.symm.trans he2
  exact (allValid_wRegs ht).mp fun r hr => hv2 r (.inr hr)

/-- A micro-operation of an unrolled-mode run keeps the invariant (R14, R113). -/
theorem State.Inv.microOp {s s' : State} {i : Instr} (h : s.Inv) (hb : s.busy = true) (hu : s.umode = true)
    (hlen : s.upc.toNat < (bankAt s.ksel s).mem.pms.length) (hi : isMicroOp i = true) (he : effect i s = .ok s') :
    s'.Inv := by
  have hs := h.steady
  have hrun := h.running hb
  have hvf {j : Nat} (hj : validF j s = true) : validF j s' = true := effect_microOp_vf hi he hj
  have hbound : (s.upc + 1).toNat ≤ (bankAt s.ksel s).mem.pms.length := by
    rw [BitVec.toNat_add]
    exact (Nat.mod_le ..).trans hlen
  obtain ⟨rd, v, rfl | rfl⟩ := effect_microOp_cases hi he
  all_goals
    exact State.Steady.inv_of_running ⟨hs.params, hs.banks, hs.recordEmpty, hs.recordCode⟩ hb
      ⟨hrun.record, hrun.done, hrun.vdig, fun hu' => absurd (hu'.symm.trans hu) Bool.false_ne_true,
        fun _ => ⟨hbound, (hrun.unrolled hu).2⟩, fun hh => hvf (hrun.hash hh)⟩

/-- A fault of the engine step is one of an unrolled-mode run, whose sequencer is idle (R115, R180). -/
theorem State.Inv.raiseFault_engine {s : State} {c : Cause} (h : s.Inv) (hb : s.busy = true)
    (hs : engineStep s = .next (raiseFault .engine c s)) : (raiseFault .engine c s).Inv := by
  have hrun := h.running hb
  cases hu : s.umode with
  | true =>
    exact (h.steady.raiseFault .engine c).inv_of_idle rfl (by simpa using (hrun.unrolled hu).2)
  | false =>
    obtain ⟨s1, h1, hrec⟩ := loopStep_raises_nothing h.steady (hrun.loop hu)
    rw [engineStep, if_neg (by simp [hu]), h1] at hs
    cases hs
    exact absurd (hrec.trans hrun.record) (raiseFault_ecause_ne_zero .engine c s)

/-- A step of the engine keeps the invariant (R110, R113, R114). -/
theorem State.Inv.engineStep {s s' : State} (h : s.Inv) (hb : s.busy = true) (hs : engineStep s = .next s') :
    s'.Inv := by
  have hsteady := h.steady
  have hrun := h.running hb
  cases engineStep_effect hs with
  | completed =>
    exact State.Steady.inv_of_idle ⟨hsteady.params, hsteady.banks, hsteady.recordEmpty, hsteady.recordCode⟩ rfl rfl
  | raised c => exact h.raiseFault_engine hb hs
  | microOp i _ hu hlen hi he => exact h.microOp hb hu hlen hi he
  | arc s1 hu hr hp hw he =>
    have hloop := hrun.loop hu
    have hwork := arc_workValid (hw ▸ (widthOf_bounds _).2) (hw ▸ hloop.stateValid) he
    have hround := runList_round (arcTemplate_microOps _ _) he
    exact h.afterTemplate hb hu (arcTemplate_microOps _ _) he s1.free (by simp) (hround ▸ hloop.round)
      (fun hend => absurd (hround ▸ hend) hr) fun _ => hw ▸ hwork
  | sbox s1 hu hr hp hw he =>
    have hloop := hrun.loop hu
    have hround := runList_round (sboxStep_microOps _ _) he
    exact h.afterTemplate hb hu (sboxStep_microOps _ _) he s1.free (by simp) (hround ▸ hloop.round)
      (fun hend => absurd (hround ▸ hend) hr)
      fun _ i hi => runList_vf (sboxStep_microOps _ _) he (hloop.workValid (.inl hp) i hi)
  | mix s1 hu hr hp hw he =>
    have hround := runList_round (mixTemplate_microOps _ _) he
    have hnext : s1.round + 1 ≤ (bankAt s.ksel s).rounds :=
      hround ▸ lt_of_le_of_ne (hrun.loop hu).round hr
    exact h.afterTemplate hb hu (mixTemplate_microOps _ _) he _ (by simp) hnext (fun _ => rfl) (by simp)

/-- A busy core performs a transaction that is due, or the engine's next step (R54, R109). -/
theorem step_of_busy {s s' : State} (hb : s.busy = true) (h : step s = .next s') :
    (∃ t others, takeDue s.pending = some (t, others) ∧ perform t { s with pending := others } = .next s') ∨
      engineStep { s with pending := tick s.pending } = .next s' := by
  rw [step, if_pos hb, busyStep] at h
  split at h
  · exact .inl ⟨_, _, ‹_›, h⟩
  · exact .inr h

/-- Settles O55: an idle core takes a step of the host, a busy one a transaction that cannot disturb the run, or an engine
step. -/
theorem stepKeepsInvariant : Obligations.StepKeepsInvariant := by
  unfold Obligations.StepKeepsInvariant
  intro s t h hs
  cases hb : s.busy with
  | false =>
    cases step_effect hs with
    | host _ others _ _ _ _ he => exact he.inv (h.setPending others) hb
    | engine _ hb' => exact absurd (hb.symm.trans hb') Bool.false_ne_true
    | none => exact h
  | true =>
    obtain ⟨txn, others, htake, hp⟩ | he := step_of_busy hb hs
    · exact (h.setPending others).perform_enabledWhileBusy (takeDue_some htake).1 hp
    · exact (h.setPending (tick s.pending)).engineStep hb he

end Machine

end Sys2Proof

/-! ## The record and the valid bits under every step -/

namespace Sys2Proof

namespace Machine

/-- A step of the engine completes the run, raises a fault, or executes a list of micro-operations and moves the
sequencer on. -/
theorem EngineEffect.shape {s s' : State} (h : EngineEffect s s') :
    s' = completeRun s ∨ (∃ c, s' = raiseFault .engine c s) ∨
      ∃ l s1, (∀ i ∈ l, isMicroOp i = true) ∧ runList l s = .ok s1 ∧
        s' = { s1 with round := s'.round, phase := s'.phase, free := s'.free } := by
  cases h with
  | completed => exact .inl rfl
  | raised c => exact .inr (.inl ⟨c, rfl⟩)
  | microOp i _ _ _ hi he => exact .inr (.inr ⟨[i], s', by simpa using hi, runList_cons_ok he, rfl⟩)
  | arc s1 _ _ _ _ he => exact .inr (.inr ⟨_, s1, arcTemplate_microOps _ _, he, rfl⟩)
  | sbox s1 _ _ _ _ he => exact .inr (.inr ⟨_, s1, sboxStep_microOps _ _, he, rfl⟩)
  | mix s1 _ _ _ _ he => exact .inr (.inr ⟨_, s1, mixTemplate_microOps _ _, he, rfl⟩)

/-! ### The record -/

/-- The two states have the same fault record. -/
def SameRecord (s t : State) : Prop := t.ecause = s.ecause ∧ t.epc = s.epc ∧ t.einfo = s.einfo

theorem sameRecord_raiseFault {s : State} (h : s.ecause ≠ 0) (o : Origin) (c : Cause) :
    SameRecord s (raiseFault o c s) := by
  cases o <;> simp [SameRecord, raiseFault, recordFault_of_faulted h]

/-- A step of the engine keeps a recorded fault (R21, R185). -/
theorem EngineEffect.sameRecord {s s' : State} (h : EngineEffect s s') (hs : s.ecause ≠ 0) : SameRecord s s' := by
  obtain rfl | ⟨c, rfl⟩ | ⟨l, s1, hl, he, hs'⟩ := h.shape
  · exact ⟨rfl, rfl, rfl⟩
  · exact sameRecord_raiseFault hs .engine c
  · rw [hs', runList_frame hl he]
    exact ⟨rfl, rfl, rfl⟩

/-- The transactions that acknowledge a recorded fault. -/
def Acknowledges (t : HostTxn) : Prop := t = .reset ∨ t = .csrWrite 0x02 7 ∨ t = .busWrite 0x02 7

/-- CLRERR has one word: the mask of its row covers every bit (R67). -/
theorem decodeCmdWord_clrerr {w : CmdWord} (h : decodeCmdWord w = some .clrerr) : w = 7 := by
  have hmask : w &&& 0xFFFFFFFF = w := BitVec.and_allOnes
  unfold decodeCmdWord at h
  iterate 6
    split at h
    · cases h
  split at h
  · rename_i hrow
    rwa [hmask] at hrow
  · cases h

theorem decodeCommand_clrerr {v : Word} (h : decodeCommand v = .ok .clrerr) : v = 7 := by
  unfold decodeCommand at h
  split at h
  · cases h
  rename_i hlt
  split at h
  · rename_i i hi
    cases h
    have hw := congrArg BitVec.toNat (decodeCmdWord_clrerr hi)
    rw [BitVec.toNat_setWidth, Nat.mod_eq_of_lt (Nat.lt_of_not_le hlt)] at hw
    exact BitVec.eq_of_toNat_eq hw
  · cases h

/-- A transaction keeps a recorded fault or acknowledges it (R181, R182). -/
theorem HostEffect.record {s s' : State} {t : HostTxn} (h : HostEffect s t s') (hs : s.ecause ≠ 0) :
    SameRecord s s' ∨ (s'.ecause = 0 ∧ s'.epc = 0 ∧ s'.einfo = 0) ∧ Acknowledges t := by
  cases h with
  | reset => exact .inr ⟨⟨rfl, rfl, rfl⟩, .inl rfl⟩
  | answered | dropped => exact .inl ⟨rfl, rfl, rfl⟩
  | refused _ c r => exact .inl (sameRecord_raiseFault hs .host c)
  | command _ i _ ht hi hc =>
    obtain rfl := hi.resolve_left hs
    obtain ⟨v, hv, ht⟩ := ht
    cases decodeCommand_clrerr hv
    cases hc
    exact .inr ⟨⟨rfl, rfl, rfl⟩, .inr ht⟩
  | raised _ _ h0 | literal _ _ h0 | input _ _ _ h0 | field _ _ _ h0 | bank _ _ _ h0 => exact absurd h0 hs

theorem HostEffect.pending {s s' : State} {t : HostTxn} (h : HostEffect s t s') : s'.pending = s.pending := by
  cases h with
  | command _ _ _ _ _ hc => cases hc <;> simp
  | bank | refused | raised => simp
  | _ => rfl

/-- Settles O32: the engine keeps the record; a transaction that clears it is `Reset`, or a write that a busy core would
hold. -/
theorem recordKeepsTheFirstFault : Obligations.RecordKeepsTheFirstFault := by
  unfold Obligations.RecordKeepsTheFirstFault
  intro s t hs h
  cases step_effect h with
  | none => exact .inl ⟨rfl, rfl, rfl⟩
  | engine _ _ he => exact .inl (he.sameRecord hs)
  | host txn others _ hp hi hb he =>
    refine (he.record hs).imp id fun ⟨⟨h1, h2, h3⟩, hack⟩ => ⟨h1, h2, h3, ?_⟩
    have hnext (hw : enabledWhileBusy txn = false) : HostNext s txn t.pending := by
      have hidle : s.busy = false := by
        by_contra hbusy
        exact absurd (hb (by simpa using hbusy)) (by simp [hw])
      rw [he.pending]
      exact ⟨hidle, hi hidle⟩
    obtain rfl | rfl | rfl := hack
    · exact .inl hp
    · exact .inr (.inl (hnext rfl))
    · exact .inr (.inr (hnext rfl))

/-! ### The valid bits -/

/-- Every valid bit of `F` and `IN` that is set in `s` is set in `t`. -/
def KeepsValid (s t : State) : Prop :=
  (∀ j, validF j s = true → validF j t = true) ∧ ∀ j, validIn j s = true → validIn j t = true

theorem keepsValid_of_eq {s t : State} (hf : t.vf = s.vf) (hi : t.vin = s.vin) : KeepsValid s t :=
  ⟨fun j h => by rwa [validF, hf], fun j h => by rwa [validIn, hi]⟩

theorem KeepsValid.writeF {s t : State} (h : KeepsValid s t) {i : Reg} {v : Fe} : KeepsValid s (writeF i v t) :=
  ⟨fun j hj => by rw [validF_writeF, h.1 j hj]; rfl, h.2⟩

theorem KeepsValid.writeIn {s t : State} (h : KeepsValid s t) {i : Fin 4} {v : Fe} : KeepsValid s (writeIn i v t) :=
  ⟨h.1, fun j hj => by rw [validIn_writeIn, h.2 j hj]; rfl⟩

theorem KeepsValid.startRun {s t : State} (h : KeepsValid s t) {k : BankId} {u hop : Bool} :
    KeepsValid s (startRun k u hop t) := h

/-- A step of the engine clears no valid bit. -/
theorem EngineEffect.keepsValid {s s' : State} (h : EngineEffect s s') : KeepsValid s s' := by
  obtain rfl | ⟨c, rfl⟩ | ⟨l, s1, hl, he, hs'⟩ := h.shape
  · exact keepsValid_of_eq rfl rfl
  · exact keepsValid_of_eq (by simp) (by simp)
  · refine ⟨fun j hj => ?_, fun j hj => ?_⟩
    · rw [hs']; exact runList_vf hl he hj
    · rw [hs', runList_frame hl he]; exact hj

/-- A command clears no valid bit. -/
theorem CommandEffect.keepsValid {s s' : State} {i : Instr} (h : CommandEffect s i s') : KeepsValid s s' := by
  have hs : KeepsValid s s := keepsValid_of_eq rfl rfl
  cases h with
  | init | gen => exact keepsValid_of_eq (by simp) (by simp)
  | permute | execProg => exact hs.startRun
  | hash2 => exact hs.writeF.writeF.writeF.startRun
  | hash4 => exact hs.writeF.writeF.writeF.writeF.writeF.startRun
  | clrerr => exact hs

/-- Of the transactions only `Reset` clears a valid bit (R13, R200). -/
theorem HostEffect.keepsValid {s s' : State} {t : HostTxn} (h : HostEffect s t s') :
    KeepsValid s s' ∨ t = .reset ∧ s'.vf = 0 ∧ s'.vin = 0 := by
  have hs : KeepsValid s s := keepsValid_of_eq rfl rfl
  cases h with
  | reset => exact .inr ⟨rfl, rfl, rfl⟩
  | answered | dropped | literal => exact .inl hs
  | refused | raised | bank => exact .inl (keepsValid_of_eq (by simp) (by simp))
  | input => exact .inl hs.writeIn
  | field => exact .inl hs.writeF
  | command _ _ _ _ _ hc => exact .inl hc.keepsValid

/-- Settles O59: each kind of step keeps the valid bits, but for `Reset`. -/
theorem onlyResetClearsValidBits : Obligations.OnlyResetClearsValidBits := by
  unfold Obligations.OnlyResetClearsValidBits
  intro s t h
  have hkeeps (hk : KeepsValid s t) : (∀ i : Reg, validF i.val s = true → validF i.val t = true) ∧
      ∀ i : Fin 4, validIn i.val s = true → validIn i.val t = true :=
    ⟨fun i => hk.1 i.val, fun i => hk.2 i.val⟩
  cases step_effect h with
  | none => exact .inl (hkeeps (keepsValid_of_eq rfl rfl))
  | engine _ _ he => exact .inl (hkeeps he.keepsValid)
  | host txn others _ hp _ _ he =>
    exact he.keepsValid.imp hkeeps fun ⟨ht, hvf, hvin⟩ => ⟨hvf, hvin, ht ▸ hp⟩

end Machine

end Sys2Proof

/-! ## The host port: the map, its reads and its writes -/

namespace Sys2Proof

namespace Machine

/-! ### Words -/

/-- A word put together from two fields, as a number. -/
theorem toNat_append_eq_add {m n : Nat} (x : BitVec m) (y : BitVec n) :
    (x ++ y).toNat = 2 ^ n * x.toNat + y.toNat := by
  rw [BitVec.toNat_append, ← Nat.shiftLeft_add_eq_or_of_lt y.isLt, Nat.shiftLeft_eq, Nat.mul_comm]

/-- The reason word of a `ConfigError`, field by field (R172). -/
theorem causeInfo_configError (r : Reason) (k : BankId) (m : Bool) (i : BitVec 32) :
    causeInfo (.configError r k m i) = reasonWord (reasonCode r).toNat k.val m.toNat i.toNat := by
  have hk : (bankBit k).toNat = k.val := by revert k; decide
  apply BitVec.eq_of_toNat_eq
  have hr := (reasonCode r).isLt
  have hkv := k.isLt
  have hm := m.toNat_lt
  have hi := i.isLt
  simp only [causeInfo, reasonWord, toNat_append_eq_add, BitVec.toNat_ofBool, BitVec.toNat_ofNat, hk]
  omega

theorem lengthWord_eq (n : Nat) : lengthWord n = BitVec.ofNat 256 (n % 2 ^ 32) := by
  rw [lengthWord, ← BitVec.ofNat_toNat, BitVec.toNat_ofNat]

theorem bstatWord_eq (b : Bank) : bstatWord b = BitVec.ofNat 256 (b.lock.toNat + 2 * b.uvalid.toNat) := by
  rw [bstatWord, ← BitVec.ofNat_toNat, toNat_append_eq_add, BitVec.toNat_ofBool, BitVec.toNat_ofBool, Nat.add_comm,
    pow_one]

theorem phaseBits_toNat (p : Phase) : (phaseBits p).toNat = phaseNumber p := by cases p <;> rfl

theorem seqWord_eq (s : State) :
    seqWord s = BitVec.ofNat 256 ((roundRegister s).toNat + 2 ^ 16 * phaseNumber s.phase) := by
  rw [seqWord, ← BitVec.ofNat_toNat, toNat_append_eq_add, phaseBits_toNat, Nat.add_comm]

theorem oorpolWord_eq (p : Config.OorPolicy) : oorpolWord p = if p = .reject then 1 else 0 := by cases p <;> rfl

/-! ### The map -/

/-- The offset of a bank register from the bank's base (R25). -/
def bankRegOffset : BankReg → Nat
  | .t => 0x0
  | .rf => 0x1
  | .rp => 0x2
  | .alpha => 0x3
  | .rclen => 0x4
  | .mdsrows => 0x5
  | .mdscols => 0x6
  | .mdslen => 0x7
  | .plen => 0x8
  | .bstat => 0x9
  | .rcpush => 0xA
  | .mdspush => 0xB
  | .pmpush => 0xC

theorem csrOf_bankCsr (k : BankId) (r : BankReg) : csrOf (bankCsr k (bankRegOffset r)) = some (.bank k r) := by
  rcases bankId_cases k with rfl | rfl <;> cases r <;> rfl

theorem csrOf_inp (i : Fin 4) : csrOf (BitVec.ofNat 8 (0x10 + i.val)) = some (.inp i) := by revert i; decide

theorem csrOf_unmapped (n : BitVec 8) : 0x0C ≤ n.toNat ∧ n.toNat ≤ 0x0F ∨ 0x14 ≤ n.toNat ∧ n.toNat ≤ 0x1F ∨
    0x2D ≤ n.toNat ∧ n.toNat ≤ 0x2F ∨ 0x3D ≤ n.toNat → csrOf n = none := by
  revert n
  decide +kernel

theorem csrRead_of_csrOf {n : BitVec 8} {c : Csr} (h : csrOf n = some c) (s : State) : csrRead n s = csrValue c s := by
  rw [csrRead, h]

theorem csrRead_bankCsr (k : BankId) (r : BankReg) (s : State) :
    csrRead (bankCsr k (bankRegOffset r)) s = .ok (bankRegRead r (bankAt k s)) :=
  csrRead_of_csrOf (csrOf_bankCsr k r) s

theorem csrPut_bankCsr (k : BankId) (r : BankReg) (v : Word) (s : State) :
    csrPut (bankCsr k (bankRegOffset r)) v s = bankRegWrite k r (bankCsr k (bankRegOffset r)) v s := by
  rw [csrPut, csrOf_bankCsr]

/-- A number that names no register (R25). -/
theorem csr_unmapped {n : BitVec 8} (h : csrOf n = none) (s : State) :
    csrRead n s = .error (.badIndex n.toNat) ∧ ∀ v, csrPut n v s = .error (.badIndex n.toNat) :=
  ⟨by rw [csrRead, h], fun v => by rw [csrPut, h]⟩

/-! ### The state after reset -/

/-- Settles O54: an idle core with both banks and the record as `Reset` leaves them; the parameters are the standard ones (log
entry 2). -/
theorem resetMeetsInvariant : Obligations.ResetMeetsInvariant := by
  unfold Obligations.ResetMeetsInvariant
  exact (steady_of_reset (by decide) rfl rfl rfl rfl rfl).inv_of_idle rfl rfl

/-- Settles O33: the fields are those of `State.reset`, the reads those of the map. -/
theorem resetStateValues : Obligations.ResetStateValues := by
  unfold Obligations.ResetStateValues
  refine ⟨rfl, rfl, rfl, rfl, rfl, rfl, rfl, rfl, rfl, rfl, rfl, rfl, rfl, rfl, rfl, rfl, fun k => ⟨?_, ?_, rfl, rfl⟩⟩
  · exact ite_self Bank.reset
  · exact csrRead_bankCsr k .alpha State.reset

/-! ### The registers' words -/

/-- The four fields of `STATUS` (R26). -/
theorem getLsbD_statusWord (s : State) (i : Nat) : (statusWord s).getLsbD i =
    if i < 10 then (statusFlags s).getLsbD i else if i < 16 then false
    else if i < 32 then s.vf.getLsbD (i - 16) else s.vin.getLsbD (i - 32) := by
  have hvin : 256 ≤ i → s.vin.getLsbD (i - 32) = false := fun h => BitVec.getLsbD_of_ge _ _ (by omega)
  simp only [statusWord, BitVec.getLsbD_setWidth, BitVec.getLsbD_append, BitVec.getLsbD_zero]
  grind

/-- The flags, one by one (R26). -/
theorem getLsbD_statusFlags (s : State) (i : Nat) :
    (statusFlags s).getLsbD i = [s.busy, s.done, faulted s, s.bank0.lock, s.bank1.lock, s.bank0.uvalid, s.bank1.uvalid,
      s.vdig, bankBit s.ksel, s.umode].getD i false := by
  by_cases hi : i < 10
  · simp only [statusFlags, BitVec.getLsbD_append, BitVec.getLsbD_ofBool]
    interval_cases i <;> rfl
  · have hi : 10 ≤ i := Nat.le_of_not_lt hi
    rw [BitVec.getLsbD_of_ge _ _ hi, List.getD_eq_default _ _ hi]

/-- Settles O35: each bit lies in one field of the word. -/
theorem statusWordFields : Obligations.StatusWordFields := by
  unfold Obligations.StatusWordFields
  intro s
  simp only [getLsbD_statusWord, getLsbD_statusFlags]
  refine ⟨rfl, rfl, rfl, rfl, rfl, rfl, rfl, rfl, rfl, rfl, rfl, fun i h1 h2 => ?_, fun i hi => ?_, fun i hi => ?_,
    fun i hi => ?_, fun _ => rfl⟩
  · rw [if_neg (by omega), if_pos h2]
  · rw [if_neg (by omega), if_neg (by omega), if_pos (by omega), Nat.add_sub_cancel_left]
  · rw [if_neg (by omega), if_neg (by omega), if_neg (by omega), Nat.add_sub_cancel_left]
  · rw [if_neg (by omega), if_neg (by omega), if_neg (by omega)]
    exact BitVec.getLsbD_of_ge _ _ (by omega)

/-- Settles O36: each number's register, then the register's word. -/
theorem csrMapReads : Obligations.CsrMapReads := by
  unfold Obligations.CsrMapReads
  intro s k
  refine ⟨⟨rfl, rfl, ?_, ?_, rfl, ?_, ?_, ?_, ⟨roundRegister s, roundRegister_toNat_of_fits, ?_⟩, rfl⟩,
    ⟨?_, ?_, ?_, csrRead_bankCsr k .alpha s, ?_, ?_, ?_, ?_, ?_, ?_, csrRead_bankCsr k .rcpush s,
      csrRead_bankCsr k .mdspush s, csrRead_bankCsr k .pmpush s⟩,
    fun n hn => csr_unmapped (csrOf_unmapped n hn) s, ?_⟩
  · exact congrArg _ (BitVec.ofNat_toNat ..).symm
  · exact congrArg _ (BitVec.ofNat_toNat ..).symm
  · exact congrArg _ (oorpolWord_eq _)
  · exact congrArg _ (BitVec.ofNat_toNat ..).symm
  · exact congrArg _ (BitVec.ofNat_toNat ..).symm
  · exact congrArg _ (seqWord_eq s)
  · exact (csrRead_bankCsr k .t s).trans (congrArg _ (BitVec.ofNat_toNat ..).symm)
  · exact (csrRead_bankCsr k .rf s).trans (congrArg _ (BitVec.ofNat_toNat ..).symm)
  · exact (csrRead_bankCsr k .rp s).trans (congrArg _ (BitVec.ofNat_toNat ..).symm)
  · exact (csrRead_bankCsr k .rclen s).trans (congrArg _ (lengthWord_eq _))
  · exact (csrRead_bankCsr k .mdslen s).trans (congrArg _ (lengthWord_eq _))
  · exact (csrRead_bankCsr k .plen s).trans (congrArg _ (lengthWord_eq _))
  · exact (csrRead_bankCsr k .mdsrows s).trans (congrArg _ (BitVec.ofNat_toNat ..).symm)
  · exact (csrRead_bankCsr k .mdscols s).trans (congrArg _ (BitVec.ofNat_toNat ..).symm)
  · exact (csrRead_bankCsr k .bstat s).trans (congrArg _ (bstatWord_eq _))
  · intro n hn v
    simp only [List.mem_cons, List.not_mem_nil, or_false] at hn
    obtain rfl | rfl | rfl | rfl | rfl | rfl | rfl | rfl | rfl | rfl | rfl | rfl | rfl | rfl | rfl := hn
    iterate 10 · rfl
    · exact csrPut_bankCsr k .alpha v s
    · exact csrPut_bankCsr k .rclen v s
    · exact csrPut_bankCsr k .mdslen v s
    · exact csrPut_bankCsr k .plen v s
    · exact csrPut_bankCsr k .bstat v s

/-! ### Reads through the valid bits -/

/-- A fault raised by a read (R180, R181), in the terms of the statements. -/
theorem raiseFault_host_eq (c : Cause) (s : State) :
    raiseFault .host c s = ifUnfaulted s (hostFault s (causeCode c) (causeInfo c)) := by
  by_cases h : s.ecause = 0
  · rw [ifUnfaulted, if_pos h, raiseFault, recordFault_of_empty h, hostFault]
  · rw [ifUnfaulted, if_neg h, raiseFault, recordFault_of_faulted h]

/-- A fault raised by a write with an empty record (R180). -/
theorem finish_host_error {s : State} (h : s.ecause = 0) (c : Cause) :
    finish .host s (.error c) = .next (hostFault s (causeCode c) (causeInfo c)) := by
  rw [finish_error, raiseFault_host_eq, ifUnfaulted, if_pos h]

/-- A refused read returns 0 and raises (R52, R180, R181). -/
theorem answerRead_error (z : Reply) (c : Cause) (s : State) : answerRead z (.error c) s =
    { ifUnfaulted s (hostFault s (causeCode c) (causeInfo c)) with reply := some z } := by
  rw [← raiseFault_host_eq]; rfl

theorem perform_csrRead_inp (i : Fin 4) (s : State) : perform (.csrRead (BitVec.ofNat 8 (0x10 + i.val))) s =
    .next (answerRead (.word 0) (((readIn i s).map feWord).map .word) s) := by
  rw [perform, csrRead_of_csrOf (csrOf_inp i)]; rfl

/-- Settles O38: each register's read is one of the two answers of `readF`, `readIn`, `readDigest`. -/
theorem readsThroughValidBits : Obligations.ReadsThroughValidBits := by
  unfold Obligations.ReadsThroughValidBits
  intro s
  refine ⟨fun i h => ?_, fun i h => ?_, fun h => ?_, fun i h => ?_, fun i h => ?_, fun h => ?_⟩
  · rw [perform, fRead, readF_of_valid h]; rfl
  · rw [perform_csrRead_inp, readIn_of_valid h]; rfl
  · rw [perform, csrRead_of_csrOf (c := .digest) rfl, csrValue, readDigest, if_pos h]; rfl
  · rw [perform, fRead, readF_of_invalid h]
    exact congrArg _ (answerRead_error ..)
  · rw [perform_csrRead_inp, readIn_of_invalid h]
    exact congrArg _ (answerRead_error ..)
  · rw [perform, csrRead_of_csrOf (c := .digest) rfl, csrValue, readDigest, if_neg (by simp [h])]
    exact congrArg _ (answerRead_error ..)

/-! ### Writes of the configuration registers -/

/-- A write of a bank register while no fault is recorded. -/
theorem perform_csrWrite_bankCsr {s : State} (h : s.ecause = 0) (k : BankId) (r : BankReg) (v : Word) :
    perform (.csrWrite (bankCsr k (bankRegOffset r)) v) s =
      finish .host s (bankRegWrite k r (bankCsr k (bankRegOffset r)) v s) := by
  rw [perform, csrWrite, csrOf_bankCsr, if_neg (by simp), hostWrite, if_neg (by simp [faulted, h]), csrPut_bankCsr]

theorem configValue_of_lt (k : BankId) (n : BitVec 8) {v : Word} (h : v.toNat < 2 ^ 16) :
    configValue k n v = .ok (v.setWidth 16) := if_pos h

theorem configValue_of_ge (k : BankId) (n : BitVec 8) {v : Word} (h : 2 ^ 16 ≤ v.toNat) :
    configValue k n v = .error (.configError .regRange k false (n.setWidth 32)) := if_neg (Nat.not_lt.mpr h)

section
variable {k : BankId} {n : BitVec 8} {v : Word} {put : BitVec 16 → Bank → Bank} {s : State}

theorem configWrite_of_locked (h : (bankAt k s).lock = true) : configWrite k n v put s = .error (.lockedWrite n) :=
  if_pos h

theorem configWrite_of_ge (h : (bankAt k s).lock = false) (hv : 2 ^ 16 ≤ v.toNat) :
    configWrite k n v put s = .error (.configError .regRange k false (n.setWidth 32)) := by
  simp [configWrite, h, configValue_of_ge k n hv]

theorem configWrite_of_lt (h : (bankAt k s).lock = false) (hv : v.toNat < 2 ^ 16) :
    configWrite k n v put s = .ok (setBank k (put (v.setWidth 16) (bankAt k s)) s) := by
  simp [configWrite, h, configValue_of_lt k n hv]

end

/-- The configuration registers that the host writes (R23). -/
def configRegs : List BankReg := [.t, .rf, .rp, .mdsrows, .mdscols]

/-- A bank with the value of a configuration register replaced. -/
def configPut (r : BankReg) (x : BitVec 16) (b : Bank) : Bank :=
  match r with
  | .t => { b with t := x }
  | .rf => { b with rf := x }
  | .rp => { b with rp := x }
  | .mdsrows => { b with mdsRows := x }
  | .mdscols => { b with mdsCols := x }
  | .alpha | .rclen | .mdslen | .plen | .bstat | .rcpush | .mdspush | .pmpush => b

theorem bankRegWrite_config {r : BankReg} (h : r ∈ configRegs) (k : BankId) (n : BitVec 8) (v : Word) (s : State) :
    bankRegWrite k r n v s = configWrite k n v (configPut r) s := by
  simp only [configRegs, List.mem_cons, List.not_mem_nil, or_false] at h
  obtain rfl | rfl | rfl | rfl | rfl := h <;> rfl

/-- A configuration register of an unlocked bank stores a value of 16 bits. -/
theorem perform_config_write {s : State} (hs : s.ecause = 0) {k : BankId} (hl : (bankAt k s).lock = false) {v : Word}
    (hv : v.toNat < 2 ^ 16) {r : BankReg} (hr : r ∈ configRegs) :
    perform (.csrWrite (bankCsr k (bankRegOffset r)) v) s =
      .next (setBank k (configPut r (v.setWidth 16) (bankAt k s)) s) := by
  rw [perform_csrWrite_bankCsr hs, bankRegWrite_config hr, configWrite_of_lt hl hv, finish_ok]

/-- Settles O39: the lock, then the range, then the write. -/
theorem configurationRegisterWrites : Obligations.ConfigurationRegisterWrites := by
  unfold Obligations.ConfigurationRegisterWrites
  intro k v s hs
  refine ⟨fun o ho => ?_, fun hl hv => ?_⟩
  · obtain ⟨r, hr, rfl⟩ : ∃ r ∈ configRegs, bankRegOffset r = o := List.mem_map.mp ho
    rw [perform_csrWrite_bankCsr hs, bankRegWrite_config hr]
    refine ⟨fun hl => ?_, fun hl hv => ?_⟩
    · rw [configWrite_of_locked hl, finish_host_error hs]
      exact congrArg (fun w => Host.Outcome.next (hostFault s 9 w)) (BitVec.ofNat_toNat ..).symm
    · rw [configWrite_of_ge hl hv, finish_host_error hs, causeInfo_configError, BitVec.toNat_setWidth_of_le (by decide)]
      rfl
  · have hwrite {r : BankReg} := perform_config_write hs hl hv (r := r)
    exact ⟨hwrite (r := .t) (by decide), hwrite (r := .rf) (by decide), hwrite (r := .rp) (by decide),
      hwrite (r := .mdsrows) (by decide), hwrite (r := .mdscols) (by decide)⟩

end Machine

end Sys2Proof

/-! ## Words, images and the decoder -/

namespace Sys2Proof

/-! ### Bytes, most significant first (R50) -/

theorem length_bytesBE (n w : Nat) : (bytesBE n w).length = n := by simp [bytesBE]

/-- The last byte is the least significant one. -/
theorem bytesBE_succ (n w : Nat) : bytesBE (n + 1) w = bytesBE n (w / 256) ++ [BitVec.ofNat 8 w] := by
  have hfront : ∀ i ∈ List.range n, BitVec.ofNat 8 (w >>> (8 * (n + 1 - 1 - i))) =
      BitVec.ofNat 8 ((w / 256) >>> (8 * (n - 1 - i))) := by
    intro i hi
    have hi : i < n := List.mem_range.mp hi
    rw [show 8 * (n + 1 - 1 - i) = 8 + 8 * (n - 1 - i) by omega, Nat.shiftRight_add, Nat.shiftRight_eq_div_pow w 8]
  rw [bytesBE, List.range_succ, List.map_append, List.map_congr_left hfront, bytesBE]
  simp

theorem natOfBytesBE_append_singleton (l : List Byte) (b : Byte) :
    natOfBytesBE (l ++ [b]) = 256 * natOfBytesBE l + b.toNat := by
  simp [natOfBytesBE]

theorem natOfBytesBE_bytesBE (n w : Nat) : natOfBytesBE (bytesBE n w) = w % 2 ^ (8 * n) := by
  induction n generalizing w with
  | zero => exact (Nat.mod_one w).symm
  | succ n ih =>
    rw [bytesBE_succ, natOfBytesBE_append_singleton, ih, BitVec.toNat_ofNat, Nat.mul_succ, Nat.add_comm (8 * n), pow_add,
      Nat.mod_mul, Nat.add_comm]
    rfl

/-- The bytes of a word of `n` bytes spell the word. -/
theorem natOfBytesBE_toNat (n : Nat) (w : BitVec (8 * n)) : natOfBytesBE (bytesBE n w.toNat) = w.toNat := by
  rw [natOfBytesBE_bytesBE, Nat.mod_eq_of_lt w.isLt]

/-- The byte decoder on an image is the decoder on the word (R50, R60). -/
theorem decodeBytes_image (e : Encoded) : decodeBytes e.image = (decodeEncoded e).mapError .badWord := by
  cases e with
  | uop w =>
    have hw : natOfBytesBE (bytesBE 36 w.toNat) = w.toNat := natOfBytesBE_toNat 36 w
    rw [Encoded.image, decodeBytes, if_pos (length_bytesBE ..), hw, BitVec.ofNat_toNat, BitVec.setWidth_eq, decodeEncoded]
  | cmd w =>
    have hw : natOfBytesBE (bytesBE 4 w.toNat) = w.toNat := natOfBytesBE_toNat 4 w
    rw [Encoded.image, decodeBytes, if_neg (by simp [length_bytesBE]), if_pos (length_bytesBE ..), hw, BitVec.ofNat_toNat,
      decodeEncoded]

/-! ### The decoder on an encoding -/

/-- A command word written to `CMD`, zero-extended, is the command (R66). -/
theorem decodeCommand_of_decodeCmdWord {w : CmdWord} {i : Instr} (h : decodeCmdWord w = some i) :
    decodeCommand (w.setWidth 256) = .ok i := by
  have hw : (w.setWidth 256).toNat = w.toNat := BitVec.toNat_setWidth_of_le (by decide)
  have hback : (w.setWidth 256).setWidth 32 = w := BitVec.setWidth_setWidth_of_le w (by decide)
  rw [decodeCommand, hw, if_neg (Nat.not_le.mpr w.isLt), hback, h]

/-- A row whose mask covers the low byte matches only words with the row's `cop` (R66, R67). -/
theorem cop_of_row {len : BitVec 8} {u : Bool} {k : BankId} {cop : BitVec 8} {mask pattern : CmdWord}
    (hmask : mask.setWidth 8 = 0xFF) (h : formatC len u k cop &&& mask = pattern) : cop = pattern.setWidth 8 := by
  have hcop : (formatC len u k cop).setWidth 8 = cop := by
    apply BitVec.eq_of_getLsbD_eq
    intro i hi
    simp only [formatC, BitVec.getLsbD_setWidth, BitVec.getLsbD_append, hi, decide_true, Bool.true_and]
    simp (disch := omega) only [if_pos, if_true]
  calc cop = cop &&& BitVec.allOnes 8 := BitVec.and_allOnes.symm
    _ = (formatC len u k cop).setWidth 8 &&& mask.setWidth 8 := by rw [hcop, hmask]; rfl
    _ = pattern.setWidth 8 := by rw [← BitVec.setWidth_and, h]

theorem decodeCmdWord_permute (k : BankId) (u : Bool) (len : BitVec 8) :
    decodeCmdWord (formatC len u k 0x02) = some (.permute k u len) := by
  have hinit : ¬ formatC len u k 0x02 &&& 0xFFFFFEFF = 0x00000001 := fun h => absurd (cop_of_row (by decide) h) (by decide)
  have hrow : formatC len u k 0x02 &&& 0xFF00FCFF = 0x00000002 := Laws.Row.permute k u len
  rw [decodeCmdWord, if_neg hinit, if_pos hrow, cmdK_formatC, cmdU_formatC, cmdLen_formatC]

/-- The decoder gives back every well-formed instruction (R61, R63, R66, R67). -/
theorem decodeEncoded_encode {i : Instr} (h : i.wf = true) : decodeEncoded (encode i) = .ok i := by
  cases i with
  | fadd rd rs1 rs2 => simp [encode, decodeEncoded, decodeUop, uopRs2, regOf_regBits]
  | fmul rd rs1 rs2 => simp [encode, decodeEncoded, decodeUop, uopRs2, regOf_regBits]
  | faddi rd rs1 lit =>
    have hlit : ¬ Config.P ≤ lit.toNat := Nat.not_le.mpr (of_decide_eq_true h)
    simp [encode, decodeEncoded, decodeUop, hlit]
  | fmuli rd rs1 lit =>
    have hlit : ¬ Config.P ≤ lit.toNat := Nat.not_le.mpr (of_decide_eq_true h)
    simp [encode, decodeEncoded, decodeUop, hlit]
  | init k => exact decodeCommand_of_decodeCmdWord (by revert k; decide)
  | permute k u len => exact decodeCommand_of_decodeCmdWord (decodeCmdWord_permute k u len)
  | hash2 u => exact decodeCommand_of_decodeCmdWord (by cases u <;> decide)
  | hash4 u => exact decodeCommand_of_decodeCmdWord (by cases u <;> decide)
  | execProg k => exact decodeCommand_of_decodeCmdWord (by revert k; decide)
  | gen k => exact decodeCommand_of_decodeCmdWord (by revert k; decide)
  | clrerr => exact decodeCommand_of_decodeCmdWord (by decide)

theorem length_image (e : Encoded) : e.image.length = (match e with | .uop _ => 36 | .cmd _ => 4) := by
  cases e <;> exact length_bytesBE ..

/-- Settles O24: the bytes spell the word, and the word decodes to its instruction. -/
theorem imageRoundTrip : Obligations.ImageRoundTrip := by
  unfold Obligations.ImageRoundTrip
  intro i hi
  refine ⟨?_, length_image (encode i)⟩
  rw [decodeBytes_image, decodeEncoded_encode hi]
  rfl

end Sys2Proof

/-! ## The parameters and the locked banks under every step -/

namespace Sys2Proof

namespace Machine

/-- The parameters and every bank that is locked in `s` are the same in `t`. -/
structure KeepsLocked (s t : State) : Prop where
  params : t.params = s.params
  banks : ∀ k, (bankAt k s).lock = true → bankAt k t = bankAt k s

theorem keepsLocked_of_eq {s t : State} (hp : t.params = s.params) (h0 : t.bank0 = s.bank0) (h1 : t.bank1 = s.bank1) :
    KeepsLocked s t :=
  ⟨hp, fun k _ => bankAt_congr k h0 h1⟩

/-- A write of a bank that is not locked. -/
theorem keepsLocked_setBank {s : State} {k : BankId} (h : (bankAt k s).lock = false) (b : Bank) :
    KeepsLocked s (setBank k b s) := by
  refine ⟨setBank_params .., fun j hj => bankAt_setBank_other ?_ b s⟩
  rintro rfl
  exact absurd (h.symm.trans hj) Bool.false_ne_true

/-- A step of the engine writes no bank. -/
theorem EngineEffect.keepsLocked {s s' : State} (h : EngineEffect s s') : KeepsLocked s s' := by
  obtain rfl | ⟨c, rfl⟩ | ⟨l, s1, hl, he, hs'⟩ := h.shape
  · exact keepsLocked_of_eq rfl rfl rfl
  · exact keepsLocked_of_eq (by simp) (by simp) (by simp)
  · rw [hs', runList_frame hl he]
    exact keepsLocked_of_eq rfl rfl rfl

/-- Of the commands, `INIT` and `GEN` write a bank, and accept only an unlocked one (R127, R143). -/
theorem CommandEffect.keepsLocked {s s' : State} {i : Instr} (h : CommandEffect s i s') : KeepsLocked s s' := by
  cases h with
  | init k hl | gen k hl => exact keepsLocked_setBank hl _
  | permute | hash2 | hash4 | execProg | clrerr => exact keepsLocked_of_eq rfl rfl rfl

/-- A transaction keeps the locked banks, or is `Reset` (R58, R200). -/
theorem HostEffect.keepsLocked {s s' : State} {t : HostTxn} (h : HostEffect s t s') :
    KeepsLocked s s' ∨ t = .reset ∧ s' = resetCore s := by
  cases h with
  | reset => exact .inr ⟨rfl, rfl⟩
  | answered | dropped | literal | input | field => exact .inl (keepsLocked_of_eq rfl rfl rfl)
  | refused | raised => exact .inl (keepsLocked_of_eq (by simp) (by simp) (by simp))
  | bank _ _ _ _ hb => exact .inl (keepsLocked_setBank hb.unlocked _)
  | command _ _ _ _ _ hc => exact .inl hc.keepsLocked

theorem bankAt_resetCore (k : BankId) (s : State) : bankAt k (resetCore s) = Bank.reset := ite_self Bank.reset

/-- Settles O58: each kind of step keeps the locked banks, but for `Reset`. -/
theorem lockedBankIsImmutable : Obligations.LockedBankIsImmutable := by
  unfold Obligations.LockedBankIsImmutable
  intro k s t h
  cases step_effect h with
  | none => exact ⟨rfl, fun _ => .inl rfl⟩
  | engine _ _ he => exact ⟨he.keepsLocked.params, fun hl => .inl (he.keepsLocked.banks k hl)⟩
  | host txn others _ hp _ _ he =>
    obtain hkeeps | ⟨rfl, rfl⟩ := he.keepsLocked
    · exact ⟨hkeeps.params, fun hl => .inl (hkeeps.banks k hl)⟩
    · exact ⟨rfl, fun _ => .inr ⟨bankAt_resetCore k _, hp⟩⟩

end Machine

end Sys2Proof

/-! ## The engine and the host's list -/

namespace Sys2Proof

namespace Machine

/-! ### The engine neither reads nor changes what the host has yet to perform -/

/-- `s` with another list of what the host has yet to perform. -/
def withPending (l : List Pending) (s : State) : State := { s with pending := l }

/-- An outcome with `f` applied to the next state. -/
def mapNext (f : State → State) : Host.Outcome State Fault Refusal → Host.Outcome State Fault Refusal
  | .next s => .next (f s)
  | .fault r => .fault r
  | .refused r => .refused r

/-! #### The sequencer's step and the program's, case by case (R110, R113) -/

section
variable {s : State}

theorem loopStep_of_ended (hr : s.round = (bankAt s.ksel s).rounds) : loopStep s = .next (completeRun s) := if_pos hr

theorem loopStep_of_wrong_width (hr : s.round ≠ (bankAt s.ksel s).rounds)
    (hw : (bankAt s.ksel s).width ≠ widthOf s.ksel) : loopStep s = .fault .sequencerNotReachable :=
  (if_neg hr).trans (if_pos hw)

section
variable (hr : s.round ≠ (bankAt s.ksel s).rounds) (hw : (bankAt s.ksel s).width = widthOf s.ksel)
include hr hw

theorem loopStep_of_idle (hp : s.phase = .idle) : loopStep s = .fault .sequencerNotReachable := by
  simp [loopStep, hr, hw, hp]

theorem loopStep_of_arc (hp : s.phase = .arc) : loopStep s = finish .engine s (arcStep s) := by
  simp [loopStep, hr, hw, hp]

theorem loopStep_of_sbox (hp : s.phase = .sbox) : loopStep s = finish .engine s (sboxStepEffect s) := by
  simp [loopStep, hr, hw, hp]

theorem loopStep_of_mix (hp : s.phase = .mix) : loopStep s = finish .engine s (mixStep s) := by
  simp [loopStep, hr, hw, hp]

end

theorem unrolledStep_of_ended (h : s.upc.toNat = (bankAt s.ksel s).mem.pms.length) :
    unrolledStep s = .next (completeRun s) := if_pos h

section
variable (h : s.upc.toNat ≠ (bankAt s.ksel s).mem.pms.length)
include h

theorem unrolledStep_of_unfetched {c : Cause} (hf : fetchUop s = .error c) :
    unrolledStep s = finish .engine s (.error c) := by
  simp [unrolledStep, h, hf]

theorem unrolledStep_of_rejected {w : UopWord} {r : Reject} (hf : fetchUop s = .ok w) (hd : decodeUop w = .error r) :
    unrolledStep s = finish .engine s (.error (rejectCause r)) := by
  simp [unrolledStep, h, hf, hd]

theorem unrolledStep_of_decoded {w : UopWord} {i : Instr} (hf : fetchUop s = .ok w) (hd : decodeUop w = .ok i) :
    unrolledStep s = exec i s := by
  simp [unrolledStep, h, hf, hd]

end

end

section
variable (l : List Pending) (s : State)

@[simp] theorem bankAt_withPending (k : BankId) : bankAt k (withPending l s) = bankAt k s := rfl
@[simp] theorem readF_withPending (r : Reg) : readF r (withPending l s) = readF r s := rfl
@[simp] theorem withPending_busy : (withPending l s).busy = s.busy := rfl
@[simp] theorem withPending_ksel : (withPending l s).ksel = s.ksel := rfl
@[simp] theorem withPending_umode : (withPending l s).umode = s.umode := rfl
@[simp] theorem withPending_round : (withPending l s).round = s.round := rfl

theorem recordFault_withPending (c : Cause) (pc : BitVec 32) :
    recordFault c pc (withPending l s) = withPending l (recordFault c pc s) := by
  by_cases h : s.ecause = 0
  · rw [recordFault_of_empty h, recordFault_of_empty (s := withPending l s) h]; rfl
  · rw [recordFault_of_faulted h, recordFault_of_faulted (s := withPending l s) h]

theorem raiseFault_withPending (o : Origin) (c : Cause) :
    raiseFault o c (withPending l s) = withPending l (raiseFault o c s) := by
  cases o with
  | engine => rw [raiseFault, recordFault_withPending]; rfl
  | host => exact recordFault_withPending l s c 0

theorem finish_withPending (o : Origin) (r : Except Cause State) :
    finish o (withPending l s) (r.map (withPending l)) = mapNext (withPending l) (finish o s r) := by
  cases r with
  | ok s' => rfl
  | error c => exact congrArg _ (raiseFault_withPending l s o c)

theorem effect_microOp_withPending {i : Instr} (hi : isMicroOp i = true) :
    effect i (withPending l s) = (effect i s).map (withPending l) := by
  cases i with
  | fadd rd rs1 rs2 | fmul rd rs1 rs2 =>
    simp only [effect, faddEffect, fmulEffect, readF_withPending]
    cases readF rs1 s <;> cases readF rs2 s <;> rfl
  | faddi rd rs1 lit | fmuli rd rs1 lit =>
    simp only [effect, faddiEffect, fmuliEffect, readF_withPending]
    cases literal lit <;> cases readF rs1 s <;> rfl
  | _ => cases hi

theorem runList_withPending {is : List Instr} (h : ∀ i ∈ is, isMicroOp i = true) :
    runList is (withPending l s) = (runList is s).map (withPending l) := by
  induction is generalizing s with
  | nil => rfl
  | cons i is ih =>
    rw [runList, runList, effect_microOp_withPending l s (h i (List.mem_cons_self ..))]
    cases effect i s with
    | error c => rfl
    | ok s' => exact ih s' fun j hj => h j (List.mem_cons_of_mem _ hj)

theorem arcStep_withPending : arcStep (withPending l s) = (arcStep s).map (withPending l) := by
  simp only [arcStep, bankAt_withPending, withPending_ksel, withPending_round,
    runList_withPending l s (arcTemplate_microOps _ _)]
  cases outOfStore .rcs s.ksel _ _ with
  | some c => rfl
  | none => cases runList _ s <;> rfl

theorem sboxStepEffect_withPending : sboxStepEffect (withPending l s) = (sboxStepEffect s).map (withPending l) := by
  simp only [sboxStepEffect, bankAt_withPending, withPending_ksel, withPending_round,
    runList_withPending l s (sboxStep_microOps _ _)]
  cases runList _ s <;> rfl

theorem mixStep_withPending : mixStep (withPending l s) = (mixStep s).map (withPending l) := by
  simp only [mixStep, bankAt_withPending, withPending_ksel, runList_withPending l s (mixTemplate_microOps _ _)]
  cases outOfStore .mdss s.ksel _ _ with
  | some c => rfl
  | none => cases runList _ s <;> rfl

theorem loopStep_withPending : loopStep (withPending l s) = mapNext (withPending l) (loopStep s) := by
  by_cases hr : s.round = (bankAt s.ksel s).rounds
  · rw [loopStep_of_ended hr, loopStep_of_ended (s := withPending l s) hr]; rfl
  by_cases hw : (bankAt s.ksel s).width = widthOf s.ksel
  · cases hp : s.phase with
    | idle => rw [loopStep_of_idle hr hw hp, loopStep_of_idle (s := withPending l s) hr hw hp]; rfl
    | arc =>
      rw [loopStep_of_arc hr hw hp, loopStep_of_arc (s := withPending l s) hr hw hp, arcStep_withPending,
        finish_withPending]
    | sbox =>
      rw [loopStep_of_sbox hr hw hp, loopStep_of_sbox (s := withPending l s) hr hw hp, sboxStepEffect_withPending,
        finish_withPending]
    | mix =>
      rw [loopStep_of_mix hr hw hp, loopStep_of_mix (s := withPending l s) hr hw hp, mixStep_withPending,
        finish_withPending]
  · rw [loopStep_of_wrong_width hr hw, loopStep_of_wrong_width (s := withPending l s) hr hw]; rfl

theorem unrolledStep_withPending : unrolledStep (withPending l s) = mapNext (withPending l) (unrolledStep s) := by
  by_cases h : s.upc.toNat = (bankAt s.ksel s).mem.pms.length
  · rw [unrolledStep_of_ended h, unrolledStep_of_ended (s := withPending l s) h]; rfl
  cases hf : fetchUop s with
  | error c =>
    rw [unrolledStep_of_unfetched h hf, unrolledStep_of_unfetched (s := withPending l s) h hf]
    exact finish_withPending l s .engine (.error c)
  | ok w =>
    cases hd : decodeUop w with
    | error r =>
      rw [unrolledStep_of_rejected h hf hd, unrolledStep_of_rejected (s := withPending l s) h hf hd]
      exact finish_withPending l s .engine (.error (rejectCause r))
    | ok i =>
      rw [unrolledStep_of_decoded h hf hd, unrolledStep_of_decoded (s := withPending l s) h hf hd, exec_eq_finish,
        exec_eq_finish, effect_microOp_withPending l s (decodeUop_isMicroOp hd), finish_withPending]

/-- A step of the engine is the step it would take with another list, and leaves the list as it is. -/
theorem engineStep_withPending : engineStep (withPending l s) = mapNext (withPending l) (engineStep s) := by
  rw [engineStep, engineStep, withPending_umode]
  cases s.umode with
  | true => exact unrolledStep_withPending l s
  | false => exact loopStep_withPending l s

end

theorem EngineEffect.pending_reply {s s' : State} (h : EngineEffect s s') :
    s'.pending = s.pending ∧ s'.reply = s.reply := by
  obtain rfl | ⟨c, rfl⟩ | ⟨l, s1, hl, he, hs'⟩ := h.shape
  · exact ⟨rfl, rfl⟩
  · exact ⟨raiseFault_pending .., raiseFault_reply ..⟩
  · rw [hs', runList_frame hl he]
    exact ⟨rfl, rfl⟩

/-! ### What a busy core holds (R40) -/

theorem statusGroup_iff (n : BitVec 8) : statusGroup n = true ↔ n ∈ statusNumbers := by
  revert n
  decide +kernel

theorem enabledWhileBusy_cases {t : HostTxn} (h : enabledWhileBusy t = true) :
    t = .reset ∨ ∃ n ∈ statusNumbers, t = .csrRead n ∨ t = .busRead (n.setWidth 32) := by
  cases t with
  | reset => exact .inl rfl
  | csrRead n => exact .inr ⟨n, (statusGroup_iff n).mp h, .inl rfl⟩
  | busRead a =>
    simp only [enabledWhileBusy] at h
    split at h
    · rename_i n hn
      exact .inr ⟨n, (statusGroup_iff n).mp h, .inr (congrArg _ (busTarget_csr hn))⟩
    · cases h
  | _ => cases h

theorem takeDue_eq_none {l : List Pending} (h : ∀ p ∈ l, enabledWhileBusy p.txn = false) : takeDue l = none := by
  cases ht : takeDue l with
  | none => rfl
  | some r =>
    obtain ⟨henabled, p, hp, htxn⟩ := takeDue_some ht
    rw [← htxn, h p hp] at henabled
    cases henabled

/-- A busy core that holds every transaction takes the engine's step, and the host waits one engine step less. -/
theorem step_of_held {l : List Pending} {s : State} (hb : s.busy = true)
    (h : ∀ p ∈ l, enabledWhileBusy p.txn = false) :
    step (withPending l s) = mapNext (withPending (tick l)) (engineStep s) := by
  have htake : takeDue (withPending l s).pending = none := takeDue_eq_none h
  rw [step, withPending_busy, if_pos hb, busyStep, htake]
  exact engineStep_withPending (tick l) s

theorem map_txn_tick (l : List Pending) : (tick l).map Pending.txn = l.map Pending.txn := by
  rw [tick, List.map_map]
  rfl

/-- A due transaction at the head of the list that a busy core performs. -/
theorem step_of_due {s : State} {t : HostTxn} {rest : List Pending} (hb : s.busy = true)
    (hp : s.pending = { delay := 0, txn := t } :: rest) (ht : enabledWhileBusy t = true) :
    step s = perform t { s with pending := rest } := by
  have htake : takeDue s.pending = some (t, rest) := by rw [hp, takeDue, if_pos ⟨rfl, ht⟩]
  rw [step, if_pos hb, busyStep, htake]

/-- Settles O30: a core that holds the whole list takes the engine's step, which the list has no part in; a due read of the
status group is performed. -/
theorem busyCoreHoldsTransactions : Obligations.BusyCoreHoldsTransactions := by
  unfold Obligations.BusyCoreHoldsTransactions
  refine ⟨fun s t hb hheld hs => ?_, fun n rest s hb hn hp => ?_⟩
  · have hdisabled : ∀ p ∈ s.pending, enabledWhileBusy p.txn = false := by
      intro p hp
      by_contra henabled
      obtain ⟨hreset, hread⟩ := hheld p hp
      obtain ht | ⟨n, hn, ht | ht⟩ := enabledWhileBusy_cases (Bool.eq_true_of_not_eq_false henabled)
      · exact hreset ht
      · exact (hread n hn).1 ht
      · exact (hread n hn).2 ht
    have hwith : step s = mapNext (withPending (tick s.pending)) (engineStep s) := step_of_held hb hdisabled
    have hwithout : step { s with pending := [] } = mapNext (withPending []) (engineStep s) :=
      step_of_held hb (List.forall_mem_nil _)
    rw [hwith] at hs
    rw [hwithout]
    cases he : engineStep s with
    | next s' =>
      rw [he] at hs
      cases hs
      exact ⟨map_txn_tick _, (engineStep_effect he).pending_reply.2, rfl⟩
    | fault r => rw [he] at hs; cases hs
    | refused r => rw [he] at hs; cases hs
  · have hgroup := (statusGroup_iff n).mpr hn
    obtain ⟨v, hv⟩ := csrRead_statusGroup hgroup s
    refine ⟨v, hv, ?_⟩
    rw [step_of_due hb hp hgroup, perform, csrRead_pending, hv]
    rfl

end Machine

end Sys2Proof

/-! ## The stores: pushes, table reads and the bus map -/

namespace Sys2Proof

namespace Machine

/-! ### Pushes to the two tables (R44, R45) -/

/-- A push to one of the two tables of bank `k`, which holds `len` of at most `cap` entries. -/
def tablePush (k : BankId) (mdsTable : Bool) (len cap : Nat) (put : Fe → Memory → Memory) (n : BitVec 8) (v : Word)
    (s : State) : Except Cause State :=
  if (bankAt k s).lock then .error (.lockedWrite n)
  else match tableEntry k mdsTable len v with
    | .error c => .error c
    | .ok x =>
      if cap ≤ len then .error (.badIndex n.toNat)
      else .ok (setBank k { bankAt k s with mem := put x (bankAt k s).mem } s)

theorem rcPush_eq (k : BankId) (n : BitVec 8) (v : Word) (s : State) : rcPush k n v s =
    tablePush k false (bankAt k s).mem.rcs.length s.params.rcCap Memory.pushRc n v s := rfl

theorem mdsPush_eq (k : BankId) (n : BitVec 8) (v : Word) (s : State) : mdsPush k n v s =
    tablePush k true (bankAt k s).mem.mdss.length s.params.mdsCap Memory.pushMds n v s := rfl

section
variable {k : BankId} {m : Bool} {len cap : Nat} {put : Fe → Memory → Memory} {n : BitVec 8} {v : Word} {s : State}

theorem tablePush_of_locked (hl : (bankAt k s).lock = true) :
    tablePush k m len cap put n v s = .error (.lockedWrite n) := if_pos hl

theorem tablePush_of_ge (hl : (bankAt k s).lock = false) (hv : Config.P ≤ v.toNat) :
    tablePush k m len cap put n v s = .error (.configError .entryRange k m (BitVec.ofNat 32 len)) := by
  simp [tablePush, hl, tableEntry, Nat.not_lt.mpr hv]

theorem tablePush_of_full (hl : (bankAt k s).lock = false) (hv : v.toNat < Config.P) (hc : cap ≤ len) :
    tablePush k m len cap put n v s = .error (.badIndex n.toNat) := by
  simp [tablePush, hl, tableEntry_of_lt k m len hv, hc]

theorem tablePush_of_room (hl : (bankAt k s).lock = false) (hv : v.toNat < Config.P) (hc : len < cap) :
    tablePush k m len cap put n v s =
      .ok (setBank k { bankAt k s with mem := put ⟨v.toNat, hv⟩ (bankAt k s).mem } s) := by
  simp [tablePush, hl, tableEntry_of_lt k m len hv, Nat.not_le.mpr hc]

end

theorem perform_rcPush {s : State} (h : s.ecause = 0) (k : BankId) (v : Word) :
    perform (.csrWrite (bankCsr k 0xA) v) s = finish .host s
      (tablePush k false (bankAt k s).mem.rcs.length s.params.rcCap Memory.pushRc (bankCsr k 0xA) v s) :=
  perform_csrWrite_bankCsr h k .rcpush v

theorem perform_mdsPush {s : State} (h : s.ecause = 0) (k : BankId) (v : Word) :
    perform (.csrWrite (bankCsr k 0xB) v) s = finish .host s
      (tablePush k true (bankAt k s).mem.mdss.length s.params.mdsCap Memory.pushMds (bankCsr k 0xB) v s) :=
  perform_csrWrite_bankCsr h k .mdspush v

/-- `LockedWrite` with the number of the register (R179). -/
theorem finish_lockedWrite {s : State} (h : s.ecause = 0) (n : BitVec 8) :
    finish .host s (.error (.lockedWrite n)) = .next (hostFault s 9 (BitVec.ofNat 256 n.toNat)) := by
  rw [finish_host_error h, BitVec.ofNat_toNat]
  rfl

/-- `BadIndex` with a number or an address (R178). -/
theorem finish_badIndex {s : State} (h : s.ecause = 0) (a : Nat) :
    finish .host s (.error (.badIndex a)) = .next (hostFault s 8 (BitVec.ofNat 256 a)) :=
  finish_host_error h _

/-- `ConfigError` reason 5 with the store and its length (R172). -/
theorem finish_entryRange {s : State} (h : s.ecause = 0) (k : BankId) (m : Bool) {len : Nat} (hlen : len < 2 ^ 32) :
    finish .host s (.error (.configError .entryRange k m (BitVec.ofNat 32 len))) =
      .next (hostFault s 2 (reasonWord 5 k.val m.toNat len)) := by
  rw [finish_host_error h, causeInfo_configError, BitVec.toNat_ofNat, Nat.mod_eq_of_lt hlen]
  rfl

/-- Settles O40: the lock, then the range, then the capacity, for either table. -/
theorem tablePushes : Obligations.TablePushes := by
  unfold Obligations.TablePushes
  intro k v s hs
  refine ⟨fun hl o ho => ?_, fun hl hv => ⟨fun hlen => ?_, fun hlen => ?_⟩,
    fun hl hv => ⟨fun hc => ?_, fun hc => ?_, fun hc => ?_, fun hc => ?_⟩⟩
  · simp only [List.mem_cons, List.not_mem_nil, or_false] at ho
    obtain rfl | rfl := ho
    · rw [perform_rcPush hs, tablePush_of_locked hl, finish_lockedWrite hs]
    · rw [perform_mdsPush hs, tablePush_of_locked hl, finish_lockedWrite hs]
  · rw [perform_rcPush hs, tablePush_of_ge hl hv, finish_entryRange hs k false hlen]; rfl
  · rw [perform_mdsPush hs, tablePush_of_ge hl hv, finish_entryRange hs k true hlen]; rfl
  · rw [perform_rcPush hs, tablePush_of_full hl hv hc.ge, finish_badIndex hs]
  · rw [perform_mdsPush hs, tablePush_of_full hl hv hc.ge, finish_badIndex hs]
  · rw [perform_rcPush hs, tablePush_of_room hl hv hc]; rfl
  · rw [perform_mdsPush hs, tablePush_of_room hl hv hc]; rfl

/-! ### `PMLIT` and pushes to the program store (R46, R22) -/

theorem append_eq_ofNat {m n : Nat} (x : BitVec m) (y : BitVec n) :
    x ++ y = BitVec.ofNat (m + n) (x.toNat * 2 ^ n + y.toNat) := by
  rw [Nat.mul_comm, ← toNat_append_eq_add, BitVec.ofNat_toNat, BitVec.setWidth_eq]

section
variable {k : BankId} {n : BitVec 8} {v : Word} {s : State}

theorem pmPush_of_locked (hl : (bankAt k s).lock = true) : pmPush k n v s = .error (.lockedWrite n) := if_pos hl

theorem pmPush_of_refused (hl : (bankAt k s).lock = false)
    (h : 2 ^ 32 ≤ v.toNat ∨ s.params.pmCap ≤ (bankAt k s).mem.pms.length) :
    pmPush k n v s = .error (.badIndex n.toNat) := by
  refine (if_neg (by simp [hl])).trans ?_
  by_cases hv : 2 ^ 32 ≤ v.toNat
  · exact if_pos hv
  · exact (if_neg hv).trans (if_pos (h.resolve_left hv))

theorem pmPush_of_room (hl : (bankAt k s).lock = false) (hv : v.toNat < 2 ^ 32)
    (hc : (bankAt k s).mem.pms.length < s.params.pmCap) : pmPush k n v s =
      .ok (setBank k { bankAt k s with mem := (bankAt k s).mem.pushProg (v.setWidth 32 ++ s.pmlit) } s) :=
  (if_neg (by simp [hl])).trans ((if_neg (Nat.not_le.mpr hv)).trans (if_neg (Nat.not_le.mpr hc)))

end

theorem perform_pmPush {s : State} (h : s.ecause = 0) (k : BankId) (v : Word) :
    perform (.csrWrite (bankCsr k 0xC) v) s = finish .host s (pmPush k (bankCsr k 0xC) v s) :=
  perform_csrWrite_bankCsr h k .pmpush v

theorem perform_pmlit_write {s : State} (h : s.ecause = 0) (v : Word) :
    perform (.csrWrite 0x0B v) s = .next { s with pmlit := v } := by
  have hput : csrWrite 0x0B v s = hostWrite (fun s => .ok { s with pmlit := v }) s := rfl
  rw [perform, hput, hostWrite, if_neg (by simp [faulted, h]), finish_ok]

/-- Settles O41: the register by the map; the push by the lock, the range and the capacity. -/
theorem programPush : Obligations.ProgramPush := by
  unfold Obligations.ProgramPush
  refine ⟨⟨rfl, fun s => rfl⟩, fun k v s hs =>
    ⟨perform_pmlit_write hs v, fun hl => ?_, fun hl h => ?_, fun hl hv hc => ?_⟩⟩
  · rw [perform_pmPush hs, pmPush_of_locked hl, finish_lockedWrite hs]
  · rw [perform_pmPush hs, pmPush_of_refused hl (h.imp_right Eq.ge), finish_badIndex hs]
  · have hctl : (v.setWidth 32).toNat = v.toNat := by rw [BitVec.toNat_setWidth, Nat.mod_eq_of_lt hv]
    rw [perform_pmPush hs, pmPush_of_room hl hv hc, append_eq_ofNat, hctl]
    rfl

/-! ### Table reads (R48) -/

theorem storeRead_of_some {α : Type} {l : List α} {idx : Nat} {x : α} (h : l[idx]? = some x) (a : Nat) :
    storeRead l a idx = .ok x := by
  simp [storeRead, h]

theorem storeRead_of_ge {α : Type} {l : List α} {idx : Nat} (h : l.length ≤ idx) (a : Nat) :
    storeRead l a idx = .error (.badIndex a) := by
  simp [storeRead, List.getElem?_eq_none h]

/-- The bus address of an entry fits the information word (R49). -/
theorem toNat_tabAddress (sp : Space) (k : BankId) {idx : Nat} (h : idx < 2 ^ 22) :
    (BitVec.ofNat 256 (tabAddress sp k idx)).toNat = tabAddress sp k idx := by
  have hk := k.isLt
  rw [BitVec.toNat_ofNat]
  refine Nat.mod_eq_of_lt (Nat.lt_of_lt_of_le (m := 2 ^ 26) ?_ (by decide))
  cases sp <;> simp only [tabAddress, busBase] <;> omega

section
variable {sp : Space} {k : BankId} {idx : Nat} {s : State}

theorem perform_tabRead_of_ok {r : Reply} (h : tabRead sp k idx s = .ok r) :
    perform (.tabRead sp k idx) s = .next { s with reply := some r } := by
  rw [perform, h, answerRead_ok]

theorem perform_tabRead_of_badIndex {a : Nat} (h : tabRead sp k idx s = .error (.badIndex a)) :
    perform (.tabRead sp k idx) s =
      .next { ifUnfaulted s (hostFault s 8 (BitVec.ofNat 256 a)) with reply := some (tabZero sp) } := by
  rw [perform, h, answerRead_error]
  rfl

end

/-- Settles O42: each store's read is one of the two answers of `storeRead`. -/
theorem tableReads : Obligations.TableReads := by
  unfold Obligations.TableReads
  intro k idx s
  refine ⟨fun x h => ?_, fun x h => ?_, fun w h => ?_, fun h => ?_, fun h => ?_, fun h => ?_⟩
  · exact perform_tabRead_of_ok (r := .word (feWord x)) (by rw [tabRead, storeRead_of_some h]; rfl)
  · exact perform_tabRead_of_ok (r := .word (feWord x)) (by rw [tabRead, storeRead_of_some h]; rfl)
  · exact perform_tabRead_of_ok (by rw [tabRead, storeRead_of_some h]; rfl)
  · exact ⟨_, toNat_tabAddress .rcs k, perform_tabRead_of_badIndex (by rw [tabRead, storeRead_of_ge h]; rfl)⟩
  · exact ⟨_, toNat_tabAddress .mdss k, perform_tabRead_of_badIndex (by rw [tabRead, storeRead_of_ge h]; rfl)⟩
  · exact ⟨_, toNat_tabAddress .pms k, perform_tabRead_of_badIndex (by rw [tabRead, storeRead_of_ge h]; rfl)⟩

end Machine

end Sys2Proof

/-! ## The bus map (R49) -/

namespace Sys2Proof

namespace Machine

/-! ### What an address selects -/

theorem busTarget_of_csr {a : BitVec 32} {n : BitVec 8} (h : a.toNat = n.toNat) : busTarget a = .csr n := by
  have hn : a.setWidth 8 = n := BitVec.eq_of_toNat_eq (by rw [BitVec.toNat_setWidth, h, Nat.mod_eq_of_lt n.isLt])
  rw [busTarget, if_pos (h ▸ n.isLt), hn]

theorem busTarget_of_freg {a : BitVec 32} {i : Reg} (h : a.toNat = 0x100 + i.val) : busTarget a = .freg i := by
  have hi := i.isLt
  have hreg : regOf (a.setWidth 4) = i := by
    refine Fin.ext ((BitVec.toNat_setWidth 4 a).trans ?_)
    omega
  rw [busTarget, if_neg (by omega), if_pos (by omega), hreg]

/-- The windows of bank `k` are the 2^24 addresses from `B(k)` on. -/
theorem busTarget_of_window {a : BitVec 32} {k : BankId} {o : Nat} (ho : o < 0x1000000)
    (h : a.toNat = 0x01000000 * (k.val + 1) + o) : busTarget a = bankWindow k o := by
  have h0 : busBase 0 = 0x01000000 := rfl
  have h1 : busBase 1 = 0x02000000 := rfl
  rcases bankId_cases k with rfl | rfl
  · replace h : a.toNat = 0x01000000 + o := h
    rw [busTarget, if_neg (by omega), if_neg (by omega), if_pos (by omega)]
    exact congrArg _ (by omega)
  · replace h : a.toNat = 0x02000000 + o := h
    rw [busTarget, if_neg (by omega), if_neg (by omega), if_neg (by omega), if_pos (by omega)]
    exact congrArg _ (by omega)

theorem busTarget_of_unmapped {a : BitVec 32}
    (h : 0x110 ≤ a.toNat ∧ a.toNat < 0x01000000 ∨ 0x03000000 ≤ a.toNat) : busTarget a = .unmapped := by
  have h0 : busBase 0 = 0x01000000 := rfl
  have h1 : busBase 1 = 0x02000000 := rfl
  rw [busTarget, if_neg (by omega), if_neg (by omega), if_neg (by omega), if_neg (by omega)]

section
variable {a : BitVec 32} {k : BankId} {idx : Nat} (h : idx < 2 ^ 22)
include h

theorem busTarget_of_rcs (ha : a.toNat = 0x01000000 * (k.val + 1) + idx) : busTarget a = .rcs k idx := by
  rw [busTarget_of_window (by omega) ha, bankWindow, if_pos (by omega)]

theorem busTarget_of_mdss (ha : a.toNat = 0x01000000 * (k.val + 1) + 0x400000 + idx) : busTarget a = .mdss k idx := by
  rw [busTarget_of_window (by omega) (ha.trans (Nat.add_assoc ..)), bankWindow, if_neg (by omega), if_pos (by omega),
    Nat.add_sub_cancel_left]

theorem busTarget_of_pmsCtl (ha : a.toNat = 0x01000000 * (k.val + 1) + 0x800000 + 2 * idx) :
    busTarget a = .pmsCtl k idx := by
  rw [busTarget_of_window (by omega) (ha.trans (Nat.add_assoc ..)), bankWindow, if_neg (by omega), if_neg (by omega),
    if_pos (by omega)]
  exact congrArg _ (by omega)

theorem busTarget_of_pmsLit (ha : a.toNat = 0x01000000 * (k.val + 1) + 0x800000 + 2 * idx + 1) :
    busTarget a = .pmsLit k idx := by
  rw [busTarget_of_window (k := k) (o := 0x800000 + (2 * idx + 1)) (by omega) (by omega), bankWindow, if_neg (by omega),
    if_neg (by omega), if_neg (by omega)]
  exact congrArg _ (by omega)

end

/-- Only the numbers below 0x110 select a register that can be written over the bus. -/
theorem lt_of_busTarget_freg {a : BitVec 32} {i : Reg} (h : busTarget a = .freg i) : a.toNat < 0x110 := by
  have hw : ∀ k o, bankWindow k o ≠ .freg i := by
    intro k o
    unfold bankWindow
    split_ifs <;> simp
  unfold busTarget at h
  split_ifs at h with h1 h2 h3 h4
  · exact h2
  · exact absurd h (hw _ _)
  · exact absurd h (hw _ _)

theorem busWrite_of_ge {a : BitVec 32} (h : 0x110 ≤ a.toNat) (v : Word) (s : State) :
    busWrite a v s = hostWrite (fun _ => .error (.badIndex a.toNat)) s := by
  unfold busWrite
  split
  · rename_i n hn
    have hlt : a.toNat < 0x100 := by
      rw [busTarget_csr hn, BitVec.toNat_setWidth_of_le (by decide)]
      exact n.isLt
    omega
  · exact absurd (lt_of_busTarget_freg ‹_›) (Nat.not_lt.mpr h)
  · rfl

/-! ### The halves of a program word -/

theorem uopCtl_eq (w : UopWord) : (uopCtl w).setWidth 256 = BitVec.ofNat 256 (w.toNat / 2 ^ 256) := by
  have hlt : w.toNat / 2 ^ 256 < 2 ^ 32 := Nat.div_lt_of_lt_mul (by simpa only [← pow_add, Nat.reduceAdd] using w.isLt)
  rw [← BitVec.ofNat_toNat, uopCtl, BitVec.extractLsb'_toNat, Nat.shiftRight_eq_div_pow, Nat.mod_eq_of_lt hlt]

theorem uopLit_eq (w : UopWord) : uopLit w = BitVec.ofNat 256 (w.toNat % 2 ^ 256) := by
  apply BitVec.eq_of_toNat_eq
  rw [uopLit, BitVec.extractLsb'_toNat, Nat.shiftRight_zero, BitVec.toNat_ofNat, Nat.mod_mod]

/-! ### Reads over the bus, by what the address selects -/

section
variable {a : BitVec 32} {k : BankId} {idx : Nat}

theorem busRead_of_rcs (h : busTarget a = .rcs k idx) (s : State) :
    busRead a s = (storeRead (bankAt k s).mem.rcs a.toNat idx).map feWord := by
  rw [busRead, h]

theorem busRead_of_mdss (h : busTarget a = .mdss k idx) (s : State) :
    busRead a s = (storeRead (bankAt k s).mem.mdss a.toNat idx).map feWord := by
  rw [busRead, h]

theorem busRead_of_pmsCtl (h : busTarget a = .pmsCtl k idx) (s : State) : busRead a s =
    (storeRead (bankAt k s).mem.pms a.toNat idx).map fun w => BitVec.ofNat 256 (w.toNat / 2 ^ 256) := by
  simp only [busRead, h, uopCtl_eq]

theorem busRead_of_pmsLit (h : busTarget a = .pmsLit k idx) (s : State) : busRead a s =
    (storeRead (bankAt k s).mem.pms a.toNat idx).map fun w => BitVec.ofNat 256 (w.toNat % 2 ^ 256) := by
  rw [busRead, h, funext uopLit_eq]

end

/-- A table read over the bus is `TabRead` when the address is the entry's. -/

theorem perform_busRead_table {a : BitVec 32} {sp : Space} {k : BankId} {idx : Nat} {l : List Fe} {s : State}
    (hbus : busRead a s = (storeRead l (tabAddress sp k idx) idx).map feWord) (hzero : tabZero sp = .word 0)
    (htab : tabRead sp k idx s = (storeRead l (tabAddress sp k idx) idx).map fun x => .word (feWord x)) :
    perform (.busRead a) s = perform (.tabRead sp k idx) s := by
  rw [perform, perform, hbus, htab, hzero]
  cases storeRead l (tabAddress sp k idx) idx <;> rfl

/-- Settles O43: each clause names what its address selects. -/
theorem busMapSelects : Obligations.BusMapSelects := by
  unfold Obligations.BusMapSelects
  intro a v s
  refine ⟨fun n ha => ?_, fun i ha => ?_, fun k idx hidx =>
    ⟨fun ha => ?_, fun ha => ?_, fun ha w hw => ?_, fun ha w hw => ?_, fun ha hlen => ?_⟩, fun ha hs => ?_, fun ha hs => ?_⟩
  · have ht := busTarget_of_csr ha
    exact ⟨by simp only [perform, busRead, ht], by simp only [perform, busWrite, ht]⟩
  · have ht := busTarget_of_freg ha
    exact ⟨by simp only [perform, busRead, ht], by simp only [perform, busWrite, ht]⟩
  · exact perform_busRead_table (by rw [busRead_of_rcs (busTarget_of_rcs hidx ha), ha]; rfl) rfl rfl
  · exact perform_busRead_table (by rw [busRead_of_mdss (busTarget_of_mdss hidx ha), ha]; rfl) rfl rfl
  · rw [busRead_of_pmsCtl (busTarget_of_pmsCtl hidx ha), storeRead_of_some hw]; rfl
  · rw [busRead_of_pmsLit (busTarget_of_pmsLit hidx ha), storeRead_of_some hw]; rfl
  · obtain ha | ha := ha
    · rw [busRead_of_pmsCtl (busTarget_of_pmsCtl hidx ha), storeRead_of_ge hlen]; rfl
    · rw [busRead_of_pmsLit (busTarget_of_pmsLit hidx ha), storeRead_of_ge hlen]; rfl
  · rw [perform, busWrite_of_ge ha, hostWrite, if_neg (by simp [faulted, hs]), finish_badIndex hs]
  · have hread : busRead a s = .error (.badIndex a.toNat) := by rw [busRead, busTarget_of_unmapped ha]
    rw [perform, hread]
    refine (congrArg _ (answerRead_error ..)).trans ?_
    rw [ifUnfaulted, if_pos hs]
    rfl

end Machine

end Sys2Proof

/-! ## Each word has one meaning -/

namespace Sys2Proof

/-! ### Micro-op words: the tests of the decode order (R65) -/

/-- Tests 1 to 3 of R65: an undefined opcode, reserved bits, or a nonzero field that the opcode does not use. -/
def IllegalUop (w : UopWord) : Prop :=
  (uopOp w).toNat ∉ [1, 2, 3, 4] ∨ uopRes w ≠ 0 ∨ ((uopOp w).toNat ∈ [1, 3] ∧ uopLit w ≠ 0) ∨
    ((uopOp w).toNat ∈ [2, 4] ∧ uopRs2 w ≠ 0)

theorem uopOp_toNat_eq {w : UopWord} {n : Nat} (hn : n < 2 ^ 8) : (uopOp w).toNat = n ↔ uopOp w = BitVec.ofNat 8 n := by
  rw [← BitVec.toNat_inj, BitVec.toNat_ofNat, Nat.mod_eq_of_lt hn]

theorem uopRs2_eq_zero {w : UopWord} : uopRs2 w = 0 ↔ uopRs2Bits w = 0 := by
  rw [uopRs2, ← BitVec.toNat_inj, ← Fin.val_inj]
  rfl

theorem decodeUop_of_illegal {w : UopWord} (h : IllegalUop w) : decodeUop w = .error (.illegalUop (uopCtl w)) := by
  simp only [IllegalUop, List.mem_cons, List.not_mem_nil, or_false, not_or, uopOp_toNat_eq, Nat.reduceLT, Nat.reducePow,
    ne_eq, uopRs2_eq_zero, BitVec.ofNat_eq_ofNat] at h
  obtain hop | hres | ⟨hop, hlit⟩ | ⟨hop, hrs2⟩ := h
  · simp [decodeUop, hop]
  · simp [decodeUop, hres]
  · simp [decodeUop, hop, hlit]
  · simp [decodeUop, hop, hrs2]

section
variable {w : UopWord} (h : ¬ IllegalUop w)
include h

theorem uopOp_of_legal : (uopOp w).toNat = 1 ∨ (uopOp w).toNat = 2 ∨ (uopOp w).toNat = 3 ∨ (uopOp w).toNat = 4 := by
  by_contra hop
  exact h (.inl (by simpa using hop))

theorem uopRes_of_legal : uopRes w = 0 := by
  by_contra hres
  exact h (.inr (.inl hres))

theorem uopLit_of_legal (hop : (uopOp w).toNat ∈ [1, 3]) : uopLit w = 0 := by
  by_contra hlit
  exact h (.inr (.inr (.inl ⟨hop, hlit⟩)))

theorem uopRs2Bits_of_legal (hop : (uopOp w).toNat ∈ [2, 4]) : uopRs2Bits w = 0 := by
  by_contra hrs2
  exact h (.inr (.inr (.inr ⟨hop, mt uopRs2_eq_zero.mp hrs2⟩)))

theorem decodeUop_of_large_literal (hop : (uopOp w).toNat ∈ [2, 4]) (hlit : Config.P ≤ (uopLit w).toNat) :
    decodeUop w = .error (.illegalLiteral (uopLit w)) := by
  have hrs2 := uopRs2Bits_of_legal h hop
  simp only [List.mem_cons, List.not_mem_nil, or_false, uopOp_toNat_eq, Nat.reduceLT, Nat.reducePow] at hop
  obtain hop | hop := hop <;> simp [decodeUop, hop, uopRes_of_legal h, hrs2, hlit]

theorem decodeUop_of_fadd (hop : (uopOp w).toNat = 1) : decodeUop w = .ok (.fadd (uopRd w) (uopRs1 w) (uopRs2 w)) := by
  have hlit := uopLit_of_legal h (by simp [hop])
  simp [decodeUop, (uopOp_toNat_eq (by decide)).mp hop, uopRes_of_legal h, hlit]

theorem decodeUop_of_fmul (hop : (uopOp w).toNat = 3) : decodeUop w = .ok (.fmul (uopRd w) (uopRs1 w) (uopRs2 w)) := by
  have hlit := uopLit_of_legal h (by simp [hop])
  simp [decodeUop, (uopOp_toNat_eq (by decide)).mp hop, uopRes_of_legal h, hlit]

theorem decodeUop_of_faddi (hop : (uopOp w).toNat = 2) (hlit : (uopLit w).toNat < Config.P) :
    decodeUop w = .ok (.faddi (uopRd w) (uopRs1 w) (uopLit w)) := by
  have hrs2 := uopRs2Bits_of_legal h (by simp [hop])
  simp [decodeUop, (uopOp_toNat_eq (by decide)).mp hop, uopRes_of_legal h, hrs2, hlit]

theorem decodeUop_of_fmuli (hop : (uopOp w).toNat = 4) (hlit : (uopLit w).toNat < Config.P) :
    decodeUop w = .ok (.fmuli (uopRd w) (uopRs1 w) (uopLit w)) := by
  have hrs2 := uopRs2Bits_of_legal h (by simp [hop])
  simp [decodeUop, (uopOp_toNat_eq (by decide)).mp hop, uopRes_of_legal h, hrs2, hlit]

end

/-! ### A micro-op word is its fields (R61) -/

theorem regBits_regOf (b : BitVec 4) : regBits (regOf b) = b := BitVec.ofNat_toNat 4 b

/-- A word whose reserved bits are 0 is the word of its fields. -/
theorem formatU_of_fields {w : UopWord} (h : uopRes w = 0) :
    formatU (uopOp w) (uopRd w) (uopRs1 w) (uopRs2Bits w) (uopLit w) = w := by
  rw [formatU, uopRd, uopRs1, regBits_regOf, regBits_regOf, show 0#12 = uopRes w from h.symm]
  simp (disch := rfl) only [uopOp, uopRs2Bits, uopRes, uopLit, BitVec.extractLsb'_append_extractLsb'_eq_extractLsb',
    BitVec.extractLsb'_eq_self]

section
variable {w : UopWord} {op : BitVec 8} (h : ¬ IllegalUop w) (hop : (uopOp w).toNat = op.toNat)
include h hop

theorem formatU_of_register_word (hmem : op.toNat ∈ [1, 3]) :
    formatU op (uopRd w) (uopRs1 w) (regBits (uopRs2 w)) 0 = w := by
  rw [← BitVec.eq_of_toNat_eq hop, uopRs2, regBits_regOf, ← uopLit_of_legal h (hop ▸ hmem),
    formatU_of_fields (uopRes_of_legal h)]

theorem formatU_of_literal_word (hmem : op.toNat ∈ [2, 4]) :
    formatU op (uopRd w) (uopRs1 w) 0 (uopLit w) = w := by
  rw [← BitVec.eq_of_toNat_eq hop, ← uopRs2Bits_of_legal h (hop ▸ hmem), formatU_of_fields (uopRes_of_legal h)]

end

/-- A micro-op word that decodes is the word of its instruction (R63, R64). -/
theorem encode_of_decodeUop {w : UopWord} {i : Instr} (h : decodeUop w = .ok i) : i.wf = true ∧ encode i = .uop w := by
  have hlegal : ¬ IllegalUop w := fun hi => by simp [decodeUop_of_illegal hi] at h
  have hlit (hop : (uopOp w).toNat ∈ [2, 4]) : (uopLit w).toNat < Config.P := by
    by_contra hge
    simp [decodeUop_of_large_literal hlegal hop (Nat.not_lt.mp hge)] at h
  obtain hop | hop | hop | hop := uopOp_of_legal hlegal
  · cases (decodeUop_of_fadd hlegal hop).symm.trans h
    exact ⟨rfl, congrArg _ (formatU_of_register_word (op := 0x01) hlegal hop (by decide))⟩
  · have hlit := hlit (by simp [hop])
    cases (decodeUop_of_faddi hlegal hop hlit).symm.trans h
    exact ⟨decide_eq_true hlit, congrArg _ (formatU_of_literal_word (op := 0x02) hlegal hop (by decide))⟩
  · cases (decodeUop_of_fmul hlegal hop).symm.trans h
    exact ⟨rfl, congrArg _ (formatU_of_register_word (op := 0x03) hlegal hop (by decide))⟩
  · have hlit := hlit (by simp [hop])
    cases (decodeUop_of_fmuli hlegal hop hlit).symm.trans h
    exact ⟨decide_eq_true hlit, congrArg _ (formatU_of_literal_word (op := 0x04) hlegal hop (by decide))⟩

/-! ### Command words: each row fixes the bits outside its operand (R67) -/

theorem bankOf_injective : Function.Injective bankOf := by decide

/-- Two words that agree under a mask and in each bit that the mask leaves free. -/
theorem eq_of_masked {w w' mask : CmdWord} (h : w &&& mask = w' &&& mask)
    (hfree : ∀ i < 32, mask.getLsbD i = false → w.getLsbD i = w'.getLsbD i) : w = w' := by
  apply BitVec.eq_of_getLsbD_eq
  intro i hi
  cases hm : mask.getLsbD i with
  | false => exact hfree i hi hm
  | true => simpa [hm] using congrArg (fun x => x.getLsbD i) h

/-- The rows that leave the bank bit free: INIT, EXEC, GEN. -/
theorem eq_of_bankRow {w w' : CmdWord} (h : w &&& 0xFFFFFEFF = w' &&& 0xFFFFFEFF) (hk : cmdK w = cmdK w') : w = w' := by
  have hfree : ∀ i < 32, (0xFFFFFEFF : CmdWord).getLsbD i = false → i = 8 := by decide
  refine eq_of_masked h fun i hi hm => ?_
  rw [hfree i hi hm]
  exact bankOf_injective hk

/-- The rows that leave the mode bit free: HASH2, HASH4. -/
theorem eq_of_modeRow {w w' : CmdWord} (h : w &&& 0xFFFFFDFF = w' &&& 0xFFFFFDFF) (hu : cmdU w = cmdU w') : w = w' := by
  have hfree : ∀ i < 32, (0xFFFFFDFF : CmdWord).getLsbD i = false → i = 9 := by decide
  refine eq_of_masked h fun i hi hm => ?_
  rw [hfree i hi hm]
  exact hu

/-- PERMUTE's row leaves the bank bit, the mode bit and the declared length free. -/
theorem eq_of_permuteRow {w w' : CmdWord} (h : w &&& 0xFF00FCFF = w' &&& 0xFF00FCFF) (hk : cmdK w = cmdK w')
    (hu : cmdU w = cmdU w') (hlen : cmdLen w = cmdLen w') : w = w' := by
  have hfree : ∀ i < 32, (0xFF00FCFF : CmdWord).getLsbD i = false → i = 8 ∨ i = 9 ∨ 16 ≤ i ∧ i < 24 := by decide
  refine eq_of_masked h fun i hi hm => ?_
  obtain rfl | rfl | ⟨h16, h24⟩ := hfree i hi hm
  · exact bankOf_injective hk
  · exact hu
  · have hbit := congrArg (fun x => x.getLsbD (i - 16)) hlen
    have hlt : i - 16 < 8 := by omega
    simpa [cmdLen, BitVec.getLsbD_extractLsb', hlt, Nat.add_sub_cancel' h16] using hbit

/-- A command word that decodes is the word of its instruction (R67). -/
theorem encode_of_decodeCmdWord {w : CmdWord} {i : Instr} (h : decodeCmdWord w = some i) :
    i.wf = true ∧ encode i = .cmd w := by
  unfold decodeCmdWord at h
  split_ifs at h with hrow hrow hrow hrow hrow hrow hrow <;> cases h
  · exact ⟨rfl, congrArg _ (eq_of_bankRow ((Laws.Row.init _).trans hrow.symm) (cmdK_formatC ..))⟩
  · exact ⟨rfl, congrArg _ (eq_of_permuteRow ((Laws.Row.permute ..).trans hrow.symm) (cmdK_formatC ..) (cmdU_formatC ..)
      (cmdLen_formatC ..))⟩
  · exact ⟨rfl, congrArg _ (eq_of_modeRow ((Laws.Row.hash2 _).trans hrow.symm) (cmdU_formatC ..))⟩
  · exact ⟨rfl, congrArg _ (eq_of_modeRow ((Laws.Row.hash4 _).trans hrow.symm) (cmdU_formatC ..))⟩
  · exact ⟨rfl, congrArg _ (eq_of_bankRow ((Laws.Row.execProg _).trans hrow.symm) (cmdK_formatC ..))⟩
  · exact ⟨rfl, congrArg _ (eq_of_bankRow ((Laws.Row.gen _).trans hrow.symm) (cmdK_formatC ..))⟩
  · obtain rfl : w = 7 := BitVec.and_allOnes.symm.trans hrow
    exact ⟨rfl, by decide⟩

theorem decodeCmdWord_of_decodeCommand {v : Word} {i : Instr} (h : decodeCommand v = .ok i) :
    decodeCmdWord (v.setWidth 32) = some i := by
  unfold decodeCommand at h
  split_ifs at h
  cases hd : decodeCmdWord (v.setWidth 32) with
  | none => simp [hd] at h
  | some j =>
    rw [hd] at h
    cases h
    rfl

/-- R68: a value is refused when it does not fit 32 bits or its 32 bits are no instruction's word. -/
theorem decodeCommand_of_no_command {v : Word} (h : 2 ^ 32 ≤ v.toNat ∨ ∀ i : Instr, encode i ≠ .cmd (v.setWidth 32)) :
    decodeCommand v = .error (.illegalCommand v) := by
  unfold decodeCommand
  split_ifs with hlt
  · rfl
  · cases hd : decodeCmdWord (v.setWidth 32) with
    | none => rfl
    | some i => exact absurd (encode_of_decodeCmdWord hd).2 (h.resolve_left hlt i)

/-! ### The decoder and the encoder -/

/-- Settles O21: the decoder, run on each word. -/
theorem sampleWordsDecode : Obligations.SampleWordsDecode := by
  unfold Obligations.SampleWordsDecode
  decide +kernel

/-- Settles O22. -/
theorem decodeInvertsEncode : Obligations.DecodeInvertsEncode := fun _ => decodeEncoded_encode

/-- Settles O23: a micro-op word is its fields, and a row of the command table fixes every bit outside its operands. -/
theorem encodeInvertsDecode : Obligations.EncodeInvertsDecode := by
  unfold Obligations.EncodeInvertsDecode
  intro e i h
  cases e with
  | uop w => exact encode_of_decodeUop h
  | cmd w =>
    have hd := decodeCmdWord_of_decodeCommand h
    rw [BitVec.setWidth_setWidth_of_le w (by decide), BitVec.setWidth_eq] at hd
    exact encode_of_decodeCmdWord hd

namespace Machine

/-- An unfaulted core refuses a value that does not decode (R140 step 3). -/
theorem issueCommand_of_rejected {v : Word} {r : Reject} {s : State} (hs : s.ecause = 0) (hd : decodeCommand v = .error r) :
    issueCommand v s = .next (hostFault s (causeCode (rejectCause r)) (causeInfo (rejectCause r))) := by
  rw [← finish_host_error hs]
  simp [issueCommand, faulted, hs, hd]

/-- Settles O25: the write to `CMD` issues a value that the decoder refuses. -/
theorem illegalCommandRaises : Obligations.IllegalCommandRaises := by
  unfold Obligations.IllegalCommandRaises
  rintro v rest s ⟨hb, d, hp⟩ hs hv
  have hcmd : csrOf 0x02 = some .cmd := rfl
  have hd := decodeCommand_of_no_command hv
  rw [step_of_idle hb hp, perform, csrWrite, if_pos hcmd]
  exact issueCommand_of_rejected (s := { s with pending := rest }) hs hd

/-! ### The engine's step on a word (R65, R113) -/

/-- A fault raised by the engine with an empty record (R180). -/
theorem finish_engine_error {s : State} (h : s.ecause = 0) (c : Cause) :
    finish .engine s (.error c) = .next (engineFault s (causeCode c) (causeInfo c)) := by
  rw [finish_error, raiseFault, recordFault_of_empty h, engineFault]

/-! #### Operand reads: test 5 of R65 in each micro-operation, test 6 in the two that read `rs2` -/

section
variable {rd rs1 rs2 : Reg} {lit : Word} {s : State}

theorem faddEffect_of_invalid_rs1 (h : validF rs1.val s = false) :
    faddEffect rd rs1 rs2 s = .error (.uninitRead rs1.val) := by
  simp [faddEffect, readF_of_invalid h]

theorem fmulEffect_of_invalid_rs1 (h : validF rs1.val s = false) :
    fmulEffect rd rs1 rs2 s = .error (.uninitRead rs1.val) := by
  simp [fmulEffect, readF_of_invalid h]

theorem faddiEffect_of_invalid_rs1 (hlit : lit.toNat < Config.P) (h : validF rs1.val s = false) :
    faddiEffect rd rs1 lit s = .error (.uninitRead rs1.val) := by
  simp [faddiEffect, literal_of_lt hlit, readF_of_invalid h]

theorem fmuliEffect_of_invalid_rs1 (hlit : lit.toNat < Config.P) (h : validF rs1.val s = false) :
    fmuliEffect rd rs1 lit s = .error (.uninitRead rs1.val) := by
  simp [fmuliEffect, literal_of_lt hlit, readF_of_invalid h]

theorem faddEffect_of_invalid_rs2 (h1 : validF rs1.val s = true) (h2 : validF rs2.val s = false) :
    faddEffect rd rs1 rs2 s = .error (.uninitRead rs2.val) := by
  simp [faddEffect, readF_of_valid h1, readF_of_invalid h2]

theorem fmulEffect_of_invalid_rs2 (h1 : validF rs1.val s = true) (h2 : validF rs2.val s = false) :
    fmulEffect rd rs1 rs2 s = .error (.uninitRead rs2.val) := by
  simp [fmulEffect, readF_of_valid h1, readF_of_invalid h2]

end

/-! #### The step on the word at `PM[KSEL][upc]` -/

section
variable {w : UopWord} {s : State} (hb : s.busy = true) (hu : s.umode = true) (hp : s.pending = [])
  (hw : (bankAt s.ksel s).mem.pms[s.upc.toNat]? = some w)

include hb hu hp in
/-- With no transaction of the host to come, a core busy in unrolled mode takes the program's step. -/
theorem step_of_unrolled_alone : step s = unrolledStep s := by
  have hs : { s with pending := tick s.pending } = s := by rw [hp, tick, List.map_nil, ← hp]
  have htake : takeDue s.pending = none := by rw [hp, takeDue]
  rw [step, if_pos hb, busyStep, htake]
  show engineStep { s with pending := tick s.pending } = _
  rw [hs, engineStep, if_pos hu]

include hw

theorem fetchUop_of_word : fetchUop s = .ok w := by
  rw [fetchUop, hw]

theorem upc_ne_length_of_word : s.upc.toNat ≠ (bankAt s.ksel s).mem.pms.length :=
  Nat.ne_of_lt (List.getElem?_eq_some_iff.mp hw).1

include hb hu hp

/-- A word that the decoder refuses raises its fault (R65 tests 1 to 4). -/
theorem step_of_rejected_word {r : Reject} (hs : s.ecause = 0) (hd : decodeUop w = .error r) :
    step s = .next (engineFault s (causeCode (rejectCause r)) (causeInfo (rejectCause r))) := by
  rw [step_of_unrolled_alone hb hu hp, unrolledStep_of_rejected (upc_ne_length_of_word hw) (fetchUop_of_word hw) hd,
    finish_engine_error hs]

theorem step_of_decoded_word {i : Instr} (hd : decodeUop w = .ok i) : step s = exec i s := by
  rw [step_of_unrolled_alone hb hu hp, unrolledStep_of_decoded (upc_ne_length_of_word hw) (fetchUop_of_word hw) hd]

/-- A micro-operation that reads an invalid register raises `UninitRead` (R65 tests 5 and 6). -/
theorem step_of_uninit_read {i : Instr} {n : Nat} (hs : s.ecause = 0) (hd : decodeUop w = .ok i)
    (he : effect i s = .error (.uninitRead n)) : step s = .next (engineFault s 7 (BitVec.ofNat 256 n)) := by
  rw [step_of_decoded_word hb hu hp hw hd, exec_eq_finish, originOf, decodeUop_isMicroOp hd, he, if_pos rfl,
    finish_engine_error hs]
  rfl

end

/-- Settles O26: the decoder makes the first four tests, the operand reads the others, and both raise through `finish`. -/
theorem unrolledStepFollowsDecodeOrder : Obligations.UnrolledStepFollowsDecodeOrder := by
  unfold Obligations.UnrolledStepFollowsDecodeOrder
  intro w s op rd rs1 rs2 res lit illegal hb hu hp hs hw
  have hrejected {r : Reject} (hd : decodeUop w = .error r) := step_of_rejected_word hb hu hp hw hs hd
  have huninit {i : Instr} {n : Nat} (hd : decodeUop w = .ok i) := step_of_uninit_read hb hu hp hw hs hd (n := n)
  have hdecoded {i : Instr} (hd : decodeUop w = .ok i) := step_of_decoded_word hb hu hp hw hd
  refine ⟨fun h => ?_, fun h hop hlit => ?_, fun h hlit h1 => ?_, fun h hop h1 h2 => ?_, fun h h1 =>
    ⟨fun hop _ => hdecoded (decodeUop_of_fadd h hop), fun hop hlit => hdecoded (decodeUop_of_faddi h hop hlit),
      fun hop _ => hdecoded (decodeUop_of_fmul h hop), fun hop hlit => hdecoded (decodeUop_of_fmuli h hop hlit)⟩⟩
  · rw [hrejected (decodeUop_of_illegal h), rejectCause, causeInfo, uopCtl_eq]
    rfl
  · exact hrejected (decodeUop_of_large_literal h hop hlit)
  · obtain hop | hop | hop | hop := uopOp_of_legal h
    · exact huninit (decodeUop_of_fadd h hop) (faddEffect_of_invalid_rs1 h1)
    · have hmem : (uopOp w).toNat ∈ [2, 4] := by simp [hop]
      have hlit := hlit hmem
      exact huninit (decodeUop_of_faddi h hop hlit) (faddiEffect_of_invalid_rs1 hlit h1)
    · exact huninit (decodeUop_of_fmul h hop) (fmulEffect_of_invalid_rs1 h1)
    · have hmem : (uopOp w).toNat ∈ [2, 4] := by simp [hop]
      have hlit := hlit hmem
      exact huninit (decodeUop_of_fmuli h hop hlit) (fmuliEffect_of_invalid_rs1 hlit h1)
  · obtain hop | hop : op = 1 ∨ op = 3 := by simpa using hop
    · exact huninit (decodeUop_of_fadd h hop) (faddEffect_of_invalid_rs2 h1 h2)
    · exact huninit (decodeUop_of_fmul h hop) (fmulEffect_of_invalid_rs2 h1 h2)

end Machine

end Sys2Proof

/-! ## The field -/

namespace Sys2Proof

/-! ### `P` is prime -/

/-- Lucas's test with the primes of `n - 1` in a list: `a` has order `n - 1`, so `n` is prime. -/
theorem prime_of_lucas_list {n : ℕ} (a : ZMod n) (l : List ℕ) (k : ℕ) (hprime : ∀ q ∈ l, q.Prime)
    (hdvd : n - 1 ∣ l.prod ^ k) (hone : a ^ (n - 1) = 1) (hne : ∀ q ∈ l, a ^ ((n - 1) / q) ≠ 1) : n.Prime := by
  refine lucas_primality n a hone fun q hq hqn => ?_
  have hprod : q ∣ l.prod := hq.dvd_of_dvd_pow (hqn.trans hdvd)
  obtain ⟨r, hr, hqr⟩ := (Prime.dvd_prod_iff hq.prime).mp hprod
  rw [(Nat.prime_dvd_prime_iff_eq hq (hprime r hr)).mp hqr]
  exact hne r hr

/-- The primes that divide `P - 1`. -/
def primesOfPredP : List ℕ :=
  [2, 3, 11, 19, 10177, 125527, 859267, 906349, 2508409, 2529403, 52437899, 254760293]

theorem prime_of_mem_primesOfPredP : ∀ q ∈ primesOfPredP, q.Prime := by
  simp only [primesOfPredP, List.forall_mem_cons]
  norm_num

theorem predP_dvd_prod_pow : Config.P - 1 ∣ primesOfPredP.prod ^ 32 := by
  decide

/-- The witness of Lucas's test for `P` is 7: its order divides `P - 1`. -/
theorem seven_pow_predP : (7 : ZMod Config.P) ^ (Config.P - 1) = 1 := by
  unfold Config.P
  reduce_mod_char

/-- The order of 7 divides no `(P - 1) / q`. -/
theorem seven_pow_predP_div_ne_one : ∀ q ∈ primesOfPredP, (7 : ZMod Config.P) ^ ((Config.P - 1) / q) ≠ 1 := by
  unfold Config.P
  simp only [primesOfPredP, List.forall_mem_cons]
  norm_num only
  refine ⟨?_, ?_, ?_, ?_, ?_, ?_, ?_, ?_, ?_, ?_, ?_, ?_, nofun⟩ <;>
    (reduce_mod_char; decide)

/-- R7; the value of `P` is that of log entry 1. -/
theorem P_prime : Config.P.Prime :=
  prime_of_lucas_list 7 primesOfPredP 32 prime_of_mem_primesOfPredP predP_dvd_prod_pow seven_pow_predP
    seven_pow_predP_div_ne_one

namespace Machine

/-! ### `add` and `mul` are exact modulo `P` (R80, R81) -/

theorem P_lt_half_word : Config.P < 2 ^ 255 := by decide

theorem val_feAdd (a b : Fe) : (feAdd a b).val = (a.val + b.val) % Config.P := rfl

theorem val_feMul (a b : Fe) : (feMul a b).val = (a.val * b.val) % Config.P := rfl

/-- One subtraction of `P` reduces a sum of two field elements (R80). -/
theorem val_feAdd_eq_ite (a b : Fe) :
    (feAdd a b).val = if a.val + b.val < Config.P then a.val + b.val else a.val + b.val - Config.P := by
  rw [val_feAdd]
  split
  next h => exact Nat.mod_eq_of_lt h
  next h =>
    rw [Nat.mod_eq_sub_mod (Nat.not_lt.mp h)]
    exact Nat.mod_eq_of_lt (Nat.sub_lt_left_of_lt_add (Nat.not_lt.mp h) (Nat.add_lt_add a.isLt b.isLt))

theorem feAdd_unreduced_lt (a b : Fe) : a.val + b.val < 2 ^ 256 :=
  Nat.add_lt_add (a.isLt.trans P_lt_half_word) (b.isLt.trans P_lt_half_word)

theorem feMul_unreduced_lt (a b : Fe) : a.val * b.val < 2 ^ 510 :=
  calc a.val * b.val < 2 ^ 255 * 2 ^ 255 :=
        Nat.mul_lt_mul'' (a.isLt.trans P_lt_half_word) (b.isLt.trans P_lt_half_word)
    _ = 2 ^ 510 := by rw [← pow_add]

/-- Settles O1: each clause is a lemma above, or the bound that a field element carries. -/
theorem addAndMulAreExactModP : Obligations.AddAndMulAreExactModP := fun a b =>
  ⟨val_feAdd a b, val_feAdd_eq_ite a b, feAdd_unreduced_lt a b, (feAdd a b).isLt,
    val_feMul a b, feMul_unreduced_lt a b, (feMul a b).isLt⟩

/-! ### The laws of the arithmetic (R83) -/

/-- A field element in `ZMod P`, where `add` and `mul` are the ring's own. -/
def residue (a : Fe) : ZMod Config.P := (a.val : ZMod Config.P)

@[simp] theorem residue_feAdd (a b : Fe) : residue (feAdd a b) = residue a + residue b := by
  rw [residue, val_feAdd, ZMod.natCast_mod, Nat.cast_add]
  rfl

@[simp] theorem residue_feMul (a b : Fe) : residue (feMul a b) = residue a * residue b := by
  rw [residue, val_feMul, ZMod.natCast_mod, Nat.cast_mul]
  rfl

theorem residue_injective : Function.Injective residue := by
  intro a b h
  have hmod : a.val % Config.P = b.val % Config.P := (ZMod.natCast_eq_natCast_iff' _ _ _).mp h
  rw [Nat.mod_eq_of_lt a.isLt, Nat.mod_eq_of_lt b.isLt] at hmod
  exact Fin.ext hmod

theorem residue_zero {z : Fe} (h : z.val = 0) : residue z = 0 := by
  rw [residue, h, Nat.cast_zero]

section
variable (a b c : Fe)

theorem feAdd_comm : feAdd a b = feAdd b a := residue_injective (by simp [add_comm])

theorem feAdd_assoc : feAdd (feAdd a b) c = feAdd a (feAdd b c) := residue_injective (by simp [add_assoc])

theorem feMul_comm : feMul a b = feMul b a := residue_injective (by simp [mul_comm])

theorem feMul_assoc : feMul (feMul a b) c = feMul a (feMul b c) := residue_injective (by simp [mul_assoc])

theorem feMul_feAdd : feMul a (feAdd b c) = feAdd (feMul a b) (feMul a c) := residue_injective (by simp [mul_add])

end

section
variable {zero : Fe} (hz : zero.val = 0) (a : Fe)
include hz

theorem feAdd_zero : feAdd a zero = a := residue_injective (by simp [residue_zero hz])

theorem feMul_zero : feMul a zero = zero := residue_injective (by simp [residue_zero hz])

theorem feAdd_opposite {n : Fe} (hn : n.val = Config.P - a.val) : feAdd a n = zero := by
  have hsum : a.val + n.val = Config.P := by rw [hn, Nat.add_sub_of_le a.isLt.le]
  exact Fin.ext (by rw [val_feAdd, hsum, Nat.mod_self, hz])

/-- A prime `P` divides a product only when it divides a factor. -/
theorem eq_zero_of_feMul_eq_zero {b : Fe} (h : feMul a b = zero) : a = zero ∨ b = zero := by
  have hdvd : Config.P ∣ a.val * b.val := Nat.dvd_of_mod_eq_zero (by rw [← val_feMul, h, hz])
  have heq {x : Fe} (hx : Config.P ∣ x.val) : x = zero := Fin.ext ((Nat.eq_zero_of_dvd_of_lt hx x.isLt).trans hz.symm)
  exact (P_prime.dvd_mul.mp hdvd).imp heq heq

end

theorem feMul_one {one : Fe} (ho : one.val = 1) (a : Fe) : feMul a one = a :=
  Fin.ext (by rw [val_feMul, ho, mul_one, Nat.mod_eq_of_lt a.isLt])

/-- Settles O2: field elements embed in the ring `ZMod P`, and `P` is prime. -/
theorem fieldLaws : Obligations.FieldLaws := fun a b c _ _ hz ho =>
  ⟨feAdd_comm a b, feAdd_assoc a b c, feAdd_zero hz a, fun _ _ => feAdd_opposite hz a,
    feMul_comm a b, feMul_assoc a b c, feMul_one ho a, feMul_zero hz a, feMul_feAdd a b c,
    eq_zero_of_feMul_eq_zero hz a⟩

/-! ### The four micro-operations complete (R84 to R87) -/

/-- A write of `F[rd]`, and the counters moved on. -/
theorem writesField_of_writeF {s t : State} {rd : Reg} {v : Fe} {counted : BitVec 32}
    (ht : t = { writeF rd v s with upc := s.upc + 1, rccnt := s.rccnt + counted }) :
    WritesField s t rd v.val counted := by
  subst ht
  refine ⟨?_, fun j hj => ?_, fun j => ?_, rfl⟩
  · exact congrArg Fin.val ((writeF_f_get rd v s rd.val rd.isLt).trans (if_pos rfl))
  · exact (writeF_f_get rd v s j.val j.isLt).trans (if_neg fun h => hj (Fin.ext h.symm))
  · refine (validF_writeF rd v s j.val).trans ?_
    rw [decide_eq_decide.mpr (eq_comm.trans Fin.ext_iff.symm)]

theorem writesField_advance (rd : Reg) (v : Fe) (s : State) :
    WritesField s (advance (writeF rd v s)) rd v.val 0 :=
  writesField_of_writeF (by rw [add_zero]; rfl)

theorem writesField_advance_countConstant (rd : Reg) (v : Fe) (s : State) :
    WritesField s (advance (countConstant (writeF rd v s))) rd v.val 1 :=
  writesField_of_writeF rfl

/-- A literal in range is the word of a field element. -/
theorem exists_feWord {lit : Word} (h : lit.toNat < Config.P) : ∃ c : Fe, lit = feWord c ∧ lit.toNat = c.val :=
  ⟨⟨lit.toNat, h⟩, (BitVec.ofNat_toNat 256 lit).symm, rfl⟩

/-- A micro-operation whose effect completes is a step to the effect's state (R88). -/
theorem exec_of_effect_ok {i : Instr} {s t : State} (h : effect i s = .ok t) : exec i s = .next t := by
  rw [exec_eq_finish, h, finish_ok]

/-- Settles O4: both sources are valid, so the effect completes with one write of `F[rd]`. -/
theorem faddWritesSum : Obligations.FaddWritesSum := fun s rd _ _ h1 h2 =>
  ⟨_, exec_of_effect_ok (faddEffect_of_valid h1 h2), writesField_advance rd _ s⟩

/-- Settles O6: as for FADD, with the product. -/
theorem fmulWritesProduct : Obligations.FmulWritesProduct := fun s rd _ _ h1 h2 =>
  ⟨_, exec_of_effect_ok (fmulEffect_of_valid h1 h2), writesField_advance rd _ s⟩

/-- Settles O5: the literal is the word of a field element, and the ALU reads it as that element. -/
theorem faddiAddsLiteralAndCounts : Obligations.FaddiAddsLiteralAndCounts := by
  unfold Obligations.FaddiAddsLiteralAndCounts
  intro s rd rs1 lit h1 hlit
  obtain ⟨c, rfl, hc⟩ := exists_feWord hlit
  rw [hc]
  exact ⟨_, exec_of_effect_ok (faddiEffect_of_valid h1), writesField_advance_countConstant rd _ s⟩

/-- Settles O7: as for FADDI, without the count. -/
theorem fmuliMultipliesByLiteral : Obligations.FmuliMultipliesByLiteral := by
  unfold Obligations.FmuliMultipliesByLiteral
  intro s rd rs1 lit h1 hlit
  obtain ⟨c, rfl, hc⟩ := exists_feWord hlit
  rw [hc]
  exact ⟨_, exec_of_effect_ok (fmuliEffect_of_valid h1), writesField_advance rd _ s⟩

/-! ### Their exceptions (R84 to R87, R180) -/

section
variable {rd rs1 : Reg} {lit : Word} {s : State}

theorem faddiEffect_of_large_literal (h : Config.P ≤ lit.toNat) :
    faddiEffect rd rs1 lit s = .error (.illegalLiteral lit) := by
  simp [faddiEffect, literal_of_ge h]

theorem fmuliEffect_of_large_literal (h : Config.P ≤ lit.toNat) :
    fmuliEffect rd rs1 lit s = .error (.illegalLiteral lit) := by
  simp [fmuliEffect, literal_of_ge h]

end

/-- A micro-operation that raises stops the engine with the fault recorded (R180). -/
theorem exec_of_effect_error {i : Instr} {s : State} {c : Cause} (hs : s.ecause = 0) (hi : isMicroOp i = true)
    (h : effect i s = .error c) : exec i s = .next (engineFault s (causeCode c) (causeInfo c)) := by
  rw [exec_eq_finish, originOf, if_pos hi, h, finish_engine_error hs]

theorem exec_of_uninit_read {i : Instr} {s : State} {n : Nat} (hs : s.ecause = 0) (hi : isMicroOp i = true)
    (h : effect i s = .error (.uninitRead n)) : exec i s = .next (engineFault s 7 (BitVec.ofNat 256 n)) :=
  exec_of_effect_error hs hi h

theorem exec_of_illegal_literal {i : Instr} {s : State} {lit : Word} (hs : s.ecause = 0) (hi : isMicroOp i = true)
    (h : effect i s = .error (.illegalLiteral lit)) : exec i s = .next (engineFault s 6 lit) :=
  exec_of_effect_error hs hi h

/-- Settles O8: each clause is one operand read that raises. -/
theorem microOpFaultsStopTheEngine : Obligations.MicroOpFaultsStopTheEngine := by
  unfold Obligations.MicroOpFaultsStopTheEngine
  intro s rd rs1 rs2 lit hs
  refine ⟨fun h1 => ⟨?_, ?_⟩, fun h1 h2 => ⟨?_, ?_⟩, fun hlit => ⟨?_, ?_⟩, fun hlit h1 => ⟨?_, ?_⟩⟩
  · exact exec_of_uninit_read hs rfl (faddEffect_of_invalid_rs1 h1)
  · exact exec_of_uninit_read hs rfl (fmulEffect_of_invalid_rs1 h1)
  · exact exec_of_uninit_read hs rfl (faddEffect_of_invalid_rs2 h1 h2)
  · exact exec_of_uninit_read hs rfl (fmulEffect_of_invalid_rs2 h1 h2)
  · exact exec_of_illegal_literal hs rfl (faddiEffect_of_large_literal hlit)
  · exact exec_of_illegal_literal hs rfl (fmuliEffect_of_large_literal hlit)
  · exact exec_of_uninit_read hs rfl (faddiEffect_of_invalid_rs1 hlit h1)
  · exact exec_of_uninit_read hs rfl (fmuliEffect_of_invalid_rs1 hlit h1)

end Machine

end Sys2Proof

/-! ## The state after a list of micro-operations -/

namespace Sys2Proof

namespace Machine

/-- The state after a micro-operation that completes (R84 to R87). -/
def afterOp (i : Instr) (s : State) : State :=
  match i with
  | .fadd rd rs1 rs2 => advance (writeF rd (feAdd s.f[rs1.val] s.f[rs2.val]) s)
  | .faddi rd rs1 lit => advance (countConstant (writeF rd (feAdd s.f[rs1.val] (reduceWord lit)) s))
  | .fmul rd rs1 rs2 => advance (writeF rd (feMul s.f[rs1.val] s.f[rs2.val]) s)
  | .fmuli rd rs1 lit => advance (writeF rd (feMul s.f[rs1.val] (reduceWord lit)) s)
  | .init _ | .permute _ _ _ | .hash2 _ | .hash4 _ | .execProg _ | .gen _ | .clrerr => s

/-- The state after a list of micro-operations that all complete. -/
def afterOps (l : List Instr) (s : State) : State := l.foldl (fun s i => afterOp i s) s

/-- The register that a micro-operation writes. -/
def destOf : Instr → Option Reg
  | .fadd rd _ _ | .faddi rd _ _ | .fmul rd _ _ | .fmuli rd _ _ => some rd
  | .init _ | .permute _ _ _ | .hash2 _ | .hash4 _ | .execProg _ | .gen _ | .clrerr => none

/-- The registers that a list of micro-operations writes. -/
def writtenBy (l : List Instr) : Set Reg := {r | ∃ i ∈ l, destOf i = some r}

/-- FADDI, the micro-operation that `RCCNT` counts (R85). -/
def isFaddi : Instr → Bool
  | .faddi _ _ _ => true
  | .fadd _ _ _ | .fmul _ _ _ | .fmuli _ _ _ => false
  | .init _ | .permute _ _ _ | .hash2 _ | .hash4 _ | .execProg _ | .gen _ | .clrerr => false

/-! ### One micro-operation -/

theorem literal_ok {lit : Word} {c : Fe} (h : literal lit = .ok c) : c = reduceWord lit := by
  by_cases hlt : lit.toNat < Config.P
  · rw [literal_of_lt hlt] at h
    cases h
    exact Fin.ext (Nat.mod_eq_of_lt hlt).symm
  · rw [literal_of_ge (Nat.not_lt.mp hlt)] at h
    cases h

@[simp] theorem reduceWord_feWord (c : Fe) : reduceWord (feWord c) = c := (literal_ok (literal_feWord c)).symm

/-- A micro-operation that completes has its one effect. -/
theorem effect_eq_afterOp {i : Instr} {s s' : State} (hi : isMicroOp i = true) (h : effect i s = .ok s') :
    s' = afterOp i s := by
  cases i with
  | fadd rd rs1 rs2 | fmul rd rs1 rs2 =>
    simp only [effect, faddEffect, fmulEffect] at h
    split at h
    · cases h
    · split at h
      · cases h
      · obtain ⟨-, rfl⟩ := readF_ok_iff.mp ‹readF rs1 s = _›
        obtain ⟨-, rfl⟩ := readF_ok_iff.mp ‹readF rs2 s = _›
        cases h
        rfl
  | faddi rd rs1 lit | fmuli rd rs1 lit =>
    simp only [effect, faddiEffect, fmuliEffect] at h
    split at h
    · cases h
    · split at h
      · cases h
      · obtain rfl := literal_ok ‹literal lit = _›
        obtain ⟨-, rfl⟩ := readF_ok_iff.mp ‹readF rs1 s = _›
        cases h
        rfl
  | _ => cases hi

section
variable (i : Instr) (s : State)

theorem afterOp_frame : afterOp i s =
    { s with f := (afterOp i s).f, vf := (afterOp i s).vf, upc := (afterOp i s).upc, rccnt := (afterOp i s).rccnt } := by
  cases i <;> rfl

theorem afterOp_f_of_not_dest {r : Reg} (h : destOf i ≠ some r) : (afterOp i s).f[r.val] = s.f[r.val] := by
  cases i with
  | fadd rd | faddi rd | fmul rd | fmuli rd =>
    exact (writeF_f_get rd _ s r.val r.isLt).trans (if_neg fun he => h (congrArg some (Fin.ext he)))
  | _ => rfl

theorem validF_afterOp (r : Reg) : validF r.val (afterOp i s) = (validF r.val s || decide (destOf i = some r)) := by
  have hdest (rd : Reg) : decide (rd.val = r.val) = decide (some rd = some r) :=
    decide_eq_decide.mpr (Fin.ext_iff.symm.trans Option.some_inj.symm)
  cases i with
  | fadd rd | faddi rd | fmul rd | fmuli rd => exact (validF_writeF rd feZero s r.val).trans (congrArg _ (hdest rd))
  | _ => exact (Bool.or_false _).symm

theorem afterOp_upc (hi : isMicroOp i = true) : (afterOp i s).upc = s.upc + 1 := by
  cases i with
  | fadd | faddi | fmul | fmuli => rfl
  | _ => cases hi

theorem afterOp_rccnt : (afterOp i s).rccnt = s.rccnt + BitVec.ofNat 32 (isFaddi i).toNat := by
  cases i with
  | faddi => rfl
  | _ => exact (add_zero _).symm

end

/-! ### A list of them -/

@[simp] theorem afterOps_nil (s : State) : afterOps [] s = s := rfl

@[simp] theorem afterOps_cons (i : Instr) (l : List Instr) (s : State) :
    afterOps (i :: l) s = afterOps l (afterOp i s) := rfl

theorem afterOps_append (l m : List Instr) (s : State) : afterOps (l ++ m) s = afterOps m (afterOps l s) :=
  List.foldl_append ..

/-- A list of micro-operations that completes has its one effect. -/
theorem runList_eq_afterOps {l : List Instr} (hl : ∀ i ∈ l, isMicroOp i = true) {s s' : State}
    (h : runList l s = .ok s') : s' = afterOps l s := by
  induction l generalizing s with
  | nil => cases h; rfl
  | cons i is ih =>
    simp only [runList] at h
    cases he : effect i s with
    | error c => rw [he] at h; cases h
    | ok s1 =>
      rw [he] at h
      obtain rfl := effect_eq_afterOp (hl i (List.mem_cons_self ..)) he
      exact ih (fun j hj => hl j (List.mem_cons_of_mem _ hj)) h

theorem afterOps_frame (l : List Instr) (s : State) : afterOps l s =
    { s with f := (afterOps l s).f, vf := (afterOps l s).vf, upc := (afterOps l s).upc,
             rccnt := (afterOps l s).rccnt } := by
  induction l generalizing s with
  | nil => rfl
  | cons i is ih =>
    rw [afterOps_cons, ih (afterOp i s), afterOp_frame i s]

section
variable (l : List Instr) (s : State)

@[simp] theorem afterOps_busy : (afterOps l s).busy = s.busy := by rw [afterOps_frame]
@[simp] theorem afterOps_umode : (afterOps l s).umode = s.umode := by rw [afterOps_frame]
@[simp] theorem afterOps_ksel : (afterOps l s).ksel = s.ksel := by rw [afterOps_frame]
@[simp] theorem afterOps_hashop : (afterOps l s).hashop = s.hashop := by rw [afterOps_frame]
@[simp] theorem afterOps_phase : (afterOps l s).phase = s.phase := by rw [afterOps_frame]
@[simp] theorem afterOps_round : (afterOps l s).round = s.round := by rw [afterOps_frame]
@[simp] theorem afterOps_pending : (afterOps l s).pending = s.pending := by rw [afterOps_frame]
@[simp] theorem bankAt_afterOps (k : BankId) : bankAt k (afterOps l s) = bankAt k s := by rw [afterOps_frame]; rfl

theorem afterOps_f_of_not_written {r : Reg} (h : r ∉ writtenBy l) : (afterOps l s).f[r.val] = s.f[r.val] := by
  induction l generalizing s with
  | nil => rfl
  | cons i is ih =>
    have hi : destOf i ≠ some r := fun he => h ⟨i, List.mem_cons_self .., he⟩
    have his : r ∉ writtenBy is := fun ⟨j, hj, he⟩ => h ⟨j, List.mem_cons_of_mem _ hj, he⟩
    exact (ih _ his).trans (afterOp_f_of_not_dest i s hi)

/-- The valid bits after a list: those of before, and those of the registers written (R13). -/
theorem validF_afterOps (r : Reg) : validF r.val (afterOps l s) = true ↔ validF r.val s = true ∨ r ∈ writtenBy l := by
  induction l generalizing s with
  | nil => simp [writtenBy]
  | cons i is ih => simp [ih, validF_afterOp, writtenBy, or_assoc]

theorem validF_afterOps_of_not_written {r : Reg} (h : r ∉ writtenBy l) : validF r.val (afterOps l s) = validF r.val s :=
  Bool.eq_iff_iff.mpr (by simp [validF_afterOps, h])

/-- R14: `upc` counts the micro-operations. -/
theorem afterOps_upc (hl : ∀ i ∈ l, isMicroOp i = true) : (afterOps l s).upc = s.upc + BitVec.ofNat 32 l.length := by
  induction l generalizing s with
  | nil => exact (add_zero _).symm
  | cons i is ih =>
    rw [afterOps_cons, ih _ fun j hj => hl j (List.mem_cons_of_mem _ hj), afterOp_upc i s (hl i (List.mem_cons_self ..)),
      List.length_cons, add_assoc, Nat.add_comm is.length, BitVec.ofNat_add]
    rfl

/-- R20: `RCCNT` counts the FADDI among them. -/
theorem afterOps_rccnt : (afterOps l s).rccnt = s.rccnt + BitVec.ofNat 32 (l.countP isFaddi) := by
  induction l generalizing s with
  | nil => exact (add_zero _).symm
  | cons i is ih =>
    rw [afterOps_cons, ih, afterOp_rccnt, List.countP_cons, add_assoc, Nat.add_comm (is.countP _), BitVec.ofNat_add]
    cases isFaddi i <;> rfl

end

/-! ### What a list writes -/

@[simp] theorem mem_writtenBy_cons {i : Instr} {l : List Instr} {r : Reg} :
    r ∈ writtenBy (i :: l) ↔ destOf i = some r ∨ r ∈ writtenBy l := by
  simp [writtenBy]

@[simp] theorem not_mem_writtenBy_nil {r : Reg} : r ∉ writtenBy [] := by
  simp [writtenBy]

@[simp] theorem mem_writtenBy_append {l m : List Instr} {r : Reg} :
    r ∈ writtenBy (l ++ m) ↔ r ∈ writtenBy l ∨ r ∈ writtenBy m := by
  simp [writtenBy, or_and_right, exists_or]

theorem mem_writtenBy_flatMap {α : Type} {xs : List α} {f : α → List Instr} {r : Reg} :
    r ∈ writtenBy (xs.flatMap f) ↔ ∃ x ∈ xs, r ∈ writtenBy (f x) := by
  simp only [writtenBy, Set.mem_ofPred_eq, List.mem_flatMap]
  exact ⟨fun ⟨i, ⟨x, hx, hi⟩, hd⟩ => ⟨x, hx, i, hi, hd⟩, fun ⟨x, hx, i, hi, hd⟩ => ⟨i, ⟨x, hx, hi⟩, hd⟩⟩

/-! ### Completion -/

theorem Completes.runList_eq {A B : Set Reg} {l : List Instr} (h : Completes A l B)
    (hl : ∀ i ∈ l, isMicroOp i = true) {s : State} (hs : AllValid A s) : runList l s = .ok (afterOps l s) := by
  obtain ⟨s', he, -⟩ := h s hs
  rw [he, runList_eq_afterOps hl he]

/-- A list that completes leaves every valid register valid (R13). -/
theorem Completes.union {A B : Set Reg} {l : List Instr} (h : Completes A l B) (hl : ∀ i ∈ l, isMicroOp i = true)
    (C : Set Reg) : Completes (A ∪ C) l (B ∪ C) := fun s hs => by
  obtain ⟨s', he, hB⟩ := h s fun r hr => hs r (.inl hr)
  exact ⟨s', he, fun r hr => hr.elim (hB r) fun hC => runList_vf hl he (hs r (.inr hC))⟩

end Machine

end Sys2Proof

/-! ## What the templates compute (R104 to R107) -/

namespace Sys2Proof

namespace Machine

/-! ### The registers of R12 -/

theorem mem_stRegs {t : Nat} (ht : t ≤ 5) {r : Reg} : r ∈ stRegs t ↔ r.val < t :=
  ⟨fun ⟨i, hi, hr⟩ => by rw [hr, stReg_val (by omega)]; exact hi,
   fun h => ⟨r.val, h, Fin.ext (stReg_val r.isLt).symm⟩⟩

theorem mem_wRegs {t : Nat} (ht : t ≤ 5) {r : Reg} : r ∈ wRegs t ↔ 5 ≤ r.val ∧ r.val < 5 + t :=
  ⟨fun ⟨i, hi, hr⟩ => by rw [hr, wReg_val (by omega)]; omega,
   fun ⟨h1, h2⟩ => ⟨r.val - 5, by omega, Fin.ext (by rw [wReg_val (by omega)]; omega)⟩⟩

theorem stReg_inj {i j : Nat} (hi : i < 5) (hj : j < 5) : stReg i = stReg j ↔ i = j := by
  rw [Fin.ext_iff, stReg_val (by omega), stReg_val (by omega)]

theorem wReg_inj {i j : Nat} (hi : i < 5) (hj : j < 5) : wReg i = wReg j ↔ i = j := by
  rw [Fin.ext_iff, wReg_val (by omega), wReg_val (by omega)]
  omega

theorem stReg_ne_wReg {i j : Nat} (hi : i < 5) (hj : j < 5) : stReg i ≠ wReg j := by
  rw [ne_eq, Fin.ext_iff, stReg_val (by omega), wReg_val (by omega)]
  omega

theorem stReg_ne_prReg {i : Nat} (hi : i < 5) : stReg i ≠ prReg := by
  rw [ne_eq, Fin.ext_iff, stReg_val (by omega)]
  exact Nat.ne_of_lt (Nat.lt_of_lt_of_le hi (by decide))

/-- The scratch registers lie above the working vector. -/
theorem wReg_ne_of_ten_le {i : Nat} (hi : i < 5) {r : Reg} (hr : 10 ≤ r.val) : wReg i ≠ r := by
  rw [ne_eq, Fin.ext_iff, wReg_val (by omega)]
  omega

theorem wReg_ne_x2Reg {i : Nat} (hi : i < 5) : wReg i ≠ x2Reg := wReg_ne_of_ten_le hi (by decide)
theorem wReg_ne_x4Reg {i : Nat} (hi : i < 5) : wReg i ≠ x4Reg := wReg_ne_of_ten_le hi (by decide)
theorem wReg_ne_prReg {i : Nat} (hi : i < 5) : wReg i ≠ prReg := wReg_ne_of_ten_le hi (by decide)

/-! ### The register that a micro-operation writes -/

section
variable (rd rs1 rs2 : Reg) (c : Fe) (s : State)

theorem afterOp_fadd_f : (afterOp (.fadd rd rs1 rs2) s).f[rd.val] = feAdd s.f[rs1.val] s.f[rs2.val] :=
  (writeF_f_get rd _ s rd.val rd.isLt).trans (if_pos rfl)

theorem afterOp_faddi_f : (afterOp (.faddi rd rs1 (feWord c)) s).f[rd.val] = feAdd s.f[rs1.val] c := by
  refine (writeF_f_get rd _ s rd.val rd.isLt).trans ?_
  rw [if_pos rfl, reduceWord_feWord]

theorem afterOp_fmuli_f : (afterOp (.fmuli rd rs1 (feWord c)) s).f[rd.val] = feMul s.f[rs1.val] c := by
  refine (writeF_f_get rd _ s rd.val rd.isLt).trans ?_
  rw [if_pos rfl, reduceWord_feWord]

end

/-! ### ARC -/

theorem arcTemplate_succ (n : Nat) (c : Nat → Fe) :
    arcTemplate (n + 1) c = arcTemplate n c ++ [.faddi (wReg n) (stReg n) (feWord (c n))] := by
  rw [arcTemplate, List.range_succ, List.map_append]
  rfl

theorem writtenBy_arcTemplate (n : Nat) (c : Nat → Fe) : writtenBy (arcTemplate n c) = wRegs n := by
  ext r
  simp [writtenBy, arcTemplate, wRegs, destOf, eq_comm]

/-- R104. -/
theorem arcTemplate_f {n j : Nat} (hn : n ≤ 5) (hj : j < n) (c : Nat → Fe) (s : State) :
    (afterOps (arcTemplate n c) s).f[(wReg j).val] = feAdd s.f[(stReg j).val] (c j) := by
  induction n with
  | zero => omega
  | succ n ih =>
    rw [arcTemplate_succ, afterOps_append, afterOps_cons, afterOps_nil]
    obtain rfl | hne := eq_or_ne j n
    · have hst : stReg j ∉ writtenBy (arcTemplate j c) := by
        rw [writtenBy_arcTemplate, mem_wRegs (by omega), stReg_val (by omega)]
        omega
      rw [afterOp_faddi_f, afterOps_f_of_not_written _ _ hst]
    · have hw (rs1 : Reg) (lit : Word) : destOf (.faddi (wReg n) rs1 lit) ≠ some (wReg j) := by
        rw [ne_eq, destOf, Option.some_inj, wReg_inj (by omega) (by omega)]
        omega
      rw [afterOp_f_of_not_dest _ _ (hw _ _), ih (by omega) (by omega)]

/-! ### The S-boxes -/

theorem sboxFullTemplate_succ (n : Nat) : sboxFullTemplate (n + 1) = sboxFullTemplate n ++ sboxTemplate n := by
  rw [sboxFullTemplate, List.range_succ, List.flatMap_append, List.flatMap_singleton]
  rfl

/-- SBOXP is SBOXF of one slot. -/
theorem sboxPartialTemplate_eq : sboxPartialTemplate = sboxFullTemplate 1 := rfl

theorem mem_writtenBy_sboxTemplate {j : Nat} {r : Reg} :
    r ∈ writtenBy (sboxTemplate j) ↔ r = x2Reg ∨ r = x4Reg ∨ r = wReg j := by
  simp [sboxTemplate, destOf, eq_comm]

theorem mem_writtenBy_sboxFullTemplate {n : Nat} {r : Reg} :
    r ∈ writtenBy (sboxFullTemplate n) ↔ 0 < n ∧ (r = x2Reg ∨ r = x4Reg) ∨ r ∈ wRegs n := by
  simp only [sboxFullTemplate, mem_writtenBy_flatMap, mem_writtenBy_sboxTemplate, List.mem_range, wRegs,
    Set.mem_ofPred_eq]
  constructor
  · rintro ⟨j, hj, h | h | h⟩
    · exact .inl ⟨by omega, .inl h⟩
    · exact .inl ⟨by omega, .inr h⟩
    · exact .inr ⟨j, hj, h⟩
  · rintro (⟨hn, h | h⟩ | ⟨j, hj, h⟩)
    · exact ⟨0, hn, .inl h⟩
    · exact ⟨0, hn, .inr (.inl h)⟩
    · exact ⟨j, hj, .inr (.inr h)⟩

/-- The slots that `n` S-boxes do not reach. -/
theorem wReg_not_mem_sboxFullTemplate {n j : Nat} (hn : n ≤ j) (hj : j < 5) :
    wReg j ∉ writtenBy (sboxFullTemplate n) := by
  have hw : wReg j ∉ wRegs n := by
    rw [mem_wRegs (by omega), wReg_val (by omega)]
    omega
  simp [mem_writtenBy_sboxFullTemplate, wReg_ne_x2Reg hj, wReg_ne_x4Reg hj, hw]

/-- R105: three multiplications, with the square and the fourth power left in the scratch registers. -/
theorem sboxTemplate_f {j : Nat} (hj : j < 5) (s : State) :
    let x := s.f[(wReg j).val]
    let s' := afterOps (sboxTemplate j) s
    s'.f[(wReg j).val] = sbox x ∧ s'.f[x2Reg.val] = feMul x x ∧ s'.f[x4Reg.val] = feMul (feMul x x) (feMul x x) := by
  have hw := wReg_val (i := j) (by omega)
  have h10 : ¬ 5 + j = 10 := by omega
  have h11 : ¬ 5 + j = 11 := by omega
  simp [sboxTemplate, afterOp, sbox, x2Reg, x4Reg, hw, eq_comm, h10, h11]

/-- R106, the slots. -/
theorem sboxFullTemplate_f {n j : Nat} (hn : n ≤ 5) (hj : j < n) (s : State) :
    (afterOps (sboxFullTemplate n) s).f[(wReg j).val] = sbox s.f[(wReg j).val] := by
  induction n with
  | zero => omega
  | succ n ih =>
    rw [sboxFullTemplate_succ, afterOps_append]
    have hj5 : j < 5 := by omega
    obtain rfl | hne := eq_or_ne j n
    · rw [(sboxTemplate_f hj5 _).1, afterOps_f_of_not_written _ _ (wReg_not_mem_sboxFullTemplate le_rfl hj5)]
    · have hw : wReg j ∉ writtenBy (sboxTemplate n) := by
        simp [mem_writtenBy_sboxTemplate, wReg_ne_x2Reg hj5, wReg_ne_x4Reg hj5, wReg_inj (j := n) hj5 (by omega), hne]
      rw [afterOps_f_of_not_written _ _ hw, ih (by omega) (by omega)]

/-- R106, the scratch registers: those of the last S-box. -/
theorem sboxFullTemplate_scratch {n : Nat} (hn : n < 5) (s : State) :
    let x := s.f[(wReg n).val]
    let s' := afterOps (sboxFullTemplate (n + 1)) s
    s'.f[x2Reg.val] = feMul x x ∧ s'.f[x4Reg.val] = feMul (feMul x x) (feMul x x) := by
  have hlast := (sboxTemplate_f hn (afterOps (sboxFullTemplate n) s)).2
  rwa [afterOps_f_of_not_written _ _ (wReg_not_mem_sboxFullTemplate le_rfl hn), ← afterOps_append, ← sboxFullTemplate_succ] at hlast

/-! ### MIX -/

/-- The first `n` terms of a row of MIX after its first product. -/
def mixTerms (m : Nat → Nat → Fe) (i n : Nat) : List Instr :=
  (List.range n).flatMap fun j =>
    [.fmuli prReg (wReg (j + 1)) (feWord (m i (j + 1))), .fadd (stReg i) (stReg i) prReg]

theorem mixTerms_succ (m : Nat → Nat → Fe) (i n : Nat) : mixTerms m i (n + 1) = mixTerms m i n ++
    [.fmuli prReg (wReg (n + 1)) (feWord (m i (n + 1))), .fadd (stReg i) (stReg i) prReg] := by
  rw [mixTerms, List.range_succ, List.flatMap_append, List.flatMap_singleton]
  rfl

theorem mixRow_eq (t : Nat) (m : Nat → Nat → Fe) (i : Nat) :
    mixRow t m i = .fmuli (stReg i) (wReg 0) (feWord (m i 0)) :: mixTerms m i (t - 1) := rfl

theorem mem_writtenBy_mixTerms {m : Nat → Nat → Fe} {i n : Nat} {r : Reg} :
    r ∈ writtenBy (mixTerms m i n) ↔ 0 < n ∧ (r = prReg ∨ r = stReg i) := by
  simp only [mixTerms, mem_writtenBy_flatMap, mem_writtenBy_cons, not_mem_writtenBy_nil, destOf, Option.some_inj,
    List.mem_range, or_false, eq_comm (b := r)]
  exact ⟨fun ⟨j, hj, h⟩ => ⟨by omega, h⟩, fun ⟨hn, h⟩ => ⟨0, hn, h⟩⟩

theorem mem_writtenBy_mixRow {t : Nat} {m : Nat → Nat → Fe} {i : Nat} {r : Reg} :
    r ∈ writtenBy (mixRow t m i) ↔ r = stReg i ∨ 1 < t ∧ r = prReg := by
  rw [mixRow_eq, mem_writtenBy_cons, mem_writtenBy_mixTerms, destOf, Option.some_inj, eq_comm, Nat.sub_pos_iff_lt]
  tauto

/-- Row `i` writes nothing of the working vector. -/
theorem wReg_not_mem_mixTerms {m : Nat → Nat → Fe} {i n j : Nat} (hi : i < 5) (hj : j < 5) :
    wReg j ∉ writtenBy (mixTerms m i n) := by
  simp [mem_writtenBy_mixTerms, wReg_ne_prReg hj, (stReg_ne_wReg hi hj).symm]

theorem mixTerms_f {i n : Nat} (hi : i < 5) (hn : n < 5) (m : Nat → Nat → Fe) (s : State) :
    (afterOps (mixTerms m i n) s).f[(stReg i).val] = (List.range n).foldl
      (fun acc j => feAdd acc (feMul s.f[(wReg (j + 1)).val] (m i (j + 1)))) s.f[(stReg i).val] := by
  induction n with
  | zero => rfl
  | succ n ih =>
    have hst (rs1 : Reg) (lit : Word) : destOf (.fmuli prReg rs1 lit) ≠ some (stReg i) := by
      simpa [destOf] using (stReg_ne_prReg hi).symm
    rw [mixTerms_succ, afterOps_append, afterOps_cons, afterOps_cons, afterOps_nil, afterOp_fadd_f, afterOp_fmuli_f,
      afterOp_f_of_not_dest _ _ (hst _ _), ih (by omega), afterOps_f_of_not_written _ _ (wReg_not_mem_mixTerms hi hn),
      List.range_succ, List.foldl_append]
    rfl

theorem mixTerms_scratch {i n : Nat} (hi : i < 5) (hn : n + 1 < 5) (m : Nat → Nat → Fe) (s : State) :
    (afterOps (mixTerms m i (n + 1)) s).f[prReg.val] = feMul s.f[(wReg (n + 1)).val] (m i (n + 1)) := by
  have hst (rs1 rs2 : Reg) : destOf (.fadd (stReg i) rs1 rs2) ≠ some prReg := by
    simpa [destOf] using stReg_ne_prReg hi
  rw [mixTerms_succ, afterOps_append, afterOps_cons, afterOps_cons, afterOps_nil, afterOp_f_of_not_dest _ _ (hst _ _),
    afterOp_fmuli_f, afterOps_f_of_not_written _ _ (wReg_not_mem_mixTerms hi hn)]

end Machine

end Sys2Proof

/-! ### The rows of MIX, and the templates as the layers of a round (R102) -/

namespace Sys2Proof

namespace Machine

/-- The working vector `w_0 .. w_(t-1)` (R12). -/
def workVector (t : Nat) (s : State) : List Fe := (List.range t).map fun i => s.f[(wReg i).val]

theorem workVector_getD {t j : Nat} (hj : j < t) (s : State) : (workVector t s).getD j feZero = s.f[(wReg j).val] := by
  simp [workVector, hj]

theorem stateVector_eq {t : Nat} (ht : t ≤ 5) (s : State) :
    stateVector t s = (List.range t).map fun i => s.f[(stReg i).val] := by
  have hlen : t ≤ 16 := by omega
  refine List.ext_getElem (by simp [stateVector, hlen]) fun i h1 h2 => ?_
  have hi : i < t := by simpa using h2
  simp [stateVector, stReg_val (i := i) (by omega)]

/-- The first `n` rows of MIX at width `t`. -/
def mixRows (t : Nat) (m : Nat → Nat → Fe) (n : Nat) : List Instr := (List.range n).flatMap (mixRow t m)

theorem mixTemplate_eq (t : Nat) (m : Nat → Nat → Fe) : mixTemplate t m = mixRows t m t := rfl

theorem mixRows_succ (t : Nat) (m : Nat → Nat → Fe) (n : Nat) :
    mixRows t m (n + 1) = mixRows t m n ++ mixRow t m n := by
  rw [mixRows, List.range_succ, List.flatMap_append, List.flatMap_singleton]
  rfl

theorem mem_writtenBy_mixRows {t n : Nat} {m : Nat → Nat → Fe} {r : Reg} :
    r ∈ writtenBy (mixRows t m n) ↔ r ∈ stRegs n ∨ 0 < n ∧ 1 < t ∧ r = prReg := by
  simp only [mixRows, mem_writtenBy_flatMap, mem_writtenBy_mixRow, List.mem_range, stRegs, Set.mem_ofPred_eq]
  constructor
  · rintro ⟨j, hj, h | h⟩
    · exact .inl ⟨j, hj, h⟩
    · exact .inr ⟨by omega, h⟩
  · rintro (⟨j, hj, h⟩ | ⟨hn, h⟩)
    · exact ⟨j, hj, .inl h⟩
    · exact ⟨0, hn, .inr h⟩

section
variable {t n j : Nat} {m : Nat → Nat → Fe}

theorem wReg_not_mem_mixRows (hn : n ≤ 5) (hj : j < 5) : wReg j ∉ writtenBy (mixRows t m n) := by
  have hst : wReg j ∉ stRegs n := by
    rw [mem_stRegs hn, wReg_val (by omega)]
    omega
  simp [mem_writtenBy_mixRows, wReg_ne_prReg hj, hst]

theorem workVector_afterOps {l : List Instr} (h : ∀ j < t, wReg j ∉ writtenBy l) (s : State) :
    workVector t (afterOps l s) = workVector t s :=
  List.map_congr_left fun j hj => afterOps_f_of_not_written l s (h j (List.mem_range.mp hj))

end

/-- R107, one row: the product of the matrix row with the working vector. -/
theorem mixRow_f {t i : Nat} (ht : 0 < t) (ht5 : t ≤ 5) (hi : i < 5) (m : Nat → Nat → Fe) (s : State) :
    (afterOps (mixRow t m i) s).f[(stReg i).val] = rowProduct t (m i) (workVector t s) := by
  have hwork {j : Nat} (hj : j < 5) (rs1 : Reg) (lit : Word) :
      (afterOp (.fmuli (stReg i) rs1 lit) s).f[(wReg j).val] = s.f[(wReg j).val] :=
    afterOp_f_of_not_dest _ s (by simpa [destOf] using stReg_ne_wReg hi hj)
  rw [mixRow_eq, afterOps_cons, mixTerms_f hi (by omega), afterOp_fmuli_f, rowProduct, workVector_getD ht]
  refine List.foldl_ext _ _ _ fun acc j hj => ?_
  have hj : j + 1 < t := by have := List.mem_range.mp hj; omega
  rw [hwork (by omega), workVector_getD hj]

/-- R107, the slots. -/
theorem mixRows_f {t n i : Nat} (ht : 0 < t) (ht5 : t ≤ 5) (hn : n ≤ 5) (hi : i < n) (m : Nat → Nat → Fe) (s : State) :
    (afterOps (mixRows t m n) s).f[(stReg i).val] = rowProduct t (m i) (workVector t s) := by
  induction n with
  | zero => omega
  | succ n ih =>
    rw [mixRows_succ, afterOps_append]
    obtain rfl | hne := eq_or_ne i n
    · rw [mixRow_f ht ht5 hn, workVector_afterOps fun j hj => wReg_not_mem_mixRows (by omega) (by omega)]
    · have hst : stReg i ∉ writtenBy (mixRow t m n) := by
        simp [mem_writtenBy_mixRow, stReg_inj (i := i) (j := n) (by omega) (by omega), hne,
          stReg_ne_prReg (i := i) (by omega)]
      rw [afterOps_f_of_not_written _ _ hst, ih (by omega) (by omega)]

/-- R107, the scratch register: the last product. -/
theorem mixTemplate_scratch {t : Nat} (ht : 1 < t) (ht5 : t ≤ 5) (m : Nat → Nat → Fe) (s : State) :
    (afterOps (mixTemplate t m) s).f[prReg.val] = feMul s.f[(wReg (t - 1)).val] (m (t - 1) (t - 1)) := by
  obtain ⟨n, rfl⟩ : ∃ n, t = n + 2 := ⟨t - 2, by omega⟩
  have hwork (rs1 : Reg) (lit : Word) (s : State) :
      (afterOp (.fmuli (stReg (n + 1)) rs1 lit) s).f[(wReg (n + 1)).val] = s.f[(wReg (n + 1)).val] :=
    afterOp_f_of_not_dest _ s (by simpa [destOf] using stReg_ne_wReg (by omega) (by omega))
  rw [mixTemplate_eq, mixRows_succ, afterOps_append, mixRow_eq, afterOps_cons]
  simp only [Nat.add_one_sub_one]
  rw [mixTerms_scratch (by omega) (by omega), hwork,
    afterOps_f_of_not_written _ _ (wReg_not_mem_mixRows (by omega) (by omega))]

/-! ### The layers of a round -/

theorem workVector_arcTemplate {t : Nat} (ht : t ≤ 5) (c : Nat → Fe) (s : State) :
    workVector t (afterOps (arcTemplate t c) s) = addConstants c (stateVector t s) := by
  rw [stateVector_eq ht]
  refine List.ext_getElem (by simp [workVector, addConstants]) fun i h1 h2 => ?_
  have hi : i < t := by simpa [workVector] using h1
  simpa [workVector, addConstants] using arcTemplate_f ht hi c s

theorem workVector_sboxFullTemplate {t : Nat} (ht : t ≤ 5) (full : Bool) (s : State) :
    workVector t (afterOps (sboxFullTemplate (if full then t else 1)) s) = sboxLayer full (workVector t s) := by
  refine List.ext_getElem (by simp [workVector, sboxLayer]) fun i h1 h2 => ?_
  have hi : i < t := by simpa [workVector] using h1
  simp only [workVector, sboxLayer, List.getElem_map, List.getElem_range, List.getElem_mapIdx]
  cases full with
  | true => exact sboxFullTemplate_f ht hi s
  | false =>
    obtain rfl | hne := eq_or_ne i 0
    · exact sboxFullTemplate_f (by omega) Nat.one_pos s
    · have hw := wReg_not_mem_sboxFullTemplate (n := 1) (j := i) (by omega) (by omega)
      simpa [hne] using afterOps_f_of_not_written _ s hw

theorem stateVector_mixTemplate {t : Nat} (ht : 0 < t) (ht5 : t ≤ 5) (m : Nat → Nat → Fe) (s : State) :
    stateVector t (afterOps (mixTemplate t m) s) = mixLayer t m (workVector t s) := by
  rw [stateVector_eq ht5]
  exact List.map_congr_left fun i hi => mixRows_f ht ht5 ht5 (List.mem_range.mp hi) m s

/-! ### The S-box and the row product as arithmetic modulo `P` -/

theorem val_sbox (x : Fe) : (sbox x).val = x.val ^ 5 % Config.P := by
  have hpow : x.val ^ 5 = x.val * x.val * (x.val * x.val) * x.val := by ring
  simp only [sbox, val_feMul, hpow, Nat.mul_mod, Nat.mod_mod]

/-- Settles O3: the listed values are those of the power. -/
theorem sboxIsFifthPower : Obligations.SboxIsFifthPower := by
  unfold Obligations.SboxIsFifthPower
  intro x
  rw [val_sbox]
  refine ⟨rfl, rfl, fun h => ?_, fun h => ?_, fun h => ?_, fun h => ?_⟩ <;> rw [h]
  all_goals decide

theorem val_foldl_products (x : Fe) (a b : Nat → Fe) (n : Nat) :
    ((List.range n).foldl (fun acc j => feAdd acc (feMul (a j) (b j))) x).val =
      (x.val + ((List.range n).map fun j => (b j).val * (a j).val).sum) % Config.P := by
  induction n with
  | zero => exact (Nat.mod_eq_of_lt x.isLt).symm
  | succ n ih =>
    rw [List.range_succ, List.foldl_append, List.map_append, List.sum_append, List.foldl_cons, List.foldl_nil, val_feAdd,
      val_feMul, ih, ← Nat.add_mod, Nat.mul_comm (a n).val, add_assoc]
    simp

theorem val_rowProduct {t : Nat} (ht : 0 < t) (row : Nat → Fe) (w : List Fe) : (rowProduct t row w).val =
    ((List.range t).map fun j => (row j).val * (w.getD j feZero).val).sum % Config.P := by
  obtain ⟨n, rfl⟩ : ∃ n, t = n + 1 := ⟨t - 1, by omega⟩
  rw [rowProduct, val_foldl_products, val_feMul, Nat.mod_add_mod, List.range_succ_eq_map, List.map_cons, List.sum_cons,
    List.map_map, Nat.mul_comm]
  rfl

end Machine

end Sys2Proof

/-! ### The templates' statements (R104 to R107) -/

namespace Sys2Proof

namespace Machine

/-! #### Constants counted (R20, R85) -/

theorem countP_isFaddi_arcTemplate (t : Nat) (c : Nat → Fe) : (arcTemplate t c).countP isFaddi = t := by
  have hall : ∀ i ∈ arcTemplate t c, isFaddi i = true := by
    intro i hi
    obtain ⟨j, -, rfl⟩ := List.mem_map.mp hi
    rfl
  rw [List.countP_eq_length.mpr hall, length_arcTemplate]

theorem countP_isFaddi_sboxFullTemplate (n : Nat) : (sboxFullTemplate n).countP isFaddi = 0 := by
  refine List.countP_eq_zero.mpr fun i hi => ?_
  obtain ⟨j, -, hj⟩ := List.mem_flatMap.mp hi
  simp only [sboxTemplate, List.mem_cons, List.not_mem_nil, or_false] at hj
  obtain rfl | rfl | rfl := hj <;> exact Bool.false_ne_true

theorem countP_isFaddi_mixTemplate (t : Nat) (m : Nat → Nat → Fe) : (mixTemplate t m).countP isFaddi = 0 := by
  refine List.countP_eq_zero.mpr fun i hi => ?_
  obtain ⟨r, -, hr⟩ := List.mem_flatMap.mp hi
  obtain rfl | hr := List.mem_cons.mp hr
  · exact Bool.false_ne_true
  · obtain ⟨j, -, hj⟩ := List.mem_flatMap.mp hr
    simp only [List.mem_cons, List.not_mem_nil, or_false] at hj
    obtain rfl | rfl := hj <;> exact Bool.false_ne_true

/-! #### The frame and the valid bits -/

/-- What a list of micro-operations changes: `F`, `VF`, and the two counters by their amounts (R88). -/
theorem afterOps_frame_counted {l : List Instr} (hl : ∀ i ∈ l, isMicroOp i = true) (s : State) : afterOps l s =
    { s with f := (afterOps l s).f, vf := (afterOps l s).vf, upc := s.upc + BitVec.ofNat 32 l.length,
             rccnt := s.rccnt + BitVec.ofNat 32 (l.countP isFaddi) } := by
  rw [← afterOps_upc l s hl, ← afterOps_rccnt]
  exact afterOps_frame l s

theorem validF_afterOps_eq {l : List Instr} {r : Reg} {p : Prop} [Decidable p] (h : r ∈ writtenBy l ↔ p) (s : State) :
    validF r.val (afterOps l s) = (validF r.val s || decide p) :=
  Bool.eq_iff_iff.mpr (by simp [validF_afterOps, h])

theorem completes_sboxFullTemplate {t n : Nat} (hn : n ≤ t) :
    Completes (wRegs t) (sboxFullTemplate n) (wRegs t) :=
  completes_flatMap fun j hj => completes_sboxTemplate ⟨j, Nat.lt_of_lt_of_le (List.mem_range.mp hj) hn, rfl⟩

/-- Settles O44: the list completes, and `w_i` gets its sum. -/
theorem arcTemplateAddsConstants : Obligations.ArcTemplateAddsConstants := by
  unfold Obligations.ArcTemplateAddsConstants
  intro t c s ht hv
  have ht5 : t ≤ 5 := by omega
  have hwritten (i : Reg) : i ∈ writtenBy (arcTemplate t c) ↔ 5 ≤ i.val ∧ i.val < 5 + t := by
    rw [writtenBy_arcTemplate, mem_wRegs ht5]
  have hframe := afterOps_frame_counted (arcTemplate_microOps t c) s
  rw [length_arcTemplate, countP_isFaddi_arcTemplate] at hframe
  refine ⟨_, (completes_arcTemplate le_rfl c).runList_eq (arcTemplate_microOps t c) ((allValid_stRegs ht5).mpr hv),
    fun i => ?_, fun i => validF_afterOps_eq (hwritten i) s, hframe⟩
  split
  next hi =>
    obtain ⟨j, hj, rfl⟩ := (mem_wRegs ht5).mpr hi
    have hsub : (wReg j).val - 5 = j := by rw [wReg_val (by omega)]; omega
    simpa [hsub, stReg_val (i := j) (by omega)] using arcTemplate_f ht5 hj c s
  next hi => exact afterOps_f_of_not_written _ s (mt (hwritten i).mp hi)

/-- Settles O45: SBOXP is SBOXF of one slot, and the scratch registers are those of the last slot. -/
theorem sboxTemplatesRaiseToFifth : Obligations.SboxTemplatesRaiseToFifth := by
  unfold Obligations.SboxTemplatesRaiseToFifth
  intro t full s ht hv n
  have hn : 0 < n ∧ n ≤ t := by cases full <;> (simp only [n, if_true, if_neg Bool.false_ne_true]; omega)
  have hlist : (if full then sboxFullTemplate t else sboxPartialTemplate) = sboxFullTemplate n := by
    rw [sboxPartialTemplate_eq]; exact (apply_ite sboxFullTemplate _ _ _).symm
  have hn5 : n ≤ 5 := by omega
  clear_value n
  have hwritten (i : Reg) : i ∈ writtenBy (sboxFullTemplate n) ↔
      (i.val = 10 ∨ i.val = 11) ∨ 5 ≤ i.val ∧ i.val < 5 + n := by
    rw [mem_writtenBy_sboxFullTemplate, mem_wRegs hn5, and_iff_right hn.1, Fin.ext_iff, Fin.ext_iff]
    rfl
  have hframe := afterOps_frame_counted (sboxFullTemplate_microOps n) s
  rw [length_sboxFullTemplate, countP_isFaddi_sboxFullTemplate] at hframe
  rw [hlist]
  refine ⟨_, (completes_sboxFullTemplate hn.2).runList_eq (sboxFullTemplate_microOps n)
    ((allValid_wRegs (by omega)).mpr hv), fun i h10 h11 => ?_, fun j hj => ?_, fun i => ?_, by simpa using hframe⟩
  · split
    next hi =>
      obtain ⟨j, hj, rfl⟩ := (mem_wRegs hn5).mpr hi
      exact sboxFullTemplate_f hn5 hj s
    next hi => exact afterOps_f_of_not_written _ s fun h => ((hwritten i).mp h).elim (by omega) hi
  · obtain ⟨u, rfl⟩ : ∃ u, n = u + 1 := ⟨n - 1, by omega⟩
    obtain rfl : j = wReg u := Fin.ext (by rw [wReg_val (by omega)]; omega)
    obtain ⟨h2, h4⟩ := sboxFullTemplate_scratch (n := u) (by omega) s
    exact ⟨h2, h4.trans (congrArg₂ feMul h2.symm h2.symm)⟩
  · rw [validF_afterOps_eq (hwritten i)]
    have hwork (h : 5 ≤ i.val ∧ i.val < 5 + n) : validF i.val s = true := by
      have := hv (i.val - 5) (by omega)
      rwa [Nat.add_sub_cancel' h.1] at this
    by_cases h : 5 ≤ i.val ∧ i.val < 5 + n
    · simp [hwork h]
    · simp [h]

/-- Settles O46: each row is a product of the matrix row with the working vector. -/
theorem mixTemplateMultipliesMatrix : Obligations.MixTemplateMultipliesMatrix := by
  unfold Obligations.MixTemplateMultipliesMatrix
  intro t m s ht hv
  have ht5 : t ≤ 5 := by omega
  have ht1 : 1 < t := by omega
  have hwritten (i : Reg) : i ∈ writtenBy (mixTemplate t m) ↔ i.val < t ∨ i.val = 12 := by
    rw [mixTemplate_eq, mem_writtenBy_mixRows, mem_stRegs ht5, and_iff_right (by omega), and_iff_right ht1, Fin.ext_iff]
    rfl
  have hlen : t * (2 * (t - 1) + 1) = 2 * t * t - t := by
    obtain rfl | rfl := ht <;> rfl
  have hframe := afterOps_frame_counted (mixTemplate_microOps t m) s
  rw [length_mixTemplate, countP_isFaddi_mixTemplate, hlen] at hframe
  refine ⟨_, (completes_mixTemplate (by omega) m).runList_eq (mixTemplate_microOps t m) ((allValid_wRegs ht5).mpr hv),
    fun i hi => ?_, fun j hj => ?_, fun i h1 h2 => ?_, fun i => validF_afterOps_eq (hwritten i) s, by simpa using hframe⟩
  · obtain ⟨r, hr, rfl⟩ := (mem_stRegs ht5).mpr hi
    rw [mixTemplate_eq, mixRows_f (by omega) ht5 ht5 hr, val_rowProduct (by omega), stReg_val (by omega)]
    refine congrArg (List.sum · % Config.P) (List.map_congr_left fun j hj => ?_)
    have hj := List.mem_range.mp hj
    rw [workVector_getD hj]
    simp [wReg_val (i := j) (by omega), List.getD_eq_getElem?_getD, show 5 + j < 16 by omega]
  · obtain rfl : j = wReg (t - 1) := Fin.ext (by rw [wReg_val (by omega)]; omega)
    exact mixTemplate_scratch ht1 ht5 m s
  · exact afterOps_f_of_not_written _ s fun h => ((hwritten i).mp h).elim (by omega) h2

/-! ### The schedule (R101) -/

theorem isFull_iff {b : Bank} {r : Nat} : isFull b r = true ↔ r < b.rf.toNat / 2 ∨ b.rf.toNat / 2 + b.rp.toNat ≤ r := by
  simp [isFull]

/-- Settles O47: the first half of the full rounds, the partial rounds, the other half. -/
theorem scheduleHasDeclaredRounds : Obligations.ScheduleHasDeclaredRounds := by
  unfold Obligations.ScheduleHasDeclaredRounds
  intro b hrf
  have hcount : ((List.range (b.rf.toNat + b.rp.toNat)).filter (isFull b)).length = b.rf.toNat := by
    have hR : b.rf.toNat + b.rp.toNat = b.rf.toNat / 2 + (b.rp.toNat + b.rf.toNat / 2) := by omega
    have hfirst : (List.range (b.rf.toNat / 2)).filter (isFull b) = List.range (b.rf.toNat / 2) :=
      List.filter_eq_self.mpr fun r hr => isFull_iff.mpr (.inl (List.mem_range.mp hr))
    have hmiddle : ((List.range b.rp.toNat).map (b.rf.toNat / 2 + ·)).filter (isFull b) = [] := by
      refine List.filter_eq_nil_iff.mpr fun r hr => ?_
      obtain ⟨i, hi, rfl⟩ := List.mem_map.mp hr
      have hi := List.mem_range.mp hi
      rw [isFull_iff]
      omega
    have hlast : (((List.range (b.rf.toNat / 2)).map (b.rp.toNat + ·)).map (b.rf.toNat / 2 + ·)).filter (isFull b) =
        ((List.range (b.rf.toNat / 2)).map (b.rp.toNat + ·)).map (b.rf.toNat / 2 + ·) := by
      refine List.filter_eq_self.mpr fun r hr => ?_
      simp only [List.map_map, List.mem_map, Function.comp_apply] at hr
      obtain ⟨i, -, rfl⟩ := hr
      exact isFull_iff.mpr (.inr (by omega))
    rw [hR, List.range_add, List.range_add, List.map_append, List.filter_append, List.filter_append, hfirst, hmiddle, hlast]
    simp only [List.length_append, List.length_map, List.length_range, List.length_nil]
    omega
  refine ⟨hcount, ?_, fun r hr => ?_⟩
  · have hsplit := List.length_eq_length_filter_add (l := List.range (b.rf.toNat + b.rp.toNat)) (isFull b)
    rw [hcount, List.length_range] at hsplit
    omega
  · rw [isFull_iff]
    omega

end Machine

end Sys2Proof

/-! ## A round and the whole generated list (R102, R108, R117, R121) -/

namespace Sys2Proof

namespace Machine

/-- The S-box step of either kind of round is SBOXF of the slots that the round raises (R106). -/
theorem sboxStep_eq (b : Bank) (r : Nat) : sboxStep b r = sboxFullTemplate (if isFull b r then b.width else 1) := by
  rw [sboxStep, sboxPartialTemplate_eq]
  exact (apply_ite sboxFullTemplate _ _ _).symm

section
variable {b : Bank} (ht : 0 < b.width)
include ht

/-- R102: a round's list computes a round of the permutation. -/
theorem stateVector_roundList (ht5 : b.width ≤ 5) (r : Nat) (s : State) :
    stateVector b.width (afterOps (roundList b r) s) = permRound b r (stateVector b.width s) := by
  rw [roundList, afterOps_append, afterOps_append, stateVector_mixTemplate ht ht5, sboxStep_eq,
    workVector_sboxFullTemplate ht5, workVector_arcTemplate ht5, permRound]

theorem stateVector_rounds (ht5 : b.width ≤ 5) (n : Nat) (s : State) :
    stateVector b.width (afterOps ((List.range n).flatMap (roundList b)) s) = permRounds b n (stateVector b.width s) := by
  induction n with
  | zero => rfl
  | succ n ih =>
    rw [List.range_succ, List.flatMap_append, List.flatMap_singleton, afterOps_append, stateVector_roundList ht ht5, ih]
    rfl

/-- R125: the generated list computes `Perm_k`. -/
theorem stateVector_genList (ht5 : b.width ≤ 5) (s : State) :
    stateVector b.width (afterOps (genList b) s) = perm b (stateVector b.width s) :=
  stateVector_rounds ht ht5 b.rounds s

theorem completes_roundList (r : Nat) : Completes (stRegs b.width) (roundList b r) (stRegs b.width) := by
  have hsbox := (completes_sboxStep ht r).union (sboxStep_microOps b r) (stRegs b.width)
  have hmix := (completes_mixTemplate ht b.mds).union (mixTemplate_microOps b.width b.mds) (stRegs b.width)
  rw [Set.union_comm] at hsbox hmix
  refine (completes_arcTemplate le_rfl _).append (hsbox.append fun s hs => ?_)
  obtain ⟨s', he, hv⟩ := hmix s hs
  exact ⟨s', he, fun r hr => hv r (.inl hr)⟩

/-- R117: from a state with valid slots the generated list raises nothing. -/
theorem completes_genList : Completes (stRegs b.width) (genList b) (stRegs b.width) :=
  completes_flatMap fun r _ => completes_roundList ht r

end

/-! ### Its constants, and the registers it leaves alone -/

theorem countP_isFaddi_roundList (b : Bank) (r : Nat) : (roundList b r).countP isFaddi = b.width := by
  rw [roundList, List.countP_append, List.countP_append, countP_isFaddi_arcTemplate, sboxStep_eq,
    countP_isFaddi_sboxFullTemplate, countP_isFaddi_mixTemplate, add_zero, add_zero]

/-- R111: a run counts `t*R` constants. -/
theorem countP_isFaddi_genList (b : Bank) : (genList b).countP isFaddi = b.width * b.rounds := by
  have hround : List.countP isFaddi ∘ roundList b = Function.const Nat b.width := funext (countP_isFaddi_roundList b)
  rw [genList, List.countP_flatMap, hround, List.map_const, List.sum_replicate, List.length_range, smul_eq_mul,
    Nat.mul_comm]

/-- R117, R124: the registers that no micro-operation of a run names. -/
theorem untouched_not_written {k : BankId} {b : Bank} (hw : b.width = widthOf k) {i : Reg} (h : Untouched k i.val) :
    i ∉ writtenBy (genList b) := by
  obtain ⟨ht, ht5⟩ := hw ▸ widthOf_bounds k
  have hfree : b.width ≤ i.val ∧ (i.val < 5 ∨ 5 + b.width ≤ i.val) ∧ i.val ≠ 10 ∧ i.val ≠ 11 ∧ i.val ≠ 12 := by
    rw [hw]
    rcases bankId_cases k with rfl | rfl
    · have hwidth : widthOf 0 = 3 := rfl
      simp only [Untouched] at h
      omega
    · have hwidth : widthOf 1 = 5 := rfl
      simp only [Untouched, one_ne_zero, false_and, or_false] at h
      omega
  rw [genList, mem_writtenBy_flatMap]
  rintro ⟨r, -, hr⟩
  rw [roundList, sboxStep_eq] at hr
  have hn : (if isFull b r then b.width else 1) ≤ b.width := by split <;> omega
  generalize (if isFull b r then b.width else 1) = n at hr hn
  simp only [mem_writtenBy_append, writtenBy_arcTemplate, mem_writtenBy_sboxFullTemplate, mixTemplate_eq,
    mem_writtenBy_mixRows, mem_wRegs ht5, mem_wRegs (hn.trans ht5), mem_stRegs ht5, Fin.ext_iff] at hr
  have h10 : x2Reg.val = 10 := rfl
  have h11 : x4Reg.val = 11 := rfl
  have h12 : prReg.val = 12 := rfl
  omega

end Machine

end Sys2Proof

/-! ## The engine's steps with no transaction of the host to come -/

namespace Sys2Proof

namespace Machine

/-! ### The step of a busy core -/

/-- A transaction that is not due, or that a busy core holds, is not taken (R40). -/
theorem takeDue_eq_none_of_not_due {l : List Pending} (h : ∀ p ∈ l, p.delay = 0 → enabledWhileBusy p.txn = false) :
    takeDue l = none := by
  induction l with
  | nil => rfl
  | cons p rest ih =>
    have hp : ¬ (p.delay = 0 ∧ enabledWhileBusy p.txn = true) := fun ⟨hd, he⟩ =>
      absurd ((h p (List.mem_cons_self ..) hd).symm.trans he) Bool.false_ne_true
    rw [takeDue, if_neg hp, ih fun q hq => h q (List.mem_cons_of_mem _ hq)]

/-- Settles O27: no transaction is taken, so the engine fetches and performs the word. -/
theorem stepRunsFetchedMicroOp : Obligations.StepRunsFetchedMicroOp := by
  unfold Obligations.StepRunsFetchedMicroOp
  intro w i s hb hu hp hw hd
  have hengine : step s = engineStep (withPending (tick s.pending) s) := by
    rw [step, if_pos hb, busyStep, takeDue_eq_none_of_not_due hp]
    rfl
  rw [hengine, engineStep, withPending_umode, if_pos hu]
  exact unrolledStep_of_decoded (upc_ne_length_of_word (s := withPending (tick s.pending) s) hw)
    (fetchUop_of_word (s := withPending (tick s.pending) s) hw) hd

section
variable {s : State} (hb : s.busy = true) (hp : s.pending = [])
include hb hp

theorem step_of_busy_alone : step s = engineStep s := by
  have hs : withPending [] s = s := by rw [withPending, ← hp]
  calc step s = step (withPending [] s) := by rw [hs]
    _ = mapNext (withPending (tick [])) (engineStep s) := step_of_held hb (List.forall_mem_nil _)
    _ = engineStep (withPending [] s) := (engineStep_withPending [] s).symm
    _ = engineStep s := by rw [hs]

theorem step_of_loop_alone (hu : s.umode = false) : step s = loopStep s := by
  rw [step_of_busy_alone hb hp, engineStep, if_neg (by simp [hu])]

/-- The completion step (R114). -/
theorem step_of_ended (hend : if s.umode = true then s.upc.toNat = (bankAt s.ksel s).mem.pms.length
    else s.round = (bankAt s.ksel s).rounds) : step s = .next (completeRun s) := by
  cases hu : s.umode with
  | true =>
    rw [if_pos hu] at hend
    rw [step_of_unrolled_alone hb hu hp, unrolledStep_of_ended hend]
  | false =>
    rw [if_neg (by simp [hu])] at hend
    rw [step_of_loop_alone hb hp hu, loopStep_of_ended hend]

end

/-- Settles O29: both modes end in the completion step, which reads `HASHOP`. -/
theorem completionStepEndsTheRun : Obligations.CompletionStepEndsTheRun := by
  unfold Obligations.CompletionStepEndsTheRun
  intro s hb hp hend
  rw [step_of_ended hb hp hend]
  exact ⟨fun hh => by simp [completeRun, hh], fun hh => by simp [completeRun, hh]⟩

/-! ### A step of the loop sequencer (R110) -/

/-- The micro-operations that the sequencer executes in a phase of round `r`. -/
def phaseOps (b : Bank) (r : Nat) : Phase → List Instr
  | .idle => []
  | .arc => arcTemplate b.width (roundConstant b r)
  | .sbox => sboxStep b r
  | .mix => mixTemplate b.width b.mds

/-- The phase after a phase. -/
def phaseAfter : Phase → Phase
  | .idle => .idle
  | .arc => .sbox
  | .sbox => .mix
  | .mix => .arc

/-- The sequencer moved on to its next phase, and from MIX to the next round. -/
def nextPhase (s : State) : State := { (if s.phase = .mix then nextRound s else s) with phase := phaseAfter s.phase }

section
variable (s : State)

@[simp] theorem nextPhase_phase : (nextPhase s).phase = phaseAfter s.phase := rfl
@[simp] theorem nextPhase_umode : (nextPhase s).umode = s.umode := by unfold nextPhase; split <;> rfl
@[simp] theorem nextPhase_ksel : (nextPhase s).ksel = s.ksel := by unfold nextPhase; split <;> rfl
@[simp] theorem nextPhase_pending : (nextPhase s).pending = s.pending := by unfold nextPhase; split <;> rfl
@[simp] theorem bankAt_nextPhase (k : BankId) : bankAt k (nextPhase s) = bankAt k s := by
  unfold nextPhase; split <;> rfl

theorem nextPhase_round : (nextPhase s).round = if s.phase = .mix then s.round + 1 else s.round := by
  unfold nextPhase; split <;> rfl

end

section
variable {s : State} (h : s.Inv) (hb : s.busy = true) (hu : s.umode = false) (hp : s.pending = [])
include h hb hu hp

/-- R115: a step of a loop-mode run goes on with an empty record. -/
theorem step_of_loop_raises_nothing : ∃ t, step s = .next t ∧ t.ecause = 0 := by
  obtain ⟨t, ht, hrec⟩ := loopStep_raises_nothing h.steady ((h.running hb).loop hu)
  exact ⟨t, (step_of_loop_alone hb hp hu).trans ht, hrec.trans (h.running hb).record⟩

/-- R110, R112: before its last round a loop-mode run executes the template of its phase and moves on. -/
theorem step_of_loop (hr : s.round ≠ (bankAt s.ksel s).rounds) :
    step s = .next (nextPhase (afterOps (phaseOps (bankAt s.ksel s) s.round s.phase) s)) := by
  obtain ⟨t, ht, hrec⟩ := step_of_loop_raises_nothing h hb hu hp
  rw [ht]
  rw [step_of_loop_alone hb hp hu] at ht
  cases loopStep_effect hu ht with
  | completed hend => exact absurd (by simpa [hu] using hend) hr
  | raised c => exact absurd hrec (raiseFault_ecause_ne_zero .engine c s)
  | microOp _ _ hu' => exact absurd (hu.symm.trans hu') Bool.false_ne_true
  | arc s1 _ _ hphase _ he =>
    rw [runList_eq_afterOps (arcTemplate_microOps _ _) he, hphase]
    simp [nextPhase, phaseOps, phaseAfter, hphase]
  | sbox s1 _ _ hphase _ he =>
    rw [runList_eq_afterOps (sboxStep_microOps _ _) he, hphase]
    simp [nextPhase, phaseOps, phaseAfter, hphase]
  | mix s1 _ _ hphase _ he =>
    rw [runList_eq_afterOps (mixTemplate_microOps _ _) he, hphase]
    simp [nextPhase, phaseOps, phaseAfter, hphase]

end

/-- Settles O57: the step raises nothing, and the invariant gives the rest of the record. -/
theorem loopModeRaisesNoFault : Obligations.LoopModeRaisesNoFault := by
  unfold Obligations.LoopModeRaisesNoFault
  intro s h hb hu hp
  obtain ⟨t, ht, hrec⟩ := step_of_loop_raises_nothing h hb hu hp
  exact ⟨t, ht, hrec, (stepKeepsInvariant s t h ht).recordEmpty hrec⟩

/-! ### The number of steps left (R116) -/

/-- The steps that a busy engine takes at most: those to the end of the program or of the last round, and the completion
step. -/
def stepsLeft (s : State) : Nat :=
  if s.umode then (bankAt s.ksel s).mem.pms.length - s.upc.toNat + 1
  else 3 * ((bankAt s.ksel s).rounds - s.round) + 2 - phaseNumber s.phase

theorem phaseNumber_pos {p : Phase} (h : p ≠ .idle) : 0 < phaseNumber p := by
  cases p with
  | idle => exact absurd rfl h
  | arc | sbox | mix => exact Nat.succ_pos _

theorem unrolledStep_goes_on (s : State) : ∃ t, unrolledStep s = .next t := by
  by_cases h : s.upc.toNat = (bankAt s.ksel s).mem.pms.length
  · exact ⟨_, unrolledStep_of_ended h⟩
  cases hf : fetchUop s with
  | error c => exact ⟨_, unrolledStep_of_unfetched h hf⟩
  | ok w =>
    cases hd : decodeUop w with
    | error r => exact ⟨_, unrolledStep_of_rejected h hf hd⟩
    | ok i =>
      rw [unrolledStep_of_decoded h hf hd]
      exact exec_goes_on i s

/-- A program fits its store, so `upc` does not wrap (R43, R14). -/
theorem State.Inv.program_length {s : State} (h : s.Inv) (k : BankId) : (bankAt k s).mem.pms.length < 2 ^ 32 := by
  obtain ⟨-, -, hpms⟩ := (h.steady.banks k).memWf
  obtain ⟨-, -, -, hcap⟩ := h.params
  omega

section
variable {s : State} (h : s.Inv) (hb : s.busy = true) (hp : s.pending = [])
include h hb

theorem stepsLeft_pos : 0 < stepsLeft s := by
  cases hu : s.umode with
  | true => simp [stepsLeft, hu]
  | false =>
    have hloop := (h.running hb).loop hu
    have hround := hloop.round
    have hended := hloop.ended
    cases hphase : s.phase with
    | idle => exact absurd hphase hloop.phase
    | arc | sbox | mix =>
      simp only [hphase, reduceCtorEq, imp_true_iff, imp_false] at hended
      simp only [stepsLeft, hu, Bool.false_eq_true, if_false, hphase, phaseNumber]
      omega

include hp

/-- A step of the engine stops it, or leaves one step less. -/
theorem busy_step : ∃ t, step s = .next t ∧ t.pending = [] ∧ (t.busy = true → stepsLeft t + 1 = stepsLeft s) := by
  cases hu : s.umode with
  | true =>
    obtain ⟨t, ht⟩ := unrolledStep_goes_on s
    refine ⟨t, (step_of_unrolled_alone hb hu hp).trans ht, ?_⟩
    cases unrolledStep_effect hu ht with
    | completed => exact ⟨hp, nofun⟩
    | raised c => exact ⟨(raiseFault_pending ..).trans hp, nofun⟩
    | microOp i _ _ hlen hi he =>
      obtain rfl : t = afterOps [i] s := effect_eq_afterOp hi he
      have hlt := h.program_length s.ksel
      have hupc : (afterOps [i] s).upc.toNat = s.upc.toNat + 1 := by
        rw [afterOps_upc _ _ (by simpa using hi), BitVec.toNat_add]
        exact Nat.mod_eq_of_lt (show s.upc.toNat + 1 < 2 ^ 32 by omega)
      refine ⟨(afterOps_pending ..).trans hp, fun _ => ?_⟩
      simp only [stepsLeft, afterOps_umode, afterOps_ksel, bankAt_afterOps, hu, if_true, hupc]
      omega
    | arc _ hu' | sbox _ hu' | mix _ hu' => exact absurd (hu'.symm.trans hu) Bool.false_ne_true
  | false =>
    by_cases hr : s.round = (bankAt s.ksel s).rounds
    · exact ⟨_, step_of_ended hb hp (by simpa [hu] using hr), hp, nofun⟩
    refine ⟨_, step_of_loop h hb hu hp hr, by simpa using hp, fun _ => ?_⟩
    have hloop := (h.running hb).loop hu
    have hround := hloop.round
    cases hphase : s.phase with
    | idle => exact absurd hphase hloop.phase
    | arc | sbox | mix =>
      simp only [stepsLeft, nextPhase_umode, afterOps_umode, hu, Bool.false_eq_true, if_false, nextPhase_ksel,
        afterOps_ksel, bankAt_nextPhase, bankAt_afterOps, nextPhase_round, afterOps_round, nextPhase_phase,
        afterOps_phase, hphase, reduceCtorEq, if_true, phaseAfter, phaseNumber]
      omega

end

theorem steps_of_step {s t : State} (h : step s = .next t) (n : Nat) : steps (n + 1) s = steps n t := by
  simp only [steps, h]

/-- A busy engine is idle after at most `stepsLeft` steps. -/
theorem stops_within_stepsLeft {n : Nat} {s : State} (h : s.Inv) (hb : s.busy = true) (hp : s.pending = [])
    (hn : stepsLeft s ≤ n) : ∃ m t, m ≤ n ∧ steps m s = .next t ∧ t.busy = false := by
  induction n generalizing s with
  | zero => exact absurd (stepsLeft_pos h hb) (Nat.not_lt.mpr hn)
  | succ n ih =>
    obtain ⟨s1, hs, hp1, hleft⟩ := busy_step h hb hp
    have hcons {m : Nat} {t : State} (hm : steps m s1 = .next t) : steps (m + 1) s = .next t :=
      (steps_of_step hs m).trans hm
    cases hb1 : s1.busy with
    | false => exact ⟨1, s1, by omega, hcons rfl, hb1⟩
    | true =>
      have hleft := hleft hb1
      obtain ⟨m, t, hm, ht, hbt⟩ := ih (stepKeepsInvariant s s1 h hs) hb1 hp1 (by omega)
      exact ⟨m + 1, t, by omega, hcons ht, hbt⟩

theorem stepsLeft_le {s : State} (h : s.Inv) (hb : s.busy = true) : stepsLeft s ≤
    if s.umode then (bankAt s.ksel s).mem.pms.length + 1
    else 3 * ((bankAt s.ksel s).rf.toNat + (bankAt s.ksel s).rp.toNat) + 1 := by
  have hrounds : (bankAt s.ksel s).rounds = (bankAt s.ksel s).rf.toNat + (bankAt s.ksel s).rp.toNat := rfl
  cases hu : s.umode with
  | true =>
    simp only [stepsLeft, hu, if_true]
    omega
  | false =>
    have hnumber := phaseNumber_pos ((h.running hb).loop hu).phase
    simp only [stepsLeft, hu, Bool.false_eq_true, if_false, hrounds]
    omega

/-- Settles O60: every step leaves one step less, and only MIX moves the number of rounds, by one. -/
theorem engineTerminates : Obligations.EngineTerminates := by
  unfold Obligations.EngineTerminates
  intro s h hb hp
  refine ⟨fun hu t ht => ?_, stops_within_stepsLeft h hb hp (stepsLeft_le h hb)⟩
  by_cases hr : s.round = (bankAt s.ksel s).rounds
  · rw [step_of_ended hb hp (by simpa [hu] using hr)] at ht
    cases ht
    exact le_rfl
  · rw [step_of_loop h hb hu hp hr] at ht
    cases ht
    rw [nextPhase_round, afterOps_round]
    split <;> omega

end Machine

end Sys2Proof

/-! ## A loop-mode run and an unrolled-mode run (R110 to R117, R125) -/

namespace Sys2Proof

namespace Machine

/-- One step more at the end of a run. -/
theorem steps_succ {n : Nat} {s t u : State} (h : steps n s = .next t) (ht : step t = .next u) :
    steps (n + 1) s = .next u := by
  induction n generalizing s with
  | zero => cases h; exact steps_of_step ht 0
  | succ n ih =>
    cases hs : step s with
    | next s1 =>
      rw [steps_of_step hs] at h ⊢
      exact ih h
    | fault r => simp [steps, hs] at h
    | refused r => simp [steps, hs] at h

/-! ### The fields that tell the modes apart -/

/-- `s` with the mode, the completed rounds, the phase and the free values drawn replaced: what a loop-mode run has
beside the registers, `upc` and `RCCNT`. -/
def withControl (u : Bool) (r : Nat) (p : Phase) (fr : Nat) (s : State) : State :=
  { s with umode := u, round := r, phase := p, free := fr }

theorem afterOps_withControl (l : List Instr) (u : Bool) (r : Nat) (p : Phase) (fr : Nat) (s : State) :
    afterOps l (withControl u r p fr s) = withControl u r p fr (afterOps l s) := by
  induction l generalizing s with
  | nil => rfl
  | cons i is ih =>
    rw [afterOps_cons, afterOps_cons, ← ih]
    cases i <;> rfl

/-- The free values drawn after a phase of round `r` (log entry 3). -/
def freeAfter (r fr : Nat) : Phase → Nat
  | .idle | .arc | .sbox => fr
  | .mix => if r + 1 < 2 ^ 16 then fr else fr + 1

theorem nextPhase_withControl (u : Bool) (r : Nat) (p : Phase) (fr : Nat) (s : State) :
    nextPhase (withControl u r p fr s) =
      withControl u (if p = .mix then r + 1 else r) (phaseAfter p) (freeAfter r fr p) s := by
  cases p <;> rfl

/-! ### Loop mode -/

/-- The phase of a loop-mode run after `n` steps (R110). -/
def phaseAt : Nat → Phase
  | 0 => .arc
  | n + 1 => phaseAfter (phaseAt n)

/-- The rounds completed after `n` steps. -/
def roundAt : Nat → Nat
  | 0 => 0
  | n + 1 => if phaseAt n = .mix then roundAt n + 1 else roundAt n

/-- The free values drawn after `n` steps, from `fr` on (log entry 3). -/
def freeAt (fr : Nat) : Nat → Nat
  | 0 => fr
  | n + 1 => freeAfter (roundAt n) (freeAt fr n) (phaseAt n)

/-- The micro-operations of the first `n` steps (R112). -/
def opsOfSteps (b : Bank) : Nat → List Instr
  | 0 => []
  | n + 1 => opsOfSteps b n ++ phaseOps b (roundAt n) (phaseAt n)

/-- A round takes three steps. -/
theorem position_eq (n : Nat) : phaseAt n ≠ .idle ∧ 3 * roundAt n + phaseNumber (phaseAt n) = n + 1 := by
  induction n with
  | zero => exact ⟨nofun, rfl⟩
  | succ n ih =>
    obtain ⟨hidle, hpos⟩ := ih
    cases hp : phaseAt n with
    | idle => exact absurd hp hidle
    | arc | sbox | mix =>
      simp only [hp, phaseNumber] at hpos
      simp only [phaseAt, roundAt, hp, phaseAfter, phaseNumber, ne_eq, reduceCtorEq, not_false_eq_true, if_true, if_false,
        true_and]
      omega

theorem roundAt_lt {n R : Nat} (h : n < 3 * R) : roundAt n < R := by
  obtain ⟨hidle, hpos⟩ := position_eq n
  have hnumber := phaseNumber_pos hidle
  omega

theorem position_of_round (r : Nat) : phaseAt (3 * r) = .arc ∧ roundAt (3 * r) = r := by
  obtain ⟨hidle, hpos⟩ := position_eq (3 * r)
  cases hp : phaseAt (3 * r) with
  | idle => exact absurd hp hidle
  | arc | sbox | mix =>
    simp only [hp, phaseNumber] at hpos
    simp only [reduceCtorEq, true_and, false_and]
    omega

/-- The free values are drawn from round 2^16 on. -/
theorem freeAt_of_fits {R : Nat} (hR : R < 2 ^ 16) (fr : Nat) {n : Nat} (hn : n ≤ 3 * R) : freeAt fr n = fr := by
  induction n with
  | zero => rfl
  | succ n ih =>
    have hround := roundAt_lt hn
    rw [freeAt, ih (by omega)]
    cases phaseAt n with
    | idle | arc | sbox => rfl
    | mix => exact if_pos (by omega)

theorem opsOfSteps_prefix {b : Bank} {n m : Nat} (h : n ≤ m) : opsOfSteps b n <+: opsOfSteps b m := by
  induction m, h using Nat.le_induction with
  | base => exact List.prefix_rfl
  | succ m _ ih => exact ih.trans (List.prefix_append ..)

/-- Three steps execute a round's list (R108). -/
theorem opsOfSteps_rounds (b : Bank) (r : Nat) : opsOfSteps b (3 * r) = (List.range r).flatMap (roundList b) := by
  induction r with
  | zero => rfl
  | succ r ih =>
    obtain ⟨hphase, hround⟩ := position_of_round r
    rw [Nat.mul_succ, List.range_succ, List.flatMap_append, List.flatMap_singleton, ← ih]
    simp only [opsOfSteps, phaseAt, roundAt, hphase, hround, phaseAfter, phaseOps, reduceCtorEq, if_false, roundList,
      List.append_assoc]

/-- All the steps together execute the generated list (R112, R121). -/
theorem opsOfSteps_all (b : Bank) : opsOfSteps b (3 * b.rounds) = genList b := opsOfSteps_rounds b b.rounds

/-- The state of a loop-mode run of bank `b` after `n` steps from `s`. -/
def loopState (b : Bank) (n : Nat) (s : State) : State :=
  withControl false (roundAt n) (phaseAt n) (freeAt s.free n) (afterOps (opsOfSteps b n) s)

section
variable {s : State} (h : s.Inv) (hb : s.busy = true) (hu : s.umode = false) (hp : s.pending = [])
  (hround : s.round = 0) (hphase : s.phase = .arc)
include h hb hu hp hround hphase

/-- R112: the state of a loop-mode run at each step boundary. -/
theorem steps_loop {n : Nat} (hn : n ≤ 3 * (bankAt s.ksel s).rounds) :
    steps n s = .next (loopState (bankAt s.ksel s) n s) ∧ (loopState (bankAt s.ksel s) n s).Inv := by
  induction n with
  | zero =>
    have hs : loopState (bankAt s.ksel s) 0 s = s := by
      simp only [loopState, withControl, roundAt, phaseAt, freeAt, opsOfSteps, afterOps_nil, ← hu, ← hround, ← hphase]
    rw [hs]
    exact ⟨rfl, h⟩
  | succ n ih =>
    obtain ⟨hs, hinv⟩ := ih (by omega)
    have hksel : (loopState (bankAt s.ksel s) n s).ksel = s.ksel := afterOps_ksel ..
    have hbank : bankAt s.ksel (loopState (bankAt s.ksel s) n s) = bankAt s.ksel s := bankAt_afterOps ..
    have hlt : roundAt n ≠ (bankAt s.ksel s).rounds := (roundAt_lt hn).ne
    have hstep := step_of_loop hinv ((afterOps_busy ..).trans hb) rfl ((afterOps_pending ..).trans hp)
      (by rwa [hksel, hbank])
    rw [hksel, hbank, loopState, afterOps_withControl, ← afterOps_append, nextPhase_withControl] at hstep
    exact ⟨steps_succ hs hstep, stepKeepsInvariant _ _ hinv hstep⟩

/-- R114, R116: the whole run, with the completion step. -/
theorem steps_loop_completed : steps (3 * (bankAt s.ksel s).rounds + 1) s =
    .next (completeRun (loopState (bankAt s.ksel s) (3 * (bankAt s.ksel s).rounds) s)) := by
  refine steps_succ (steps_loop h hb hu hp hround hphase le_rfl).1
    (step_of_ended ((afterOps_busy ..).trans hb) ((afterOps_pending ..).trans hp) ?_)
  have hksel : (loopState (bankAt s.ksel s) (3 * (bankAt s.ksel s).rounds) s).ksel = s.ksel := afterOps_ksel ..
  rw [hksel]
  refine (if_neg Bool.false_ne_true).mpr ?_
  exact (position_of_round _).2.trans (congrArg Bank.rounds (bankAt_afterOps ..).symm)

end

/-! ### Unrolled mode -/

/-- A list of micro-operations that completes, cut at one of them. -/
theorem effect_of_runList {l m : List Instr} {i : Instr} (hl : ∀ j ∈ l, isMicroOp j = true) (hi : isMicroOp i = true)
    {s s' : State} (h : runList (l ++ i :: m) s = .ok s') : effect i (afterOps l s) = .ok (afterOps (l ++ [i]) s) := by
  rw [runList_append] at h
  cases hr : runList l s with
  | error c => simp [hr] at h
  | ok s1 =>
    obtain rfl := runList_eq_afterOps hl hr
    simp only [hr, runList] at h
    cases he : effect i (afterOps l s) with
    | error c => simp [he] at h
    | ok s2 => rw [effect_eq_afterOp hi he, afterOps_append]; rfl

/-- An unrolled-mode run of a program that is the words of the list `ops`, after `n` steps (R113). -/
theorem steps_unrolled {ops : List Instr} {s s' : State} (hb : s.busy = true) (hu : s.umode = true) (hp : s.pending = [])
    (hupc : s.upc = 0) (hops : ∀ i ∈ ops, isMicroOp i = true) (hrun : runList ops s = .ok s')
    (hprog : (bankAt s.ksel s).mem.pms.map decodeUop = ops.map .ok) (hlen : ops.length < 2 ^ 32) {n : Nat}
    (hn : n ≤ ops.length) : steps n s = .next (afterOps (ops.take n) s) := by
  induction n with
  | zero => rfl
  | succ n ih =>
    have htake : ops.take (n + 1) = ops.take n ++ [ops[n]] := List.take_succ_eq_append_getElem hn
    have hmicro : ∀ i ∈ ops.take n, isMicroOp i = true := fun i hi => hops i (List.mem_of_mem_take hi)
    have hi := hops _ (List.getElem_mem hn)
    have heffect := effect_of_runList hmicro hi (m := ops.drop (n + 1)) (s := s) (s' := s')
      (by rwa [← List.drop_eq_getElem_cons hn, List.take_append_drop])
    have hupc' : (afterOps (ops.take n) s).upc.toNat = n := by
      rw [afterOps_upc _ _ hmicro, hupc, List.length_take_of_le (Nat.le_of_lt hn), zero_add, BitVec.toNat_ofNat]
      exact Nat.mod_eq_of_lt (by omega)
    have hword : (bankAt s.ksel s).mem.pms[n]?.map decodeUop = some (.ok ops[n]) := by
      rw [← List.getElem?_map, hprog, List.getElem?_map, List.getElem?_eq_getElem hn]
      rfl
    obtain ⟨w, hw, hd⟩ := Option.map_eq_some_iff.mp hword
    refine steps_succ (ih (Nat.le_of_lt hn)) ?_
    rw [step_of_decoded_word (w := w) ((afterOps_busy ..).trans hb) ((afterOps_umode ..).trans hu)
      ((afterOps_pending ..).trans hp) (by rw [afterOps_ksel, bankAt_afterOps, hupc', hw]) hd, htake]
    exact exec_of_effect_ok heffect

end Machine

end Sys2Proof

/-! ## The two modes compute the permutation (R102, R110 to R117, R125) -/

namespace Sys2Proof

namespace Machine

/-! ### The generated words decode to the generated list (R124) -/

theorem feWord_lt (c : Fe) : (feWord c).toNat < Config.P := by
  rw [feWord_toNat]
  exact c.isLt

theorem arcTemplate_wf (t : Nat) (c : Nat → Fe) : ∀ i ∈ arcTemplate t c, i.wf = true := by
  intro i hi
  obtain ⟨j, -, rfl⟩ := List.mem_map.mp hi
  exact decide_eq_true (feWord_lt _)

theorem sboxFullTemplate_wf (n : Nat) : ∀ i ∈ sboxFullTemplate n, i.wf = true := by
  intro i hi
  obtain ⟨j, -, hj⟩ := List.mem_flatMap.mp hi
  simp only [sboxTemplate, List.mem_cons, List.not_mem_nil, or_false] at hj
  obtain rfl | rfl | rfl := hj <;> rfl

theorem mixTemplate_wf (t : Nat) (m : Nat → Nat → Fe) : ∀ i ∈ mixTemplate t m, i.wf = true := by
  intro i hi
  obtain ⟨r, -, hr⟩ := List.mem_flatMap.mp hi
  obtain rfl | hr := List.mem_cons.mp hr
  · exact decide_eq_true (feWord_lt _)
  · obtain ⟨j, -, hj⟩ := List.mem_flatMap.mp hr
    simp only [List.mem_cons, List.not_mem_nil, or_false] at hj
    obtain rfl | rfl := hj
    · exact decide_eq_true (feWord_lt _)
    · rfl

theorem genList_wf (b : Bank) : ∀ i ∈ genList b, i.wf = true := by
  intro i hi
  obtain ⟨r, -, hr⟩ := List.mem_flatMap.mp hi
  rw [roundList, sboxStep_eq, List.mem_append, List.mem_append] at hr
  obtain hr | hr | hr := hr
  · exact arcTemplate_wf _ _ i hr
  · exact sboxFullTemplate_wf _ i hr
  · exact mixTemplate_wf _ _ i hr

theorem decodeUop_of_encodeUop {i : Instr} {w : UopWord} (hi : i.wf = true) (h : encodeUop i = some w) :
    decodeUop w = .ok i := by
  unfold encodeUop at h
  split at h
  · rename_i w' hw
    cases h
    have hd := decodeEncoded_encode hi
    rwa [hw] at hd
  · cases h

/-- The words of a list of well-formed micro-operations decode to it. -/
theorem map_decodeUop_filterMap_encodeUop {l : List Instr} (hl : ∀ i ∈ l, isMicroOp i = true)
    (hwf : ∀ i ∈ l, i.wf = true) : (l.filterMap encodeUop).map decodeUop = l.map .ok := by
  induction l with
  | nil => rfl
  | cons i is ih =>
    obtain ⟨w, hw⟩ := encodeUop_of_microOp (hl i (List.mem_cons_self ..))
    rw [List.filterMap_cons_some hw, List.map_cons, List.map_cons,
      decodeUop_of_encodeUop (hwf i (List.mem_cons_self ..)) hw,
      ih (fun j hj => hl j (List.mem_cons_of_mem _ hj)) fun j hj => hwf j (List.mem_cons_of_mem _ hj)]

theorem map_decodeUop_genWords (b : Bank) : (genWords b).map decodeUop = (genList b).map .ok :=
  map_decodeUop_filterMap_encodeUop (genList_microOps b) (genList_wf b)

/-! ### A started run -/

/-- `s` with a run started that no transaction of the host meets. -/
def startedAlone (k : BankId) (u hop : Bool) (s : State) : State := { started k u hop s with pending := [] }

theorem startedAlone_loop_inv {s : State} (h : s.Inv) (he : s.ecause = 0) {k : BankId} (hop : Bool)
    (hl : (bankAt k s).lock = true) (hv : ∀ i < widthOf k, validF i s = true) : (startedAlone k false hop s).Inv :=
  (h.steady.startRun he (fun _ => ⟨hl, hv⟩) fun _ => hv 0 (widthOf_bounds k).1).setPending []

/-- What the generated list leaves of a started run: the two counters at their ends (R111, R117, R123). -/
theorem afterOps_genList_startedAlone {s : State} {k : BankId} (hc : cfgCheck k (bankAt k s) = none) (u hop : Bool) :
    afterOps (genList (bankAt k s)) (startedAlone k u hop s) = { startedAlone k u hop s with
      f := (afterOps (genList (bankAt k s)) (startedAlone k u hop s)).f,
      vf := (afterOps (genList (bankAt k s)) (startedAlone k u hop s)).vf,
      upc := BitVec.ofNat 32 (programLength (bankAt k s)),
      rccnt := BitVec.ofNat 32 ((bankAt k s).width * (bankAt k s).rounds) } := by
  obtain ⟨hw, hrf, -⟩ := cfgCheck_none hc
  have hframe := afterOps_frame_counted (genList_microOps (bankAt k s)) (startedAlone k u hop s)
  rw [length_genList (hw ▸ (widthOf_bounds k).1) hrf, countP_isFaddi_genList] at hframe
  have hupc : (startedAlone k u hop s).upc = 0 := rfl
  have hrccnt : (startedAlone k u hop s).rccnt = 0 := rfl
  rw [hupc, hrccnt, zero_add, zero_add] at hframe
  exact hframe

/-! ### The loop-mode run -/

/-- The state in which a loop-mode run started at `s` ends. -/
def loopEnd (k : BankId) (hop : Bool) (s : State) : State :=
  completeRun (withControl false (bankAt k s).rounds .arc (freeAt s.free (3 * (bankAt k s).rounds))
    (afterOps (genList (bankAt k s)) (startedAlone k false hop s)))

theorem steps_startedAlone_loop {s : State} (h : s.Inv) (he : s.ecause = 0) {k : BankId} (hop : Bool)
    (hl : (bankAt k s).lock = true) (hv : ∀ i < widthOf k, validF i s = true) :
    steps (3 * (bankAt k s).rounds + 1) (startedAlone k false hop s) = .next (loopEnd k hop s) := by
  obtain ⟨hphase, hround⟩ := position_of_round (bankAt k s).rounds
  have hend : loopState (bankAt k s) (3 * (bankAt k s).rounds) (startedAlone k false hop s) =
      withControl false (bankAt k s).rounds .arc (freeAt s.free (3 * (bankAt k s).rounds))
        (afterOps (genList (bankAt k s)) (startedAlone k false hop s)) := by
    rw [loopState, opsOfSteps_all, hphase, hround]
    rfl
  rw [loopEnd, ← hend]
  exact steps_loop_completed (startedAlone_loop_inv h he hop hl hv) rfl rfl rfl rfl rfl

/-- Settles O51: the run executes the generated list, which computes the permutation. -/
theorem loopRunComputesPermutation : Obligations.LoopRunComputesPermutation := by
  unfold Obligations.LoopRunComputesPermutation
  intro k hop s h hl hb he hv
  have hc := ((h.steady.banks k).locked hl).1
  have hw := (cfgCheck_none hc).1
  obtain ⟨ht, ht5⟩ := hw ▸ widthOf_bounds k
  have hvector := stateVector_genList ht ht5 (startedAlone k false hop s)
  rw [hw] at hvector
  refine ⟨loopEnd k hop s, steps_startedAlone_loop h he hop hl hv, hvector, fun hh => ?_, fun hh => ?_,
    fun i hi => ⟨?_, ?_⟩, fun hR => freeAt_of_fits hR s.free le_rfl, ?_⟩
  · exact if_pos ((afterOps_hashop ..).trans hh)
  · rw [loopEnd, afterOps_genList_startedAlone hc, hh]
    rfl
  · exact afterOps_f_of_not_written _ _ (untouched_not_written hw hi)
  · exact validF_afterOps_of_not_written _ (startedAlone k false hop s) (untouched_not_written hw hi)
  · rw [loopEnd, afterOps_genList_startedAlone hc]
    cases hop <;> rfl

/-! ### The unrolled-mode run, and the two together -/

section
variable {s : State} {k : BankId} (h : s.Inv) (hop : Bool) (hl : (bankAt k s).lock = true) (hgen : ProgramIsGen k s)
include h hgen

theorem length_genList_lt : (genList (bankAt k s)).length < 2 ^ 32 := by
  have hlen := h.program_length k
  rwa [hgen, genWords, length_filterMap_encodeUop (genList_microOps _)] at hlen

include hl

/-- R125: the unrolled-mode run of `Gen(k)` after its first `n` words. -/
theorem steps_startedAlone_unrolled (hv : ∀ i < widthOf k, validF i s = true) {n : Nat}
    (hn : n ≤ (genList (bankAt k s)).length) : steps n (startedAlone k true hop s) =
      .next (afterOps ((genList (bankAt k s)).take n) (startedAlone k true hop s)) := by
  obtain ⟨ht, ht5⟩ := h.steady.width hl ▸ widthOf_bounds k
  have hvalid : AllValid (stRegs (bankAt k s).width) (startedAlone k true hop s) :=
    (allValid_stRegs ht5).mpr (by rwa [h.steady.width hl])
  exact steps_unrolled rfl rfl rfl rfl (genList_microOps _)
    ((completes_genList ht).runList_eq (genList_microOps _) hvalid)
    ((congrArg _ hgen).trans (map_decodeUop_genWords _)) (length_genList_lt h hgen) hn

/-- The whole run, with the completion step. -/
theorem steps_startedAlone_unrolled_completed (hv : ∀ i < widthOf k, validF i s = true) :
    steps (programLength (bankAt k s) + 1) (startedAlone k true hop s) =
      .next (completeRun (afterOps (genList (bankAt k s)) (startedAlone k true hop s))) := by
  have hc := ((h.steady.banks k).locked hl).1
  have hlen : (genList (bankAt k s)).length = programLength (bankAt k s) :=
    (length_filterMap_encodeUop (genList_microOps _)).symm.trans (length_genWords hc)
  have hsteps := steps_startedAlone_unrolled h hop hl hgen hv hlen.ge
  rw [← hlen, List.take_length] at hsteps
  rw [← hlen]
  refine steps_succ hsteps (step_of_ended (afterOps_busy ..) (afterOps_pending ..) ?_)
  have hpms : (bankAt k s).mem.pms.length = programLength (bankAt k s) := hgen ▸ length_genWords hc
  rw [afterOps_genList_startedAlone hc]
  refine (if_pos rfl).mpr ((Nat.mod_eq_of_lt (hpms ▸ h.program_length k)).trans hpms.symm)

end

/-- A loop-mode run has executed what an unrolled-mode run has, and differs in the control fields (R112). -/
theorem afterOps_startedAlone_loop (l : List Instr) (k : BankId) (hop : Bool) (s : State) :
    afterOps l (startedAlone k false hop s) =
      withControl false 0 .arc s.free (afterOps l (startedAlone k true hop s)) :=
  afterOps_withControl l false 0 .arc s.free (startedAlone k true hop s)

/-- Settles O52: after `n` steps the loop-mode run has executed the first micro-operations of the generated
list, at the end all of them. -/
theorem loopAndUnrolledModesAgree : Obligations.LoopAndUnrolledModesAgree := by
  unfold Obligations.LoopAndUnrolledModesAgree
  intro k hop s h hl hgen hb he hv
  refine ⟨fun n hn => ?_, loopEnd k hop s, _, steps_startedAlone_loop h he hop hl hv,
    steps_startedAlone_unrolled_completed h hop hl hgen hv, rfl, rfl, ?_⟩
  · have hloop : steps n (startedAlone k false hop s) =
        .next (loopState (bankAt k s) n (startedAlone k false hop s)) :=
      (steps_loop (startedAlone_loop_inv h he hop hl hv) rfl rfl rfl rfl rfl hn).1
    rw [loopState, afterOps_startedAlone_loop] at hloop
    have hprefix : opsOfSteps (bankAt k s) n <+: genList (bankAt k s) :=
      opsOfSteps_all (bankAt k s) ▸ opsOfSteps_prefix hn
    have hunrolled := steps_startedAlone_unrolled h hop hl hgen hv hprefix.length_le
    rw [← List.prefix_iff_eq_take.mp hprefix] at hunrolled
    have hupc : (afterOps (opsOfSteps (bankAt k s) n) (startedAlone k true hop s)).upc.toNat =
        (opsOfSteps (bankAt k s) n).length := by
      rw [afterOps_upc _ _ fun i hi => genList_microOps _ i (hprefix.subset hi)]
      exact (congrArg BitVec.toNat (zero_add _)).trans
        (Nat.mod_eq_of_lt (hprefix.length_le.trans_lt (length_genList_lt h hgen)))
    rw [← hupc] at hunrolled
    exact ⟨_, _, hloop, hunrolled, rfl, rfl, rfl, rfl⟩
  · rw [loopEnd, afterOps_startedAlone_loop]
    generalize afterOps _ (startedAlone k true hop s) = a
    exact ⟨rfl, rfl, rfl, rfl, rfl, rfl⟩

end Machine

end Sys2Proof

/-! ## The generated program (R121 to R125) -/

namespace Sys2Proof

namespace Machine

/-! ### The configuration check, test by test (R144) -/

theorem not_mdsShapeOk_iff {b : Bank} : ¬ MdsShapeOk b ↔
    b.mdsRows.toNat ≠ b.width ∨ b.mdsCols.toNat ≠ b.width ∨ b.mem.mdss.length ≠ b.width * b.width := by
  rw [MdsShapeOk, not_and_or, not_and_or]
  rfl

open Classical in
/-- `CfgCheck` in the terms of the statements. -/
theorem cfgCheck_eq (k : BankId) (b : Bank) : cfgCheck k b =
    if WidthOk k b then
      if FullRoundsEven b then
        if RcLengthOk b then
          if MdsShapeOk b then none else some .mdsShape
        else some .rcLength
      else some .oddFullRounds
    else some .badWidth := by
  simp only [cfgCheck, ← not_mdsShapeOk_iff, ne_eq, ite_not]
  exact if_congr .rfl (if_congr .rfl (if_congr .rfl rfl rfl) rfl) rfl

theorem cfgCheck_of_wellConfigured {k : BankId} {b : Bank} (h : WellConfigured k b) : cfgCheck k b = none := by
  obtain ⟨hw, hf, hr, hm⟩ := h
  rw [cfgCheck_eq, if_pos hw, if_pos hf, if_pos hr, if_pos hm]

/-- `CfgCheck` answers the first test that fails, by its number. -/
theorem cfgCheck_of_firstFailure {k : BankId} {b : Bank} {n : Nat} (h : FirstFailure k b n) :
    ∃ r, cfgCheck k b = some r ∧ (reasonCode r).toNat = n := by
  rw [cfgCheck_eq]
  obtain ⟨rfl, hw⟩ | ⟨rfl, hw, hf⟩ | ⟨rfl, hw, hf, hr⟩ | ⟨rfl, hw, hf, hr, hm⟩ := h
  · exact ⟨.badWidth, if_neg hw, rfl⟩
  · exact ⟨.oddFullRounds, by rw [if_pos hw, if_neg hf], rfl⟩
  · exact ⟨.rcLength, by rw [if_pos hw, if_pos hf, if_neg hr], rfl⟩
  · exact ⟨.mdsShape, by rw [if_pos hw, if_pos hf, if_pos hr, if_neg hm], rfl⟩

/-! ### Running it (R125) -/

/-- Settles O50: the list completes, computes the permutation, and writes only the registers it names. -/
theorem generatedProgramComputesPermutation : Obligations.GeneratedProgramComputesPermutation := by
  unfold Obligations.GeneratedProgramComputesPermutation
  intro k s hc hv
  obtain ⟨hw, hrf, -⟩ := cfgCheck_none (cfgCheck_of_wellConfigured hc)
  obtain ⟨ht, ht5⟩ := hw ▸ widthOf_bounds k
  have hwidth : bankWidth k = (bankAt k s).width := hw.symm
  rw [hwidth] at hv ⊢
  have hframe := afterOps_frame_counted (genList_microOps (bankAt k s)) s
  rw [length_genList ht hrf, countP_isFaddi_genList] at hframe
  exact ⟨_, (completes_genList ht).runList_eq (genList_microOps _) ((allValid_stRegs ht5).mpr hv),
    stateVector_genList ht ht5 s, fun i hi => ⟨afterOps_f_of_not_written _ s (untouched_not_written hw hi),
      validF_afterOps_of_not_written _ s (untouched_not_written hw hi)⟩, hframe⟩

/-! ### Its micro-operations by kind (R123) -/

/-- FADD, FMUL and FMULI, each counted or not. -/
def countedKind (fadd fmul fmuli : Bool) : Instr → Bool
  | .fadd _ _ _ => fadd
  | .fmul _ _ _ => fmul
  | .fmuli _ _ _ => fmuli
  | .faddi _ _ _ => false
  | .init _ | .permute _ _ _ | .hash2 _ | .hash4 _ | .execProg _ | .gen _ | .clrerr => false

theorem countP_flatMap_of_const {α β : Type} {l : List α} {f : α → List β} {p : β → Bool} {c : Nat}
    (h : ∀ x ∈ l, (f x).countP p = c) : (l.flatMap f).countP p = l.length * c := by
  rw [List.countP_flatMap, Function.comp_def, List.map_congr_left h, List.map_const', List.sum_replicate, smul_eq_mul]

section
variable (fadd fmul fmuli : Bool)

theorem countP_countedKind_arcTemplate (t : Nat) (c : Nat → Fe) :
    (arcTemplate t c).countP (countedKind fadd fmul fmuli) = 0 := by
  refine List.countP_eq_zero.mpr fun i hi => ?_
  obtain ⟨j, -, rfl⟩ := List.mem_map.mp hi
  exact Bool.false_ne_true

theorem countP_countedKind_sboxFullTemplate (n : Nat) :
    (sboxFullTemplate n).countP (countedKind fadd fmul fmuli) = 3 * n * fmul.toNat := by
  have hsbox (j : Nat) : (sboxTemplate j).countP (countedKind fadd fmul fmuli) = 3 * fmul.toNat := by
    cases fmul <;> rfl
  rw [sboxFullTemplate, countP_flatMap_of_const fun j _ => hsbox j, List.length_range]
  ring

theorem countP_countedKind_mixTemplate (t : Nat) (m : Nat → Nat → Fe) :
    (mixTemplate t m).countP (countedKind fadd fmul fmuli) =
      t * (fmuli.toNat + (t - 1) * (fmuli.toNat + fadd.toNat)) := by
  have hrow (i : Nat) : (mixRow t m i).countP (countedKind fadd fmul fmuli) =
      fmuli.toNat + (t - 1) * (fmuli.toNat + fadd.toNat) := by
    rw [mixRow, List.countP_cons, countP_flatMap_of_const (c := fmuli.toNat + fadd.toNat) fun j _ => by
      cases fmuli <;> cases fadd <;> rfl, List.length_range, add_comm]
    cases fmuli <;> rfl
  rw [mixTemplate, countP_flatMap_of_const fun i _ => hrow i, List.length_range]

theorem countP_countedKind_roundList (b : Bank) (r : Nat) : (roundList b r).countP (countedKind fadd fmul fmuli) =
    3 * (if isFull b r then b.width else 1) * fmul.toNat +
      b.width * (fmuli.toNat + (b.width - 1) * (fmuli.toNat + fadd.toNat)) := by
  rw [roundList, List.countP_append, List.countP_append, countP_countedKind_arcTemplate, sboxStep_eq,
    countP_countedKind_sboxFullTemplate, countP_countedKind_mixTemplate, zero_add]

end

theorem sum_map_ite {α : Type} (l : List α) (p : α → Bool) (x y : Nat) :
    (l.map fun a => if p a then x else y).sum = l.countP p * x + l.countP (fun a => !p a) * y := by
  induction l with
  | nil => simp
  | cons a l ih =>
    rw [List.map_cons, List.sum_cons, ih, List.countP_cons, List.countP_cons]
    cases p a <;> simp <;> ring

/-- The S-boxes of a run (R101, R106). -/
theorem sum_sboxes {b : Bank} (hrf : b.rf.toNat % 2 = 0) :
    ((List.range b.rounds).map fun r => if isFull b r then b.width else 1).sum = b.width * b.rf.toNat + b.rp.toNat := by
  obtain ⟨hfull, hpartial, -⟩ := scheduleHasDeclaredRounds b hrf
  rw [sum_map_ite, List.countP_eq_length_filter, List.countP_eq_length_filter, Bank.rounds, hfull, hpartial]
  ring

theorem countP_countedKind_genList (fadd fmul fmuli : Bool) {b : Bank} (hrf : b.rf.toNat % 2 = 0) :
    (genList b).countP (countedKind fadd fmul fmuli) =
      3 * (b.width * b.rf.toNat + b.rp.toNat) * fmul.toNat +
        b.width * (fmuli.toNat + (b.width - 1) * (fmuli.toNat + fadd.toNat)) * b.rounds := by
  have hround : List.countP (countedKind fadd fmul fmuli) ∘ roundList b = _ :=
    funext (countP_countedKind_roundList fadd fmul fmuli b)
  rw [genList, List.countP_flatMap, hround, List.sum_map_add, List.sum_map_mul_right, List.sum_map_mul_left,
    sum_sboxes hrf, List.map_const', List.sum_replicate, List.length_range, smul_eq_mul, mul_comm b.rounds]

/-- Settles O48: the lengths, the constants counted, and the other three kinds. -/
theorem generatedProgramSize : Obligations.GeneratedProgramSize := by
  unfold Obligations.GeneratedProgramSize
  intro k b h t R
  have hc := cfgCheck_of_wellConfigured h
  obtain ⟨hw, hrf, -⟩ := cfgCheck_none hc
  have ht : 0 < b.width := hw ▸ (widthOf_bounds k).1
  have hsquare : 1 + (b.t.toNat - 1) = b.t.toNat := Nat.add_sub_cancel' ht
  refine ⟨length_genWords hc, length_genList ht hrf, ?_, ?_, ?_, ?_, fun r _ => ?_⟩
  · exact (List.countP_congr fun i _ => by cases i <;> rfl).trans (countP_isFaddi_genList b)
  · refine (List.countP_congr fun i _ => by cases i <;> rfl).trans
      ((countP_countedKind_genList false true false hrf).trans ?_)
    simp [t, Bank.width]
  · refine (List.countP_congr fun i _ => by cases i <;> rfl).trans
      ((countP_countedKind_genList false false true hrf).trans ?_)
    simp [t, R, hsquare, Bank.width, Bank.rounds]
  · refine (List.countP_congr fun i _ => by cases i <;> rfl).trans
      ((countP_countedKind_genList true false false hrf).trans ?_)
    simp [t, R, Bank.width, Bank.rounds]
  · rw [length_roundList ht]
    split <;> rfl

/-! ### Its constants in order (R124) -/

/-- The literal of a FADDI. -/
def faddiLiteral : Instr → Option Nat
  | .faddi _ _ lit => some lit.toNat
  | .fadd _ _ _ | .fmul _ _ _ | .fmuli _ _ _ => none
  | .init _ | .permute _ _ _ | .hash2 _ | .hash4 _ | .execProg _ | .gen _ | .clrerr => none

theorem filterMap_faddiLiteral_of_countP {l : List Instr} (h : l.countP isFaddi = 0) : l.filterMap faddiLiteral = [] := by
  refine List.filterMap_eq_nil_iff.mpr fun i hi => ?_
  have hnot := List.countP_eq_zero.mp h i hi
  cases i with
  | faddi => exact absurd rfl hnot
  | _ => rfl

theorem filterMap_faddiLiteral_arcTemplate (t : Nat) (c : Nat → Fe) :
    (arcTemplate t c).filterMap faddiLiteral = (List.range t).map fun i => (c i).val := by
  have hlit (i : Nat) : faddiLiteral (.faddi (wReg i) (stReg i) (feWord (c i))) = some (c i).val :=
    congrArg some (feWord_toNat _)
  rw [arcTemplate, List.filterMap_map, Function.comp_def]
  simp only [hlit]
  exact congrFun List.filterMap_eq_map' _

theorem filterMap_faddiLiteral_roundList (b : Bank) (r : Nat) :
    (roundList b r).filterMap faddiLiteral = (List.range b.width).map fun i => (b.rc (r * b.width + i)).val := by
  have hrest : (sboxStep b r ++ mixTemplate b.width b.mds).filterMap faddiLiteral = [] := by
    refine filterMap_faddiLiteral_of_countP ?_
    rw [List.countP_append, sboxStep_eq, countP_isFaddi_sboxFullTemplate, countP_isFaddi_mixTemplate]
  rw [roundList, List.filterMap_append, hrest, List.append_nil, filterMap_faddiLiteral_arcTemplate]
  rfl

theorem filterMap_faddiLiteral_rounds (b : Bank) (n : Nat) :
    ((List.range n).flatMap (roundList b)).filterMap faddiLiteral =
      (List.range (n * b.width)).map fun i => (b.rc i).val := by
  induction n with
  | zero => simp
  | succ n ih =>
    rw [List.range_succ, List.flatMap_append, List.flatMap_singleton, List.filterMap_append, ih,
      filterMap_faddiLiteral_roundList, Nat.succ_mul, List.range_add, List.map_append, List.map_map]
    rfl

theorem map_rc_range (b : Bank) : (List.range b.mem.rcs.length).map b.rc = b.mem.rcs := by
  refine List.ext_getElem (by simp) fun i _ hi => ?_
  simp [Bank.rc, hi]

/-- Settles O49: each word decodes to what it encodes; a round adds its `t` constants, and no other template adds any. -/
theorem generatedConstantsInOrder : Obligations.GeneratedConstantsInOrder := by
  unfold Obligations.GeneratedConstantsInOrder
  intro k b h
  obtain ⟨-, -, hrcs, -⟩ := cfgCheck_none (cfgCheck_of_wellConfigured h)
  refine ⟨map_decodeUop_genWords b, (List.filterMap_congr fun i _ => by cases i <;> rfl).trans
    ((filterMap_faddiLiteral_rounds b b.rounds).trans ?_)⟩
  rw [Nat.mul_comm, ← hrcs]
  conv_rhs => rw [← map_rc_range b, List.map_map]
  rfl

/-! ### The command GEN (R127) -/

section
variable {k : BankId} {s : State}

theorem genEffect_of_locked (hl : (bankAt k s).lock = true) :
    genEffect k s = .error (.illegalCommand ((formatC 0 false k 0x06).setWidth 256)) := if_pos hl

variable (hl : (bankAt k s).lock = false)
include hl

theorem genEffect_of_misconfigured {r : Reason} (hc : cfgCheck k (bankAt k s) = some r) :
    genEffect k s = .error (.configError r k false 0) := by
  simp only [genEffect, hl, hc, Bool.false_eq_true, if_false]

variable (hc : cfgCheck k (bankAt k s) = none)
include hc

theorem genEffect_of_no_room (hcap : s.params.pmCap < (bankAt k s).nops) :
    genEffect k s = .error (.configError .progCapacity k false 0) := by
  simp only [genEffect, hl, hc, hcap, Bool.false_eq_true, if_false, if_true]

theorem genEffect_of_room (hcap : (bankAt k s).nops ≤ s.params.pmCap) :
    genEffect k s = .ok (setBank k
      { bankAt k s with mem := (bankAt k s).mem.setProg (genWords (bankAt k s)) } s) := by
  simp only [genEffect, hl, hc, Nat.not_lt.mpr hcap, Bool.false_eq_true, if_false]

end

/-- A command word as a number (R66). -/
theorem setWidth_formatC (len : BitVec 8) (u : Bool) (k : BankId) (cop : BitVec 8) :
    (formatC len u k cop).setWidth 256 =
      BitVec.ofNat 256 (cop.toNat + 0x100 * k.val + 0x200 * u.toNat + 0x10000 * len.toNat) := by
  have hk : (bankBit k).toNat = k.val := by revert k; decide
  apply BitVec.eq_of_toNat_eq
  have hcop := cop.isLt
  have hkv := k.isLt
  have hu := u.toNat_lt
  have hlen := len.isLt
  simp only [formatC, BitVec.toNat_setWidth, toNat_append_eq_add, BitVec.toNat_ofBool, BitVec.toNat_ofNat, hk]
  omega

/-- `ConfigError` with the reason's number and the bank (R172). -/
theorem finish_configError {s : State} (h : s.ecause = 0) (r : Reason) (k : BankId) :
    finish .host s (.error (.configError r k false 0)) =
      .next (hostFault s 2 (reasonWord (reasonCode r).toNat k.val 0 0)) := by
  rw [finish_host_error h, causeInfo_configError]
  rfl

/-- A write of a bank changes nothing but the banks. -/
theorem setBank_frame (k : BankId) (b : Bank) (s : State) :
    setBank k b s = { s with bank0 := (setBank k b s).bank0, bank1 := (setBank k b s).bank1 } := by
  rcases bankId_cases k with rfl | rfl <;> rfl

/-- Settles O17: the one effect of GEN is the bank's new program. -/
theorem genLoadsGeneratedProgram : Obligations.GenLoadsGeneratedProgram := by
  unfold Obligations.GenLoadsGeneratedProgram
  intro k s hl h hcap
  have hc := cfgCheck_of_wellConfigured h
  refine ⟨_, exec_of_effect_ok (genEffect_of_room hl hc hcap), setBank_frame .., fun j hj => bankAt_setBank_other hj ..,
    bankAt_setBank_same .., ?_⟩
  rw [bankAt_setBank_same]
  exact length_genWords hc

/-- Settles O18: the lock, then `CfgCheck`, then the room in the store. -/
theorem genRefusalsInOrder : Obligations.GenRefusalsInOrder := by
  unfold Obligations.GenRefusalsInOrder
  intro k s hs
  have hexec : exec (.gen k) s = finish .host s (genEffect k s) := rfl
  refine ⟨fun hl => ?_, fun hl => ⟨fun n hn => ?_, fun h hcap => ?_⟩⟩
  · rw [hexec, genEffect_of_locked hl, finish_host_error hs, setWidth_formatC]
    rfl
  · obtain ⟨r, hr, rfl⟩ := cfgCheck_of_firstFailure hn
    rw [hexec, genEffect_of_misconfigured hl hr, finish_configError hs]
  · rw [hexec, genEffect_of_no_room hl (cfgCheck_of_wellConfigured h) hcap, finish_configError hs]
    rfl

end Machine

end Sys2Proof

/-! ## The commands at `CMD` (R140) -/

namespace Sys2Proof

namespace Machine

/-! ### A value written to `CMD` -/

section
variable {v : Word} {i : Instr} {s : State} (hd : decodeCommand v = .ok i)
include hd

theorem isClrerr_of_decoded : isClrerr v = decide (i = .clrerr) := by
  rw [isClrerr, hd]
  cases i <;> rfl

theorem issueCommand_of_decoded (h : s.ecause = 0 ∨ i = .clrerr) : issueCommand v s = exec i s := by
  have hgo : (faulted s && !isClrerr v) = false := by
    rw [isClrerr_of_decoded hd, faulted]
    obtain h | h := h <;> simp [h]
  simp only [issueCommand, hgo, hd, Bool.false_eq_true, if_false]

theorem issueCommand_of_dropped (hs : s.ecause ≠ 0) (hi : i ≠ .clrerr) : issueCommand v s = .next s := by
  have hdrop : (faulted s && !isClrerr v) = true := by
    rw [isClrerr_of_decoded hd, faulted_iff.mpr hs, decide_eq_false hi]
    rfl
  rw [issueCommand, if_pos hdrop]

end

/-- The transaction of an idle core that issues a command (R25, R140). -/
theorem step_of_cmd_write {v : Word} {rest : List Pending} {s : State} (h : HostNext s (.csrWrite 0x02 v) rest) :
    step s = issueCommand v { s with pending := rest } := by
  obtain ⟨hb, d, hp⟩ := h
  have hcmd : csrOf 0x02 = some .cmd := rfl
  rw [step_of_idle hb hp, perform, csrWrite, if_pos hcmd]

/-- Settles O28: the write issues the value, and the core runs or drops what it decodes to. -/
theorem stepRunsIssuedCommand : Obligations.StepRunsIssuedCommand := by
  unfold Obligations.StepRunsIssuedCommand
  intro v i rest s hnext hd
  rw [step_of_cmd_write hnext]
  exact ⟨issueCommand_of_decoded (s := withPending rest s) hd, issueCommand_of_dropped (s := withPending rest s) hd⟩

/-! ### What a refused command records (R174, R177, R172) -/

section
variable {i : Instr} {s : State} (hs : s.ecause = 0) (hi : isMicroOp i = false)
include hs hi

/-- A command that raises records the fault and does nothing else (R180). -/
theorem exec_of_refused {c : Cause} (h : effect i s = .error c) :
    exec i s = .next (hostFault s (causeCode c) (causeInfo c)) := by
  rw [exec_eq_finish, originOf, hi, h]
  exact finish_host_error hs c

theorem exec_of_illegal_command {len : BitVec 8} {u : Bool} {k : BankId} {cop : BitVec 8}
    (h : effect i s = .error (.illegalCommand ((formatC len u k cop).setWidth 256))) :
    exec i s = .next (hostFault s 4
      (BitVec.ofNat 256 (cop.toNat + 0x100 * k.val + 0x200 * u.toNat + 0x10000 * len.toNat))) := by
  rw [exec_of_refused hs hi h, causeInfo, setWidth_formatC]
  rfl

theorem exec_of_uninit_operand {n : Nat} (h : effect i s = .error (.uninitRead n)) :
    exec i s = .next (hostFault s 7 (BitVec.ofNat 256 n)) := exec_of_refused hs hi h

theorem exec_of_config_error {r : Reason} {k : BankId} (h : effect i s = .error (.configError r k false 0)) :
    exec i s = .next (hostFault s 2 (reasonWord (reasonCode r).toNat k.val 0 0)) := by
  rw [exec_eq_finish, originOf, hi, h]
  exact finish_configError hs r k

end

/-! ### EXEC and CLRERR (R150, R152) -/

/-- Settles O16: EXEC has no refusal, and its effect is `Start`. -/
theorem execStartsUnchecked : Obligations.ExecStartsUnchecked := fun k _ =>
  exec_of_effect_ok (i := .execProg k) rfl

/-- An empty record is already clear under the invariant (R21). -/
theorem State.Inv.clearRecord_eq {s : State} (h : s.Inv) (he : s.ecause = 0) : clearRecord s = s := by
  obtain ⟨hepc, heinfo⟩ := h.recordEmpty he
  rw [clearRecord, ← he, ← hepc, ← heinfo]

/-- Settles O19: CLRERR has no refusal, its effect is that of `clearRecord`, and its row fixes every bit. -/
theorem clrerrClearsOnlyTheRecord : Obligations.ClrerrClearsOnlyTheRecord := by
  unfold Obligations.ClrerrClearsOnlyTheRecord
  have hexec (s : State) : exec .clrerr s = .next (clearRecord s) := exec_of_effect_ok rfl
  refine ⟨hexec, fun s h he => ?_, fun v => ⟨decodeCommand_clrerr, ?_⟩⟩
  · rw [hexec, h.clearRecord_eq he]
  · rintro rfl
    exact decodeCommand_of_decodeCmdWord (w := 7) rfl

/-! ### INIT (R143, R144) -/

section
variable {k : BankId} {s : State}

theorem initEffect_of_locked (hl : (bankAt k s).lock = true) :
    initEffect k s = .error (.illegalCommand ((formatC 0 false k 0x01).setWidth 256)) := if_pos hl

variable (hl : (bankAt k s).lock = false)
include hl

theorem initEffect_of_misconfigured {r : Reason} (hc : cfgCheck k (bankAt k s) = some r) :
    initEffect k s = .error (.configError r k false 0) := by
  simp only [initEffect, hl, hc, Bool.false_eq_true, if_false]

variable (hc : cfgCheck k (bankAt k s) = none)
include hc

theorem initEffect_of_wrong_length (h0 : (bankAt k s).mem.pms.length ≠ 0)
    (hn : (bankAt k s).mem.pms.length ≠ (bankAt k s).nops) :
    initEffect k s = .error (.configError .progLength k false 0) := by
  simp only [initEffect, hl, hc, Bool.false_eq_true, if_false]
  exact if_pos ⟨h0, hn⟩

theorem initEffect_of_wellFormed (hp : (bankAt k s).mem.pms.length = 0 ∨
    (bankAt k s).mem.pms.length = (bankAt k s).nops) :
    initEffect k s = .ok (setBank k { bankAt k s with
      lock := true, uvalid := decide ((bankAt k s).mem.pms.length = (bankAt k s).nops) } s) := by
  simp only [initEffect, hl, hc, Bool.false_eq_true, if_false]
  exact if_neg fun ⟨h0, hn⟩ => hp.elim h0 hn

end

/-- Settles O9: the one effect of INIT is on the bank's lifecycle bits. -/
theorem initLocksWellFormedBank : Obligations.InitLocksWellFormedBank := by
  unfold Obligations.InitLocksWellFormedBank
  intro k s hl h hp
  have hc := cfgCheck_of_wellConfigured h
  exact ⟨_, exec_of_effect_ok (initEffect_of_wellFormed hl hc hp), setBank_frame ..,
    fun j hj => bankAt_setBank_other hj .., bankAt_setBank_same ..⟩

/-- Settles O10: the lock, then `CfgCheck`, then the length of the program. -/
theorem initRefusalsInOrder : Obligations.InitRefusalsInOrder := by
  unfold Obligations.InitRefusalsInOrder
  intro k s hs
  refine ⟨fun hl => ?_, fun hl => ⟨fun n hn => ?_, fun h h0 hn => ?_⟩⟩
  · exact exec_of_illegal_command (i := .init k) hs rfl (initEffect_of_locked hl)
  · obtain ⟨r, hr, rfl⟩ := cfgCheck_of_firstFailure hn
    exact exec_of_config_error (i := .init k) hs rfl (initEffect_of_misconfigured hl hr)
  · exact exec_of_config_error (i := .init k) hs rfl
      (initEffect_of_wrong_length hl (cfgCheck_of_wellConfigured h) h0 hn)

/-! ### The guards that PERMUTE, HASH2 and HASH4 share (R145, R147, R148) -/

section
variable {α : Type} {lock u uvalid : Bool} {refusal rest : α}

/-- The bank is not locked, or unrolled mode is asked for without a valid program. -/
theorem bankGuard_refuses (h : lock = false ∨ u = true ∧ uvalid = false) :
    (if !lock then refusal else if u && !uvalid then refusal else rest) = refusal := by
  obtain rfl | ⟨rfl, rfl⟩ := h
  · rfl
  · exact ite_self refusal

theorem bankGuard_passes (hl : lock = true) (hu : u = true → uvalid = true) :
    (if !lock then refusal else if u && !uvalid then refusal else rest) = rest := by
  subst hl
  cases u with
  | false => rfl
  | true => rw [hu rfl]; rfl

end

theorem firstInvalidF_eq_some {n i : Nat} {s : State} (hi : i < n) (hbefore : ∀ j < i, validF j s = true)
    (h : validF i s = false) : firstInvalidF n s = some i :=
  List.find?_range_eq_some.mpr ⟨by simp [h], List.mem_range.mpr hi, fun j hj => by simp [hbefore j hj]⟩

theorem firstInvalidIn_eq_some {n i : Nat} {s : State} (hi : i < n) (hbefore : ∀ j < i, validIn j s = true)
    (h : validIn i s = false) : firstInvalidIn n s = some i :=
  List.find?_range_eq_some.mpr ⟨by simp [h], List.mem_range.mpr hi, fun j hj => by simp [hbefore j hj]⟩

/-! ### PERMUTE (R145) -/

section
variable {k : BankId} {u : Bool} {len : BitVec 8} {s : State}

theorem permuteEffect_of_refused (h : (bankAt k s).lock = false ∨ u = true ∧ (bankAt k s).uvalid = false) :
    permuteEffect k u len s = .error (.illegalCommand ((formatC len u k 0x02).setWidth 256)) :=
  bankGuard_refuses h

variable (hl : (bankAt k s).lock = true) (hu : u = true → (bankAt k s).uvalid = true)
include hl hu

theorem permuteEffect_of_wrong_arity (ht : len.toNat ≠ (bankAt k s).width) :
    permuteEffect k u len s = .error (.invalidArity len) :=
  (bankGuard_passes hl hu).trans (if_pos ht)

variable (ht : len.toNat = (bankAt k s).width)
include ht

theorem permuteEffect_of_invalid_slot {i : Nat} (h : firstInvalidF (bankAt k s).width s = some i) :
    permuteEffect k u len s = .error (.uninitRead i) := by
  refine (bankGuard_passes hl hu).trans ((if_neg (not_not.mpr ht)).trans ?_)
  rw [h]

theorem permuteEffect_of_valid (hv : ∀ i < (bankAt k s).width, validF i s = true) :
    permuteEffect k u len s = .ok (startRun k u false s) := by
  refine (bankGuard_passes hl hu).trans ((if_neg (not_not.mpr ht)).trans ?_)
  rw [firstInvalidF_eq_none.mpr hv]

end

/-- Settles O11: no guard of PERMUTE refuses. -/
theorem permuteStartsTheEngine : Obligations.PermuteStartsTheEngine := fun k u len _ hl hu ht hv =>
  exec_of_effect_ok (i := .permute k u len) (permuteEffect_of_valid hl hu ht hv)

/-- Settles O12: the guards of PERMUTE in their order. -/
theorem permuteRefusalsInOrder : Obligations.PermuteRefusalsInOrder := by
  unfold Obligations.PermuteRefusalsInOrder
  intro k u len s hs
  refine ⟨fun h => ?_, fun hl hu => ⟨fun ht => ?_, fun i ht hi hbefore h => ?_⟩⟩
  · exact exec_of_illegal_command (i := .permute k u len) hs rfl (permuteEffect_of_refused h)
  · rw [BitVec.ofNat_toNat]
    exact exec_of_refused (i := .permute k u len) hs rfl (permuteEffect_of_wrong_arity hl hu ht)
  · exact exec_of_uninit_operand (i := .permute k u len) hs rfl
      (permuteEffect_of_invalid_slot hl hu ht (firstInvalidF_eq_some hi hbefore h))

end Machine

end Sys2Proof

/-! ## The hash commands (R147 to R149) -/

namespace Sys2Proof

namespace Machine

/-! ### Values written to `F` in a row -/

/-- `F[n] <- x0; F[n + 1] <- x1; ...` -/
def writeSlots : Nat → List Fe → State → State
  | _, [], s => s
  | n, x :: xs, s => writeSlots (n + 1) xs (writeF (stReg n) x s)

theorem writeSlots_frame (n : Nat) (l : List Fe) (s : State) :
    writeSlots n l s = { s with f := (writeSlots n l s).f, vf := (writeSlots n l s).vf } := by
  induction l generalizing n s with
  | nil => rfl
  | cons x xs ih => exact ih (n + 1) (writeF (stReg n) x s)

theorem writeSlots_f_of_outside {n j : Nat} {l : List Fe} {s : State} (hl : n + l.length ≤ 16) (hj : j < 16)
    (h : j < n ∨ n + l.length ≤ j) : (writeSlots n l s).f[j] = s.f[j] := by
  induction l generalizing n s with
  | nil => rfl
  | cons x xs ih =>
    rw [List.length_cons] at hl h
    have hne : (stReg n).val ≠ j := by rw [stReg_val (by omega)]; omega
    calc (writeSlots (n + 1) xs (writeF (stReg n) x s)).f[j]
      _ = (writeF (stReg n) x s).f[j] := ih (by omega) (by omega)
      _ = s.f[j] := by rw [writeF_f_get, if_neg hne]

theorem writeSlots_f_of_inside {n i : Nat} {l : List Fe} {s : State} (hl : n + l.length ≤ 16) (hi : i < l.length) :
    (writeSlots n l s).f[n + i] = l[i] := by
  induction l generalizing n i s with
  | nil => exact absurd hi (Nat.not_lt_zero i)
  | cons x xs ih =>
    rw [List.length_cons] at hl hi
    cases i with
    | zero =>
      have hn : (stReg n).val = n := stReg_val (by omega)
      calc (writeSlots (n + 1) xs (writeF (stReg n) x s)).f[n]
        _ = (writeF (stReg n) x s).f[n] := writeSlots_f_of_outside (by omega) (by omega) (by omega)
        _ = x := by rw [writeF_f_get, if_pos hn]
    | succ i =>
      have hshift : n + (i + 1) = n + 1 + i := by omega
      simp only [hshift]
      exact ih (by omega) (by omega)

theorem validF_writeSlots {n : Nat} {l : List Fe} (hl : n + l.length ≤ 16) (s : State) (j : Nat) :
    validF j (writeSlots n l s) = (validF j s || decide (n ≤ j ∧ j < n + l.length)) := by
  induction l generalizing n s with
  | nil => simp [writeSlots]
  | cons x xs ih =>
    rw [List.length_cons] at hl ⊢
    rw [writeSlots, ih (by omega), validF_writeF, stReg_val (by omega), Bool.or_assoc, ← Bool.decide_or]
    congr 2
    exact propext (by omega)

theorem stateVector_writeSlots {l : List Fe} (hl : l.length ≤ 5) (s : State) :
    stateVector l.length (writeSlots 0 l s) = l := by
  rw [stateVector_eq hl]
  refine List.ext_getElem (by simp) fun i _ hi => ?_
  simp only [List.getElem_map, List.getElem_range, stReg_val (show i < 16 by omega)]
  simpa using writeSlots_f_of_inside (n := 0) (s := s) (by omega) hi

/-! ### The two commands as one, by the bank -/

/-- HASH2 for bank 0, HASH4 for bank 1. -/
def hashCommand (k : BankId) (u : Bool) : Instr := if k = 0 then .hash2 u else .hash4 u

/-- The inputs that the bank's hash command reads. -/
def hashInputs (k : BankId) (s : State) : List Fe :=
  if k = 0 then [s.inp[0], s.inp[1]] else [s.inp[0], s.inp[1], s.inp[2], s.inp[3]]

/-- How many they are. -/
def hashArity (k : BankId) : Nat := if k = 0 then 2 else 4

/-- R147 and R148, by the bank. -/
def hashEffect (k : BankId) (u : Bool) (s : State) : Except Cause State :=
  if !(bankAt k s).lock then .error (.illegalCommand ((formatC 0 u k (BitVec.ofNat 8 (3 + k.val))).setWidth 256))
  else if u && !(bankAt k s).uvalid then
    .error (.illegalCommand ((formatC 0 u k (BitVec.ofNat 8 (3 + k.val))).setWidth 256))
  else match firstInvalidIn (hashArity k) s with
    | some i => .error (.uninitRead (16 + i))
    | none => .ok (startRun k u true (writeSlots 0 (spongeState (hashInputs k s)) s))

theorem effect_hashCommand (k : BankId) (u : Bool) (s : State) : effect (hashCommand k u) s = hashEffect k u s := by
  rcases bankId_cases k with rfl | rfl <;> rfl

theorem isMicroOp_hashCommand (k : BankId) (u : Bool) : isMicroOp (hashCommand k u) = false := by
  rcases bankId_cases k with rfl | rfl <;> rfl

theorem length_spongeState_hashInputs (k : BankId) (s : State) :
    (spongeState (hashInputs k s)).length = widthOf k := by
  rcases bankId_cases k with rfl | rfl <;> rfl

section
variable {k : BankId} {u : Bool} {s : State}

theorem hashEffect_of_refused (h : (bankAt k s).lock = false ∨ u = true ∧ (bankAt k s).uvalid = false) :
    hashEffect k u s = .error (.illegalCommand ((formatC 0 u k (BitVec.ofNat 8 (3 + k.val))).setWidth 256)) :=
  bankGuard_refuses h

variable (hl : (bankAt k s).lock = true) (hu : u = true → (bankAt k s).uvalid = true)
include hl hu

theorem hashEffect_of_invalid_input {i : Nat} (h : firstInvalidIn (hashArity k) s = some i) :
    hashEffect k u s = .error (.uninitRead (16 + i)) := by
  refine (bankGuard_passes hl hu).trans ?_
  rw [h]

theorem hashEffect_of_valid (hv : ∀ i < hashArity k, validIn i s = true) :
    hashEffect k u s = .ok (startRun k u true (writeSlots 0 (spongeState (hashInputs k s)) s)) := by
  refine (bankGuard_passes hl hu).trans ?_
  rw [firstInvalidIn_eq_none.mpr hv]

/-- What an accepted hash command leaves: the engine started on the sponge state (R146, R149). -/
theorem exec_hashCommand_starts (hv : ∀ i < hashArity k, validIn i s = true) :
    ∃ t, exec (hashCommand k u) s = .next t ∧ stateVector (widthOf k) t = spongeState (hashInputs k s) ∧
      (∀ i : Reg, widthOf k ≤ i.val → t.f[i.val] = s.f[i.val]) ∧
      (∀ i : Reg, validF i.val t = (validF i.val s || decide (i.val < widthOf k))) ∧
      t = { started k u true s with f := t.f, vf := t.vf } := by
  have hlen := length_spongeState_hashInputs k s
  have hw := (widthOf_bounds k).2
  rw [← hlen] at hw ⊢
  refine ⟨_, exec_of_effect_ok ((effect_hashCommand k u s).trans (hashEffect_of_valid hl hu hv)),
    stateVector_writeSlots hw s, fun i hi => ?_, fun i => ?_, ?_⟩
  · exact writeSlots_f_of_outside (by omega) i.isLt (.inr (by omega))
  · have hvalid := validF_writeSlots (n := 0) (l := spongeState (hashInputs k s)) (by omega) s i.val
    rwa [Nat.zero_add, decide_eq_decide.mpr (and_iff_right (Nat.zero_le _))] at hvalid
  · rw [writeSlots_frame]
    rfl

end

/-- What a hash command refuses, in order (R147, R148). -/
theorem exec_hashCommand_refuses (k : BankId) (u : Bool) {s : State} (hs : s.ecause = 0) :
    ((bankAt k s).lock = false ∨ (u = true ∧ (bankAt k s).uvalid = false) →
      exec (hashCommand k u) s = .next (hostFault s 4 (BitVec.ofNat 256
        ((BitVec.ofNat 8 (3 + k.val)).toNat + 0x100 * k.val + 0x200 * u.toNat + 0x10000 * (0#8).toNat)))) ∧
    ((bankAt k s).lock = true → (u = true → (bankAt k s).uvalid = true) →
      ∀ i < hashArity k, (∀ j < i, validIn j s = true) → validIn i s = false →
        exec (hashCommand k u) s = .next (hostFault s 7 (BitVec.ofNat 256 (16 + i)))) := by
  have hi := isMicroOp_hashCommand k u
  refine ⟨fun h => ?_, fun hl hu i hlt hbefore h => ?_⟩
  · exact exec_of_illegal_command hs hi ((effect_hashCommand ..).trans (hashEffect_of_refused h))
  · exact exec_of_uninit_operand hs hi ((effect_hashCommand ..).trans
      (hashEffect_of_invalid_input hl hu (firstInvalidIn_eq_some hlt hbefore h)))

/-- Settles O13: the hash command of bank 0. -/
theorem hashTwoStartsOnSpongeState : Obligations.HashTwoStartsOnSpongeState := fun _ _ hl hu hv =>
  exec_hashCommand_starts (k := 0) hl hu hv

/-- Settles O14: the hash command of bank 1. -/
theorem hashFourStartsOnSpongeState : Obligations.HashFourStartsOnSpongeState := fun _ _ hl hu hv =>
  exec_hashCommand_starts (k := 1) hl hu hv

/-- Settles O15: the guards of the two commands in their order. -/
theorem hashRefusalsInOrder : Obligations.HashRefusalsInOrder := by
  unfold Obligations.HashRefusalsInOrder
  intro u s hs
  obtain ⟨hbank0, hinput0⟩ := exec_hashCommand_refuses 0 u hs
  obtain ⟨hbank1, hinput1⟩ := exec_hashCommand_refuses 1 u hs
  exact ⟨hbank0, hinput0, hbank1, hinput1⟩

/-! ### The digest of a hash (R114, R149) -/

/-- The invariant of an idle core asks nothing of `F` and `VF`. -/
theorem State.Inv.setF {s : State} (h : s.Inv) (hb : s.busy = false) (f : Vector Fe 16) (vf : BitVec 16) :
    { s with f := f, vf := vf }.Inv :=
  State.Steady.inv_of_idle ⟨h.params, h.steady.banks, h.recordEmpty, h.recordCode⟩ hb (h.idlePhase hb)

/-- The hash command of a bank, and the loop-mode run that it starts on the sponge state. -/
theorem hash_run_digest {k : BankId} {v : Word} {s : State} (hd : decodeCommand v = .ok (hashCommand k false))
    (h : s.Inv) (hb : s.busy = false) (he : s.ecause = 0) (hl : (bankAt k s).lock = true)
    (hv : ∀ i < hashArity k, validIn i s = true) :
    ∃ t, steps (3 * ((bankAt k s).rf.toNat + (bankAt k s).rp.toNat) + 2)
        { s with pending := [{ delay := 0, txn := .csrWrite 0x02 v }] } = .next t ∧
      t.busy = false ∧ t.done = true ∧ t.ecause = 0 ∧ t.vdig = true ∧
      some t.digest = (perm (bankAt k s) (spongeState (hashInputs k s)))[0]? := by
  have hcommand := (stepRunsIssuedCommand v _ [] { s with pending := [{ delay := 0, txn := .csrWrite 0x02 v }] }
    ⟨hb, 0, rfl⟩ hd).1 (.inl he)
  obtain ⟨s1, hexec, hsponge, -, hvalid, hs1⟩ :=
    exec_hashCommand_starts (k := k) (u := false) (s := { s with pending := [] }) hl (by simp) hv
  have hslots : ∀ i < bankWidth k, validF i { s with f := s1.f, vf := s1.vf } = true := fun i hi => by
    have hw : i < widthOf k := hi
    have hlt : i < 16 := by have := (widthOf_bounds k).2; omega
    exact (hvalid ⟨i, hlt⟩).trans (by simp [hw])
  obtain ⟨t, hrun, hvector, hdigest, -, -, -, ht⟩ :=
    loopRunComputesPermutation k true { s with f := s1.f, vf := s1.vf } (h.setF hb _ _) hl hb he hslots
  have hstart : s1 = { started k false true { s with f := s1.f, vf := s1.vf } with pending := [] } := hs1
  have hperm : stateVector (bankWidth k) t = perm (bankAt k s) (spongeState (hashInputs k s)) :=
    hvector.trans (congrArg _ hsponge)
  have hslot0 : (stateVector (bankWidth k) t)[0]? = some t.f[0] := by
    rw [stateVector, List.getElem?_take_of_lt (show 0 < bankWidth k from (widthOf_bounds k).1)]
    simp
  refine ⟨t, ?_, by rw [ht], by rw [ht], by rw [ht]; exact he, by rw [ht], ?_⟩
  · rw [steps_of_step (hcommand.trans hexec), hstart]
    exact hrun
  · rw [← hperm, hslot0, hdigest rfl]

/-- Settles O53: the run computes the permutation of the state that the command leaves, which is the sponge state. -/
theorem hashDigestIsSlotZeroOfPermutation : Obligations.HashDigestIsSlotZeroOfPermutation := by
  unfold Obligations.HashDigestIsSlotZeroOfPermutation
  intro s h hb he
  exact ⟨hash_run_digest (k := 0) (decodeCommand_of_decodeCmdWord (w := 0x00000003) (by decide)) h hb he,
    hash_run_digest (k := 1) (decodeCommand_of_decodeCmdWord (w := 0x00000104) (by decide)) h hb he⟩

end Machine

end Sys2Proof

/-! ## The write ports of `F` and `IN` (R47, R141, R142) -/

namespace Sys2Proof

namespace Machine

/-- The values that the range policy admits are stored modulo `P`, which leaves one below `P` as it is (R141). -/
theorem canon_of_admitted {pol : Config.OorPolicy} {v : Word} (h : v.toNat < Config.P ∨ pol = .reduce) :
    canon pol v = .ok (reduceWord v) := by
  obtain h | rfl := h
  · rw [canon_of_lt pol h]
    exact congrArg _ (Fin.ext (Nat.mod_eq_of_lt h).symm)
  · exact canon_reduce v

section
variable {s : State} (hs : s.ecause = 0) (v : Word)
include hs

theorem perform_fWrite (i : Reg) : perform (.fWrite i v) s = finish .host s (fWrite i v s) := by
  rw [perform, hostWrite, if_neg (by simp [faulted, hs])]

theorem perform_csrWrite_inp (i : Fin 4) :
    perform (.csrWrite (BitVec.ofNat 8 (0x10 + i.val)) v) s = finish .host s (inWrite i v s) := by
  rw [perform, csrWrite, csrOf_inp, if_neg (by simp), hostWrite, if_neg (by simp [faulted, hs]), csrPut, csrOf_inp]

end

/-- Settles O37: both ports store what `Canon` answers, or raise what it raises. -/
theorem rangePolicyAtWritePorts : Obligations.RangePolicyAtWritePorts := by
  unfold Obligations.RangePolicyAtWritePorts
  intro v s hs
  refine ⟨fun h => ?_, fun hv hp => ?_⟩
  · have hc := canon_of_admitted h
    refine ⟨fun i => ⟨reduceWord v, rfl, ?_⟩, fun i => ⟨reduceWord v, rfl, ?_⟩⟩
    · rw [perform_fWrite hs, fWrite, hc]
      rfl
    · rw [perform_csrWrite_inp hs, inWrite, hc]
      rfl
  · have hc : canon s.params.oorPolicy v = .error (.invalidFieldElement v) := hp ▸ canon_reject_of_ge hv
    refine ⟨fun i => ?_, fun i => ?_⟩
    · rw [perform_fWrite hs, fWrite, hc]
      exact finish_host_error hs _
    · rw [perform_csrWrite_inp hs, inWrite, hc]
      exact finish_host_error hs _

end Machine

end Sys2Proof

/-! ## Faults: what a raise records, what a recorded fault freezes, and no stop of the core (R180, R181) -/

namespace Sys2Proof

namespace Machine

/-! ### A state of the invariant takes a step -/

/-- The sequencer of a loop-mode run is in a phase with a step, at the bank's width; an unrolled-mode step always answers. -/
theorem State.Inv.engineStep_goes_on {s : State} (h : s.Inv) (hb : s.busy = true) : ∃ t, Machine.engineStep s = .next t := by
  cases hu : s.umode with
  | true =>
    rw [Machine.engineStep, if_pos hu]
    exact unrolledStep_goes_on s
  | false =>
    rw [Machine.engineStep, if_neg (by simp [hu])]
    obtain ⟨t, ht, -⟩ := loopStep_raises_nothing h.steady ((h.running hb).loop hu)
    exact ⟨t, ht⟩

/-- Settles O56: a transaction always answers, and so does the engine under the invariant; an idle core with nothing to do
stutters (log entry 15). -/
theorem invariantStateStepsOn : Obligations.InvariantStateStepsOn := by
  unfold Obligations.InvariantStateStepsOn
  intro s h
  cases hb : s.busy with
  | true =>
    rw [step, if_pos hb, busyStep]
    cases takeDue s.pending with
    | none => exact (h.setPending (tick s.pending)).engineStep_goes_on hb
    | some due => exact perform_goes_on due.1 _
  | false =>
    cases hp : s.pending with
    | nil => exact ⟨s, by simp [step, hb, idleStep, hp]⟩
    | cons p rest =>
      rw [step_of_idle hb hp]
      exact perform_goes_on p.txn _

/-! ### Raising a fault with an empty record (R180) -/

/-- A fault raised by an engine step, in the terms of the statements. -/
theorem raiseFault_engine_of_empty {s : State} (h : s.ecause = 0) (c : Cause) :
    raiseFault .engine c s = engineFault s (causeCode c) (causeInfo c) := by
  rw [raiseFault, recordFault_of_empty h, engineFault]

/-- Settles O20: the record is written as a whole, and the reason word is put together field by field. -/
theorem raiseRecordsCodeAndInformation : Obligations.RaiseRecordsCodeAndInformation := by
  unfold Obligations.RaiseRecordsCodeAndInformation
  refine ⟨fun c s h => ⟨?_, raiseFault_engine_of_empty h c⟩, fun v len n ctl k table index i => ?_⟩
  · rw [raiseFault_host_eq, ifUnfaulted, if_pos h]
  · refine ⟨⟨rfl, rfl⟩, fun r hr => ⟨rfl, ?_⟩, ⟨rfl, ?_⟩, ⟨rfl, rfl⟩, ⟨rfl, ?_⟩, ⟨rfl, rfl⟩, ⟨rfl, rfl⟩, ⟨rfl, rfl⟩,
      ⟨rfl, ?_⟩⟩
    · have hnumber : (reasonCode r.1).toNat = r.2 := by
        revert r
        decide
      rw [causeInfo_configError, hnumber]
    · exact (BitVec.ofNat_toNat ..).symm
    · exact (BitVec.ofNat_toNat ..).symm
    · exact (BitVec.ofNat_toNat ..).symm

/-! ### Writes while a fault is recorded (R181) -/

theorem isClrerr_of_ne {v : Word} (h : v ≠ 7) : isClrerr v = false := by
  cases hd : decodeCommand v with
  | error r => rw [isClrerr, hd]
  | ok i =>
    rw [isClrerr_of_decoded hd]
    refine decide_eq_false ?_
    rintro rfl
    exact h (decodeCommand_clrerr hd)

section
variable {s : State} (hs : s.ecause ≠ 0)
include hs

theorem hostWrite_of_faulted (w : State → Except Cause State) : hostWrite w s = .next s :=
  if_pos (faulted_iff.mpr hs)

theorem csrWrite_of_faulted {n : BitVec 8} {v : Word} (h : n = 0x02 → v ≠ 7) : csrWrite n v s = .next s := by
  rw [csrWrite]
  split
  · have hv := h ((csrOf_cmd_iff n).mp ‹_›)
    rw [issueCommand, if_pos (by rw [faulted_iff.mpr hs, isClrerr_of_ne hv]; rfl)]
  · exact hostWrite_of_faulted hs _

theorem busWrite_of_faulted {a : BitVec 32} {v : Word} (h : a = 0x02 → v ≠ 7) : busWrite a v s = .next s := by
  rw [busWrite]
  split
  · have hn := busTarget_csr ‹_›
    exact csrWrite_of_faulted hs fun h2 => h (by rw [hn, h2]; rfl)
  · exact hostWrite_of_faulted hs _
  · exact hostWrite_of_faulted hs _

end

/-! ### The host's next transaction on an idle core -/

theorem step_of_hostNext {s : State} {t : HostTxn} {rest : List Pending} (h : HostNext s t rest) :
    step s = perform t { s with pending := rest } := by
  obtain ⟨hb, d, hp⟩ := h
  exact step_of_idle hb hp

section
variable {s : State} {rest : List Pending}

theorem step_of_csrRead {n : BitVec 8} (h : HostNext s (.csrRead n) rest) :
    step s = .next (answerRead (.word 0) ((csrRead n s).map .word) { s with pending := rest }) := by
  rw [step_of_hostNext h, perform, csrRead_pending]

theorem step_of_fRead {i : Reg} (h : HostNext s (.fRead i) rest) :
    step s = .next (answerRead (.word 0) ((fRead i s).map .word) { s with pending := rest }) := by
  rw [step_of_hostNext h, perform, fRead_pending]

theorem step_of_tabRead {sp : Space} {k : BankId} {idx : Nat} (h : HostNext s (.tabRead sp k idx) rest) :
    step s = .next (answerRead (tabZero sp) (tabRead sp k idx s) { s with pending := rest }) := by
  rw [step_of_hostNext h, perform, tabRead_pending]

theorem step_of_busRead {a : BitVec 32} (h : HostNext s (.busRead a) rest) :
    step s = .next (answerRead (.word 0) ((busRead a s).map .word) { s with pending := rest }) := by
  rw [step_of_hostNext h, perform, busRead_pending]

/-- A refused read while a fault is recorded, in the terms of the statements. -/
theorem answerRead_error_eq_answered (hs : s.ecause ≠ 0) (z : Reply) (c : Cause) :
    answerRead z (.error c) { s with pending := rest } = answered rest z s :=
  answerRead_error_of_faulted (s := { s with pending := rest }) hs z c

end

theorem tabZero_eq (sp : Space) : tabZero sp = if sp = .pms then .uop 0 else .word 0 := by cases sp <;> rfl

/-- Settles O31: a write is dropped at its port, a read gives one of its two answers, and `Reset` is not held to the record. -/
theorem recordedFaultFreezesWrites : Obligations.RecordedFaultFreezesWrites := by
  unfold Obligations.RecordedFaultFreezesWrites
  intro rest s _ hs
  have hread {n : BitVec 8} {v : Word} (h : HostNext s (.csrRead n) rest) (hv : csrRead n s = .ok v) :
      step s = .next (answered rest (.word v) s) := by
    rw [step_of_csrRead h, hv]
    rfl
  have hrefused {z : Reply} {c : Cause} : Host.Outcome.next (answerRead z (.error c) { s with pending := rest }) =
      (.next (answered rest z s) : Host.Outcome State Fault Refusal) :=
    congrArg _ (answerRead_error_eq_answered hs z c)
  refine ⟨fun n v h hv => ?_, fun i v h => ?_, fun a v h hv => ?_, fun h => hread h rfl,
    fun h => hread h (congrArg _ (BitVec.ofNat_toNat ..).symm), fun h => hread h (congrArg _ (BitVec.ofNat_toNat ..).symm),
    fun h => hread h rfl, fun n v => hread, fun i h hv => ?_, fun sp k idx r h hr => ?_, fun a v h hv => ?_,
    fun n c h hc => ?_, fun i h hv => ?_, fun sp k idx c h hc => ?_, fun a c h hc => ?_,
    fun h => ⟨_, step_of_hostNext h, rfl⟩⟩
  · exact (step_of_hostNext h).trans (csrWrite_of_faulted (s := { s with pending := rest }) hs hv)
  · exact (step_of_hostNext h).trans (hostWrite_of_faulted (s := { s with pending := rest }) hs _)
  · exact (step_of_hostNext h).trans (busWrite_of_faulted (s := { s with pending := rest }) hs hv)
  · rw [step_of_fRead h, fRead, readF_of_valid hv]
    rfl
  · rw [step_of_tabRead h, hr]
    rfl
  · rw [step_of_busRead h, hv]
    rfl
  · rw [step_of_csrRead h, hc]
    exact hrefused
  · rw [step_of_fRead h, fRead, readF_of_invalid hv]
    exact hrefused
  · rw [step_of_tabRead h, hc, ← tabZero_eq]
    exact hrefused
  · rw [step_of_busRead h, hc]
    exact hrefused

end Machine

end Sys2Proof

/-! ## The transaction `Reset` (R200) -/

namespace Sys2Proof

namespace Machine

/-- A `Reset` at the head of the list is performed at once: a busy core does not hold it, and an idle core performs its host's
next transaction (R40, R200). -/
theorem step_of_reset_due {s : State} {rest : List Pending} (hp : s.pending = { delay := 0, txn := .reset } :: rest) :
    step s = .next (resetCore { s with pending := rest }) := by
  cases hb : s.busy with
  | false => exact step_of_idle hb hp
  | true => exact step_of_due hb hp rfl

/-- `Reset` writes every field but `F`, `IN`, `DIGEST`, the parameters and the host's fields (R200). -/
theorem resetCore_eq (s : State) :
    resetCore s = { State.reset with
      f := s.f, inp := s.inp, digest := s.digest, params := s.params, pending := s.pending, reply := s.reply,
      free := s.free } := rfl

/-- Settles O34: the step is `Reset`'s own effect, busy or idle, and that effect is the reset state with the fields it keeps. -/
theorem resetTransactionEffect : Obligations.ResetTransactionEffect := by
  unfold Obligations.ResetTransactionEffect
  intro rest s hp
  exact ⟨_, step_of_reset_due hp, resetCore_eq { s with pending := rest }⟩

end Machine

end Sys2Proof
